-- ==== Sys2Proof/Word.lean ====
section
/-! DEFINITION. The words of the hardware: what the spec moves, adds, shifts or masks as bits
(spec/00_scope.md R11, R12). -/

namespace Sys2Proof

/-- One register-file cell, one bus byte, one operand byte of a command word: `REG_WIDTH` and
`ADDR_WIDTH` are both 8 bits (R11), so a register address is a byte too. -/
abbrev Byte := BitVec 8

/-- The 7-bit device address that heads every frame (`DEV_ADDR_WIDTH`, R11, R61). -/
abbrev DevAddr := BitVec 7

/-- The 16-bit value the temperature read assembles from two registers (R65, R190). -/
abbrev Half := BitVec 16

end Sys2Proof
end

