-- ==== Sys2Proof/Config.lean ====
section
/-! DEFINITION. The parameters of spec/00_scope.md R11 that have a value, the OPEN ones without a
body, and the free values (the spec's `draw(T)`, R13): constants no proof can see into. -/

namespace Sys2Proof

/-- The OPEN parameter `ENGINE` (R11, D11): whether the device's own logic ever acts. -/
inductive EngineMode where
  /-- The engine never steps: the source's "mock device" (R10). -/
  | static
  /-- The engine may, between any two frames, replace any engine-owned bit (R50). -/
  | free
deriving DecidableEq, Repr, Inhabited

/-- One change the engine makes on its own; only the engine-owned bits of the cell take it (R50). -/
structure EngineWrite where
  addr  : Byte
  value : Byte
deriving DecidableEq, Repr, Inhabited

/-- What the environment does at one frame: the engine's changes just before it (R71), the status
the transport returns, `none` for a call that never returns (R137, R220), and how many bytes of a
frame without a zero status reached the slave (the `draw(0 .. m)` of R138, cut at the frame's own
length). -/
structure FrameAnswer where
  engine  : List EngineWrite
  status  : Option Byte
  applied : Nat
deriving DecidableEq, Repr, Inhabited

namespace Config

/-- `NREG`, the number of cells of the register file (R11). -/
abbrev nreg : Nat := 256

/-- `RD_LIMIT`, the most bytes one read frame returns (R11, R68). -/
abbrev rdLimit : Nat := 32

/-- `WR_LIMIT`, the most payload bytes one write frame carries beside its address byte (R11, R68). -/
abbrev wrLimit : Nat := 31

/-- `CLOCK_BASE` (R11, R26). -/
abbrev clockBase : Byte := 0x00#8

/-- `CLOCK_LEN` (R11). -/
abbrev clockLen : Nat := 7

/-- `ALM1_BASE` (R11, R26). -/
abbrev alm1Base : Byte := 0x07#8

/-- `ALM2_BASE` (R11, R26). -/
abbrev alm2Base : Byte := 0x0B#8

/-- `CONTROL` (R11, R42). -/
abbrev control : Byte := 0x0E#8

/-- `STATUS` (R11, R43). -/
abbrev status : Byte := 0x0F#8

/-- `AGING` (R11, R44). -/
abbrev aging : Byte := 0x10#8

/-- `TEMP_MSB` (R11, R45). -/
abbrev tempMsb : Byte := 0x11#8

/-- `TEMP_LSB` (R11, R45). -/
abbrev tempLsb : Byte := 0x12#8

/-- The reserved cell no list of the source names (R46). -/
abbrev reservedCell : Byte := 0x13#8

/-- `NV_BASE`, the first cell of the general-purpose storage (R11, R47). -/
abbrev nvBase : Byte := 0x14#8

/-- The OPEN parameter `DEV_ADDR` (R11, D5): the value is not in the source. -/
opaque devAddr : DevAddr

/-- The OPEN parameter `ENGINE` of the machine at reset (R11, D11). -/
opaque engine : EngineMode

/-- What cell `a` of `REG` holds at first power: unspecified (R51, R230). -/
opaque powerOnByte : Nat → Byte

/-- What `PTR` holds at first power: unspecified (R51, R230). -/
opaque powerOnPtr : Byte

/-- `SQW_FREQ`: the frequency in hertz a rate-select code stands for; not in the source, used by no
rule (R11, R102, D17). -/
opaque sqwFreq : BitVec 2 → Nat

/-- The environment's answer to the frame with this number, where no answer is scripted (R137). -/
opaque freeAnswer : Nat → FrameAnswer

/-- The `n`-th `draw(byte)` of a run (R13, R46, R138, R204). -/
opaque freeByte : Nat → Byte

/-- The `n`-th draw of a boolean (R204). -/
opaque freeBool : Nat → Bool

/-- The `n`-th draw of a temperature result (R204). -/
opaque freeHalf : Nat → Half

end Config

end Sys2Proof
end

