-- ==== Sys2Proof/Syntax.lean ====
section
/-! DEFINITION. The instructions: one constructor per row of spec/opcode_table.json, the two bus
frames of the slave side (R90 to R92) and the eighteen commands of the sequencer side (R96, R97).
Operands are the operand bytes of R98, whose domains WellFormed.lean checks. -/

namespace Sys2Proof

/-- The instructions of RIB. -/
inductive Instr where
  /-- Write frame: device address, then up to 32 bytes, the first the register address (R91, R130). -/
  | wframe (dev : DevAddr) (bytes : List Byte)
  /-- Read frame: device address and the number of bytes requested (R92, R131). -/
  | rframe (dev : DevAddr) (count : Byte)
  | toBCD (n : Byte)
  | fromBCD (b : Byte)
  | readBytes (addr count : Byte)
  /-- The `count` byte of the command word is the payload's length (R99). -/
  | writeBytes (addr : Byte) (data : List Byte)
  | readByte (addr : Byte)
  | writeByte (addr value : Byte)
  | getTime
  | setTime (seconds minutes hours weekday date month year : Byte)
  /-- `type` is a code of R101. -/
  | setAlarm (type seconds minutes hours dayOrDate : Byte)
  | setAlarm3 (type minutes hours dayOrDate : Byte)
  | setAlarmInterrupt (channel enabled : Byte)
  | pollAndClearAlarm (channel : Byte)
  /-- `freq`: a rate code 0 to 3, or 4 for `DISABLED` (R102). -/
  | setSquareWave (freq : Byte)
  | oscillatorStopped (clear : Byte)
  | readTemperature
  | readMemory (addr count : Byte)
  | writeMemory (addr : Byte) (data : List Byte)
  | probe
deriving DecidableEq, Repr

/-- The closed set `AlarmType` of R160: eleven variants, six for Alarm1 and five for Alarm2. -/
inductive AlarmType where
  | a1EverySecond
  | a1MatchSeconds
  | a1MatchMinutes
  | a1MatchHours
  | a1MatchDate
  | a1MatchDay
  | a2EveryMinute
  | a2MatchMinutes
  | a2MatchHours
  | a2MatchDate
  | a2MatchDay
deriving DecidableEq, Repr

/-- The 8-bit code of each variant (R101). -/
def AlarmType.code : AlarmType → Byte
  | .a1EverySecond  => 0x0F#8
  | .a1MatchSeconds => 0x0E#8
  | .a1MatchMinutes => 0x0C#8
  | .a1MatchHours   => 0x08#8
  | .a1MatchDate    => 0x00#8
  | .a1MatchDay     => 0x10#8
  | .a2EveryMinute  => 0x8E#8
  | .a2MatchMinutes => 0x8C#8
  | .a2MatchHours   => 0x88#8
  | .a2MatchDate    => 0x80#8
  | .a2MatchDay     => 0x90#8

/-- Every member of the closed set, in the order of R101. -/
def AlarmType.all : List AlarmType :=
  [.a1EverySecond, .a1MatchSeconds, .a1MatchMinutes, .a1MatchHours, .a1MatchDate, .a1MatchDay,
   .a2EveryMinute, .a2MatchMinutes, .a2MatchHours, .a2MatchDate, .a2MatchDay]

/-- The variant a code stands for; `none` for a byte outside the closed set, which R104 refuses. -/
def AlarmType.ofCode? (c : Byte) : Option AlarmType :=
  AlarmType.all.find? fun t => t.code == c

/-- Whether the variant selects Alarm1, whose block has a seconds register (R160). -/
def AlarmType.isAlarm1 : AlarmType → Bool
  | .a1EverySecond | .a1MatchSeconds | .a1MatchMinutes | .a1MatchHours | .a1MatchDate | .a1MatchDay => true
  | .a2EveryMinute | .a2MatchMinutes | .a2MatchHours | .a2MatchDate | .a2MatchDay => false

/-- Whether the variant matches a day of week, the `DYDT` column of R161. -/
def AlarmType.isDay : AlarmType → Bool
  | .a1MatchDay | .a2MatchDay => true
  | .a1EverySecond | .a1MatchSeconds | .a1MatchMinutes | .a1MatchHours | .a1MatchDate
  | .a2EveryMinute | .a2MatchMinutes | .a2MatchHours | .a2MatchDate => false

end Sys2Proof
end

