-- ==== Sys2Proof/WellFormed.lean ====
section
/-! DEFINITION. The admitted domain of every operand (spec/30_encoding.md R98, R99; the frames'
lengths from R91, R92, R130, R131). A command outside it is refused (R104). -/

namespace Sys2Proof

/-- `lo ≤ v ≤ hi`, on an operand byte read as an unsigned number (R96). -/
def inRange (lo hi : Nat) (v : Byte) : Bool := decide (lo ≤ v.toNat) && decide (v.toNat ≤ hi)

/-- A read count: 1 to `RD_LIMIT` (R68, R98). -/
def readCountOk (count : Byte) : Bool := inRange 1 Config.rdLimit count

/-- A write payload: 0 to `WR_LIMIT` bytes (R68, R98). -/
def payloadOk (data : List Byte) : Bool := decide (data.length ≤ Config.wrLimit)

/-- A boolean operand byte: 0 or 1 (R103). -/
def boolOk (b : Byte) : Bool := inRange 0 1 b

/-- A channel operand byte: 1 or 2 (R103). -/
def channelOk (c : Byte) : Bool := inRange 1 2 c

/-- The operands of an alarm command but for its seconds: the type is one of the eleven codes, and
`dayOrDate` is 1 to 7 where the type has `DYDT = 1`, else 1 to 31 (R98, R163). -/
def alarmFieldsOk (type minutes hours dayOrDate : Byte) : Bool :=
  match AlarmType.ofCode? type with
  | none => false
  | some t =>
    inRange 0 59 minutes && inRange 0 23 hours && inRange 1 (bif t.isDay then 7 else 31) dayOrDate

/-- The seconds of `setAlarm`: 0 to 59 for Alarm1, any byte for Alarm2, which ignores it (R98, D29). -/
def alarmSecondsOk (type seconds : Byte) : Bool :=
  match AlarmType.ofCode? type with
  | none => false
  | some t => !t.isAlarm1 || inRange 0 59 seconds

/-- The admitted domain of R98, instruction by instruction. -/
def Instr.wf : Instr → Bool
  | .wframe _ bytes => decide (bytes.length ≤ Config.wrLimit + 1)
  | .rframe _ count => readCountOk count
  | .toBCD n => inRange 0 99 n
  | .fromBCD _ => true
  | .readBytes _ count => readCountOk count
  | .writeBytes _ data => payloadOk data
  | .readByte _ => true
  | .writeByte _ _ => true
  | .getTime => true
  | .setTime seconds minutes hours weekday date month year =>
    inRange 0 59 seconds && inRange 0 59 minutes && inRange 0 23 hours && inRange 1 7 weekday &&
      inRange 1 31 date && inRange 1 12 month && inRange 0 99 year
  | .setAlarm type seconds minutes hours dayOrDate =>
    alarmSecondsOk type seconds && alarmFieldsOk type minutes hours dayOrDate
  | .setAlarm3 type minutes hours dayOrDate => alarmFieldsOk type minutes hours dayOrDate
  | .setAlarmInterrupt channel enabled => channelOk channel && boolOk enabled
  | .pollAndClearAlarm channel => channelOk channel
  | .setSquareWave freq => inRange 0 4 freq
  | .oscillatorStopped clear => boolOk clear
  | .readTemperature => true
  | .readMemory _ count => readCountOk count
  | .writeMemory _ data => payloadOk data
  | .probe => true

end Sys2Proof
end

