-- ==== Sys2Proof/Decode.lean ====
section
/-! DEFINITION. From the bytes on a port to an instruction, total and rejecting by name, and back
(spec/30_encoding.md R90 to R99). The two kinds of words arrive on two ports: command words on the
command port (R96, R97), frames on the bus, in the informative wire form of R93. -/

namespace Sys2Proof

/-- Where a word arrives: the sequencer's command port or the slave's bus port (R3). -/
inductive Port where
  | command
  | bus
deriving DecidableEq, Repr

/-- Why a word is no instruction (R104 (a), (b)). -/
inductive Reject where
  /-- No byte at all, so no opcode and no head byte. -/
  | emptyWord
  /-- An opcode 0x12 to 0xFF (R104 (a)). -/
  | reservedOpcode (opcode : Byte)
  /-- A length that does not match R97 or R99 (R104 (b)). -/
  | wrongLength
deriving DecidableEq, Repr

/-- An operand list of no byte. -/
def args0 (i : Instr) : List Byte → Except Reject Instr
  | [] => .ok i
  | _ :: _ => .error .wrongLength

/-- An operand list of one byte. -/
def args1 (k : Byte → Instr) : List Byte → Except Reject Instr
  | [a] => .ok (k a)
  | _ => .error .wrongLength

/-- An operand list of two bytes. -/
def args2 (k : Byte → Byte → Instr) : List Byte → Except Reject Instr
  | [a, b] => .ok (k a b)
  | _ => .error .wrongLength

/-- An operand list of four bytes. -/
def args4 (k : Byte → Byte → Byte → Byte → Instr) : List Byte → Except Reject Instr
  | [a, b, c, d] => .ok (k a b c d)
  | _ => .error .wrongLength

/-- An operand list of five bytes. -/
def args5 (k : Byte → Byte → Byte → Byte → Byte → Instr) : List Byte → Except Reject Instr
  | [a, b, c, d, e] => .ok (k a b c d e)
  | _ => .error .wrongLength

/-- An operand list of seven bytes. -/
def args7 (k : Byte → Byte → Byte → Byte → Byte → Byte → Byte → Instr) :
    List Byte → Except Reject Instr
  | [a, b, c, d, e, f, g] => .ok (k a b c d e f g)
  | _ => .error .wrongLength

/-- An address, a count, then exactly `count` payload bytes (R99). -/
def argsPayload (k : Byte → List Byte → Instr) : List Byte → Except Reject Instr
  | addr :: count :: data => if data.length = count.toNat then .ok (k addr data) else .error .wrongLength
  | _ => .error .wrongLength

/-- The opcode map of R97, on the operand bytes that follow the opcode. -/
def decodeOpcode (opcode : Byte) (args : List Byte) : Except Reject Instr :=
  match opcode.toNat with
  | 0x00 => args1 .toBCD args
  | 0x01 => args1 .fromBCD args
  | 0x02 => args2 .readBytes args
  | 0x03 => argsPayload .writeBytes args
  | 0x04 => args1 .readByte args
  | 0x05 => args2 .writeByte args
  | 0x06 => args0 .getTime args
  | 0x07 => args7 .setTime args
  | 0x08 => args5 .setAlarm args
  | 0x09 => args4 .setAlarm3 args
  | 0x0A => args2 .setAlarmInterrupt args
  | 0x0B => args1 .pollAndClearAlarm args
  | 0x0C => args1 .setSquareWave args
  | 0x0D => args1 .oscillatorStopped args
  | 0x0E => args0 .readTemperature args
  | 0x0F => args2 .readMemory args
  | 0x10 => argsPayload .writeMemory args
  | 0x11 => args0 .probe args
  | _ => .error (.reservedOpcode opcode)

/-- A command word (R96). -/
def decodeCommand : List Byte → Except Reject Instr
  | [] => .error .emptyWord
  | opcode :: args => decodeOpcode opcode args

/-- A frame in the wire form of R93, head byte `{dev[6:0], rw}`: with `rw = 0` every later byte is the
frame's (R91); with `rw = 1` the one later byte stands for the count the transport is given (R92). -/
def decodeFrame : List Byte → Except Reject Instr
  | [] => .error .emptyWord
  | head :: rest =>
    match head.getLsbD 0 with
    | false => .ok (.wframe (head.extractLsb' 1 7) rest)
    | true => args1 (.rframe (head.extractLsb' 1 7)) rest

/-- What the word `bytes` on port `p` stands for. -/
def decode (p : Port) (bytes : List Byte) : Except Reject Instr :=
  match p with
  | .command => decodeCommand bytes
  | .bus => decodeFrame bytes

/-- The payload of a burst write command: address, count, data (R99). -/
def encodePayload (addr : Byte) (data : List Byte) : List Byte :=
  addr :: BitVec.ofNat 8 data.length :: data

/-- The head byte `{dev[6:0], rw}` of a frame (R93). -/
def frameHead (dev : DevAddr) (rw : BitVec 1) : Byte := dev ++ rw

/-- The word of an instruction and the port it travels on (R91, R92, R93, R97, R99). -/
def encode : Instr → Port × List Byte
  | .wframe dev bytes => (.bus, frameHead dev 0#1 :: bytes)
  | .rframe dev count => (.bus, [frameHead dev 1#1, count])
  | .toBCD n => (.command, [0x00#8, n])
  | .fromBCD b => (.command, [0x01#8, b])
  | .readBytes addr count => (.command, [0x02#8, addr, count])
  | .writeBytes addr data => (.command, 0x03#8 :: encodePayload addr data)
  | .readByte addr => (.command, [0x04#8, addr])
  | .writeByte addr value => (.command, [0x05#8, addr, value])
  | .getTime => (.command, [0x06#8])
  | .setTime seconds minutes hours weekday date month year =>
    (.command, [0x07#8, seconds, minutes, hours, weekday, date, month, year])
  | .setAlarm type seconds minutes hours dayOrDate =>
    (.command, [0x08#8, type, seconds, minutes, hours, dayOrDate])
  | .setAlarm3 type minutes hours dayOrDate => (.command, [0x09#8, type, minutes, hours, dayOrDate])
  | .setAlarmInterrupt channel enabled => (.command, [0x0A#8, channel, enabled])
  | .pollAndClearAlarm channel => (.command, [0x0B#8, channel])
  | .setSquareWave freq => (.command, [0x0C#8, freq])
  | .oscillatorStopped clear => (.command, [0x0D#8, clear])
  | .readTemperature => (.command, [0x0E#8])
  | .readMemory addr count => (.command, [0x0F#8, addr, count])
  | .writeMemory addr data => (.command, 0x10#8 :: encodePayload addr data)
  | .probe => (.command, [0x11#8])

/-- Length in bytes of the command word with this opcode, `count` being the byte `cmd[2]` (R97, R99);
`none` for a reserved opcode. -/
def commandLength (opcode count : Nat) : Option Nat :=
  match opcode with
  | 0x00 | 0x01 | 0x04 | 0x0B | 0x0C | 0x0D => some 2
  | 0x02 | 0x05 | 0x0A | 0x0F => some 3
  | 0x03 | 0x10 => some (3 + count)
  | 0x06 | 0x0E | 0x11 => some 1
  | 0x07 => some 8
  | 0x08 => some 6
  | 0x09 => some 5
  | _ => none

/-- Bytes `from .. from + n - 1` of a word numbered as spec/opcode_table.json numbers it: byte `j` is
bits `8j + 7` down to `8j`. -/
def tableBytes (w start : Nat) : Nat → List Byte
  | 0 => []
  | n + 1 => BitVec.ofNat 8 (w >>> (8 * start)) :: tableBytes w (start + 1) n

/-- The port and bytes of the table word `w` of `nbits` bits, every bit above them 0. A first byte that
is an opcode of R97 makes it a command word of that opcode's length; any other first byte is read as
the head of a frame, whose later bytes are those of the `nbits` bits (assumption 17). -/
def tableWord (nbits w : Nat) : Port × List Byte :=
  let v := w % 2 ^ nbits
  match commandLength (v % 256) ((v >>> 16) % 256) with
  | some n => (.command, tableBytes v 0 n)
  | none =>
    if v % 2 = 0 then (.bus, tableBytes v 0 (max 1 (min 33 (nbits / 8)))) else (.bus, tableBytes v 0 2)

/-- The instruction the decoder reads from a table word (the host's question about a row). -/
def decodeTableWord (nbits w : Nat) : Option Instr :=
  match decode (tableWord nbits w).1 (tableWord nbits w).2 with
  | .ok i => some i
  | .error _ => none

end Sys2Proof
end

