-- ==== Sys2Proof/Machine/State.lean ====
section
/-! DEFINITION. The state of RIB (spec/10_state.md R20, R22, R24), the ports and the transport's buffers
beside it (R3, R25), the open parameters (R11) and the inputs of the environment (R10, R137), with the
state after reset (R51, R230). -/

namespace Sys2Proof.Machine

/-- `REG`: 256 cells of 8 bits, addresses 0x00 to 0xFF (R20, R60). Every cell holds a byte, so a register
file is its own canonical form. -/
abbrev RegFile := Vector Byte Config.nreg

/-- The register file whose cell `a` holds `f a`. -/
def RegFile.ofFun (f : Nat → Byte) : RegFile :=
  ⟨((List.range Config.nreg).map f).toArray, by simp⟩

/-- The OPEN parameters of R11 a model takes as arguments. No step changes them. -/
structure Params where
  /-- `DEV_ADDR` (D5). -/
  devAddr : DevAddr
  /-- `ENGINE` (D11). -/
  engine  : EngineMode
  /-- `WMASK[a]` (D10); what stands here for 0x13 is never used, since `WMASK[0x13] = 0x00` (D8). -/
  wmask   : RegFile
deriving DecidableEq, Repr

/-- The sequencer between two steps (R51, R220). -/
inductive Sequencer where
  /-- Ready for a command. -/
  | idle
  /-- Stuck in a transport call that has not returned (R220). That the engine may still act then is the
  model's choice (DESIGN CHOICE, assumption 29). -/
  | hung
deriving DecidableEq, Repr

/-- The transport's pending write frame (R4, R25). -/
structure PendingFrame where
  dev   : DevAddr
  bytes : List Byte
deriving DecidableEq, Repr

/-- The two frame kinds, told apart by the transport call that starts them (R90). -/
inductive Frame where
  | write (dev : DevAddr) (bytes : List Byte)
  | read (dev : DevAddr) (count : Nat)
deriving DecidableEq, Repr

/-- A frame that went over the bus port, the status it ended with (`none`: it never returned) and, for a
read frame, the bytes it returned (R4). -/
structure FrameRecord where
  frame  : Frame
  status : Option Byte
  data   : List Byte
deriving DecidableEq, Repr

/-- `CivilTime`: seven unsigned bytes in plain binary (R150). -/
structure CivilTime where
  seconds : Byte
  minutes : Byte
  hours   : Byte
  weekday : Byte
  date    : Byte
  month   : Byte
  year    : Byte
deriving DecidableEq, Repr

/-- The typed result of an operation (R100). -/
inductive Result where
  | none
  | byte (v : Byte)
  | bytes (data : List Byte)
  | time (t : CivilTime)
  /-- A boolean, one byte: 0 = false, 1 = true (R103). -/
  | bool (v : Byte)
  /-- A signed 16-bit count of quarter degrees Celsius (R190). -/
  | temperature (q : Half)
deriving DecidableEq, Repr

/-- The result port: status and typed result of the latest operation that ended (R3, R100). -/
structure Response where
  status : Byte
  result : Result
deriving DecidableEq, Repr

/-- What reaches the machine from outside, one thing a step (R10). -/
inductive Input where
  /-- A word on one of the two ports (R3). -/
  | word (port : Port) (bytes : List Byte)
  /-- The engine acts between two commands (R50, R71), or while a call that never returned keeps the sequencer
  stuck (DESIGN CHOICE, assumption 29). -/
  | engine (writes : List EngineWrite)
  /-- The host side restarts (R231). -/
  | hostReset
deriving DecidableEq, Repr

/-- The state. `reg`, `ptr` and `lastErr` are the spec's complete state (R20); the rest are its ports, the
transport's buffers, the sequencer's readiness, the open parameters and the environment's inputs. -/
structure State where
  /-- `REG` (R20, R26 to R47). -/
  reg        : RegFile
  /-- `PTR` (R22). -/
  ptr        : Byte
  /-- `LASTERR` (R24). -/
  lastErr    : Byte
  /-- Idle, or stuck in a call that never returned (R51, R220). -/
  seq        : Sequencer
  /-- The transport's pending write frame, none between frames (R25). -/
  pending    : Option PendingFrame
  /-- The transport's received-byte queue, empty between frames (R25). -/
  received   : List Byte
  /-- The bus port: the frames of the latest command (or the latest bare frame), oldest first (R3). -/
  bus        : List FrameRecord
  /-- The result port; none before the first operation ends (R3, R100). -/
  response   : Option Response
  /-- What the outside will do next, oldest first (R10). -/
  inbox      : List Input
  /-- The environment's answers to the coming frames; beyond them it answers freely (R137). -/
  transport  : List FrameAnswer
  /-- How many frames have been answered: which free answer comes next. The model's own. -/
  frameCount : Nat
  /-- How many values have been drawn: which free value comes next. The model's own. -/
  draws      : Nat
  /-- The OPEN parameters (R11). -/
  params     : Params
deriving DecidableEq, Repr

/-- Why a step faults: never. "No behaviour of RIB is treated as `fault`: the block has no trap"
(spec/93_implementation_defined.md), so the type has no member. Safe. -/
inductive Fault : Type where
deriving DecidableEq, Repr

/-- Why a step is refused, R104 but for the first. All are safe: nothing is claimed of a run that meets
one. -/
inductive Refusal where
  /-- Raised by `exec` for an instruction without a meaning; no arm raises it. Safe. -/
  | notModelled (mnemonic : String)
  /-- Raised by `step` for a word of no byte (R104 (b)). Safe. -/
  | emptyWord
  /-- Raised by `step` for an opcode 0x12 to 0xFF (R104 (a)). Safe. -/
  | reservedOpcode (opcode : Byte)
  /-- Raised by `step` for a word whose length is not the one of R97 or R99 (R104 (b)). Safe. -/
  | wrongLength
  /-- Raised by a meaning whose operand is outside its domain of R98 (R104 (c)). Safe. -/
  | operandOutOfDomain
  /-- Raised by a meaning while the sequencer is stuck in another operation (R104 (d)). Safe. -/
  | commandWhileBusy
deriving DecidableEq, Repr

/-- First power of the device (R51, R230): `LASTERR = 0`, the sequencer idle, no frame pending; `REG`, `PTR`
and the open parameters hold values no proof can see. -/
def State.reset : State where
  reg        := RegFile.ofFun Config.powerOnByte
  ptr        := Config.powerOnPtr
  lastErr    := 0#8
  seq        := .idle
  pending    := none
  received   := []
  bus        := []
  response   := none
  inbox      := []
  transport  := []
  frameCount := 0
  draws      := 0
  params     :=
    { devAddr := Config.devAddr, engine := Config.engine, wmask := RegFile.ofFun fun _ => 0xFF#8 }

end Sys2Proof.Machine
end

