-- ==== Sys2Proof/Machine/Ops.lean ====
section
/-! DEFINITION. The shared operations: the register file (spec/10_state.md R21), the engine (R50), the
draws (R13), what a frame does to the slave (spec/41_register_access.md R130, R131, R138, R139), the
transport's five calls and the two frames made of them (R4), how an operation reads and writes, ends or
raises `BusError` (R13, R132, R133, R200, R204, R220), and what a step takes from outside. -/

namespace Sys2Proof.Machine

/-! ## The register file -/

theorem Byte.toNat_lt_nreg (a : Byte) : a.toNat < Config.nreg := a.isLt

/-- `REG[a]` (R13). -/
def RegFile.read (r : RegFile) (a : Byte) : Byte := r[a.toNat]'(Byte.toNat_lt_nreg a)

/-- The register file with `v` in cell `a`. -/
def RegFile.write (r : RegFile) (a v : Byte) : RegFile := r.set a.toNat v (Byte.toNat_lt_nreg a)

/-- `old` with the bits of `mask` taken from `new` (R21). -/
def mergeBits (mask old new : Byte) : Byte := (old &&& ~~~mask) ||| (new &&& mask)

/-- `WMASK[a]`, with `WMASK[0x13] = 0x00` whatever the parameter (R11, R46). -/
def Params.writeMask (p : Params) (a : Byte) : Byte :=
  bif a == Config.reservedCell then 0x00#8 else p.wmask.read a

/-- A bus write of `v` to cell `a` (R21). -/
def State.busStore (s : State) (a v : Byte) : State :=
  { s with reg := s.reg.write a (mergeBits (s.params.writeMask a) (s.reg.read a) v) }

/-! ## The engine -/

/-- The engine-owned bits of cell `a` (R50): all of 0x00 to 0x06, control bit 5, status bits 7, 2, 1, 0,
all of 0x11 and 0x12. -/
def engineMask (a : Byte) : Byte :=
  match a.toNat with
  | 0x00 | 0x01 | 0x02 | 0x03 | 0x04 | 0x05 | 0x06 => 0xFF#8
  | 0x0E => 0x20#8
  | 0x0F => 0x87#8
  | 0x11 | 0x12 => 0xFF#8
  | _ => 0x00#8

/-- One change of the engine: the engine-owned bits of the cell take the value's. -/
def RegFile.engineWrite (r : RegFile) (w : EngineWrite) : RegFile :=
  r.write w.addr (mergeBits (engineMask w.addr) (r.read w.addr) w.value)

/-- The engine steps: under `ENGINE = free` it makes these changes, under `ENGINE = static` none (R50). -/
def State.engineStep (s : State) (writes : List EngineWrite) : State :=
  match s.params.engine with
  | .static => s
  | .free => { s with reg := writes.foldl RegFile.engineWrite s.reg }

/-! ## Draws -/

/-- `draw(byte)` (R13). -/
def State.drawByte (s : State) : Byte × State :=
  (Config.freeByte s.draws, { s with draws := s.draws + 1 })

/-- `n` draws of a byte, the first at the head. -/
def State.drawBytes (s : State) : Nat → List Byte × State
  | 0 => ([], s)
  | n + 1 =>
    match s.drawByte with
    | (b, s1) =>
      match s1.drawBytes n with
      | (bs, s2) => (b :: bs, s2)

/-- A draw of a boolean (R204). -/
def State.drawBool (s : State) : Bool × State :=
  (Config.freeBool s.draws, { s with draws := s.draws + 1 })

/-- A draw of a temperature result (R204). -/
def State.drawHalf (s : State) : Half × State :=
  (Config.freeHalf s.draws, { s with draws := s.draws + 1 })

/-! ## The slave side: what a frame does -/

/-- One data byte of a write frame: stored where `PTR` stands, through `WMASK`, then `PTR` advances modulo
256 (R22, R23, R130). -/
def State.slaveStore (s : State) (v : Byte) : State :=
  let s1 := s.busStore s.ptr v
  { s1 with ptr := s1.ptr + 1#8 }

/-- The bytes of a write frame: the first loads `PTR`, each later one is stored; none changes nothing
(R130). -/
def State.slaveWrite (s : State) : List Byte → State
  | [] => s
  | addr :: data => data.foldl State.slaveStore { s with ptr := addr }

/-- One byte of a read frame: the cell where `PTR` stands, a draw at 0x13, then `PTR` advances (R46, R131). -/
def State.slaveLoad (s : State) : Byte × State :=
  bif s.ptr == Config.reservedCell then
    match s.drawByte with
    | (b, s1) => (b, { s1 with ptr := s1.ptr + 1#8 })
  else
    (s.reg.read s.ptr, { s with ptr := s.ptr + 1#8 })

/-- The bytes of a read frame (R131). -/
def State.slaveRead (s : State) : Nat → List Byte × State
  | 0 => ([], s)
  | n + 1 =>
    match s.slaveLoad with
    | (b, s1) =>
      match s1.slaveRead n with
      | (bs, s2) => (b :: bs, s2)

/-! ## The environment's answers -/

/-- The answer to the frame `k` frames from now: the scripted one, beyond the script a free one (R137). -/
def State.answerAt (s : State) (k : Nat) : FrameAnswer :=
  match s.transport[k]? with
  | some a => a
  | none => Config.freeAnswer (s.frameCount + k)

/-- The answer to the next frame. -/
def State.answer (s : State) : FrameAnswer := s.answerAt 0

/-- The state once the next frame has its answer. -/
def State.takeAnswer (s : State) : State :=
  { s with transport := s.transport.drop 1, frameCount := s.frameCount + 1 }

/-- Whether the transport reports success (R4). -/
def answerOk (a : FrameAnswer) : Bool := a.status == some 0x00#8

/-- How many of a frame's `m` bytes reached the slave: all of them with status 0 (R137), else any number
(R138). -/
def deliveredBytes (a : FrameAnswer) (m : Nat) : Nat := bif answerOk a then m else min a.applied m

/-- A write frame reaches the slaves on the bus: this one takes it when the device address is its own
(R130, R138, R139). -/
def State.deliverWrite (s : State) (dev : DevAddr) (bytes : List Byte) (a : FrameAnswer) : State :=
  if dev = s.params.devAddr then s.slaveWrite (bytes.take (deliveredBytes a bytes.length)) else s

/-- A read frame reaches the slaves on the bus: the bytes it returns and the state it leaves. A frame that
does not end with status 0 advances `PTR` by some number of bytes and returns unspecified ones (R138);
another device's bytes are not RIB's to say (R139). -/
def State.deliverRead (s : State) (dev : DevAddr) (count : Nat) (a : FrameAnswer) : List Byte × State :=
  if dev = s.params.devAddr then
    bif answerOk a then s.slaveRead count
    else { s with ptr := s.ptr + BitVec.ofNat 8 (deliveredBytes a count) }.drawBytes count
  else s.drawBytes count

/-- The engine steps in the gap before a frame and the environment's answer to the frame is taken (R71). -/
def State.openFrame (s : State) : State := (s.engineStep s.answer.engine).takeAnswer

/-- The frame is entered on the bus port. -/
def State.record (s : State) (r : FrameRecord) : State := { s with bus := s.bus ++ [r] }

/-! ## The transport's five calls (R4) -/

/-- `beginTransaction(dev)`. -/
def State.beginTransaction (s : State) (dev : DevAddr) : State :=
  { s with pending := some { dev := dev, bytes := [] } }

/-- `writeByte(b)`: appended to the pending transaction. -/
def State.appendByte (s : State) (b : Byte) : State :=
  { s with pending := s.pending.map fun f => { f with bytes := f.bytes ++ [b] } }

/-- `endTransaction()`: the pending frame goes out; its status comes back unless the call never returns,
which leaves the frame pending (R130, R137, R220). -/
def State.endTransaction (s : State) : Option Byte × State :=
  match s.pending with
  | none => (s.answer.status, s.openFrame)
  | some f =>
    let s1 := (s.openFrame.deliverWrite f.dev f.bytes s.answer).record
      { frame := .write f.dev f.bytes, status := s.answer.status, data := [] }
    match s.answer.status with
    | none => (none, s1)
    | some c => (some c, { s1 with pending := none })

/-- `requestBytes(dev, count)`: the returned bytes are queued; a call that never returns queues none
(R131, R137, R220). -/
def State.requestBytes (s : State) (dev : DevAddr) (count : Nat) : Option Byte × State :=
  match s.openFrame.deliverRead dev count s.answer with
  | (data, s1) =>
    match s.answer.status with
    | none => (none, s1.record { frame := .read dev count, status := none, data := [] })
    | some c =>
      (some c, { s1.record { frame := .read dev count, status := some c, data := data } with received := data })

/-- `readByte()`: the next buffered byte; a draw from an empty queue, which no frame meets. -/
def State.takeByte (s : State) : Byte × State :=
  match s.received with
  | b :: rest => (b, { s with received := rest })
  | [] => s.drawByte

/-- `n` calls of `readByte()`, the values in order. -/
def State.takeBytes (s : State) : Nat → List Byte × State
  | 0 => ([], s)
  | n + 1 =>
    match s.takeByte with
    | (b, s1) =>
      match s1.takeBytes n with
      | (bs, s2) => (b :: bs, s2)

/-! ## Operations as sequences of frames -/

/-- How far an operation has come: it goes on with a value, a frame ended it with a nonzero status (R200),
or a transport call never returned (R220). -/
inductive Run (α : Type) where
  | done (a : α) (s : State)
  | busError (code : Byte) (s : State)
  | hung (s : State)
deriving Repr

/-- The next micro-step; an error or a hang ends the operation, so that no later one runs (R200, R206). -/
def Run.andThen {α β : Type} (r : Run α) (k : α → State → Run β) : Run β :=
  match r with
  | .done a s => k a s
  | .busError c s => .busError c s
  | .hung s => .hung s

/-- What a frame's status means to the operation: 0 goes on, a nonzero one raises `BusError` with the code
unchanged (R200, R201), none is a hang (R220). -/
def Run.ofStatus {α : Type} (status : Option Byte) (a : α) (s : State) : Run α :=
  match status with
  | none => .hung s
  | some c => bif c == 0x00#8 then .done a s else .busError c s

/-- `BusWrite(dev, bytes)` (R4, R130). -/
def State.busWrite (s : State) (dev : DevAddr) (bytes : List Byte) : Run Unit :=
  match (bytes.foldl State.appendByte (s.beginTransaction dev)).endTransaction with
  | (status, s1) => Run.ofStatus status () s1

/-- `BusRead(dev, count)` (R4, R131). -/
def State.busRead (s : State) (dev : DevAddr) (count : Nat) : Run (List Byte) :=
  match s.requestBytes dev count with
  | (none, s1) => .hung s1
  | (some c, s1) =>
    match s1.takeBytes count with
    | (data, s2) => Run.ofStatus (some c) data s2

/-- `MemRead(addr, n)`: the address frame, then the read frame (R13, R132). -/
def State.memRead (s : State) (addr : Byte) (n : Nat) : Run (List Byte) :=
  (s.busWrite s.params.devAddr [addr]).andThen fun _ s1 => s1.busRead s1.params.devAddr n

/-- `MemRead(addr, 1)` and its one byte (R134). -/
def State.memReadByte (s : State) (addr : Byte) : Run Byte :=
  (s.memRead addr 1).andThen fun data s1 => .done (data.headD 0x00#8) s1

/-- `MemWrite(addr, n, bytes)`: one write frame (R13, R133). -/
def State.memWrite (s : State) (addr : Byte) (bytes : List Byte) : Run Unit :=
  s.busWrite s.params.devAddr (addr :: bytes)

/-! ## The end of an operation -/

/-- The type of an operation's result (R100). -/
inductive ResultKind where
  | none
  | byte
  | bytes (count : Nat)
  | time
  | bool
  | temperature
deriving DecidableEq, Repr

/-- A boolean as one byte: 0 = false, 1 = true (R103). -/
def boolByte (b : Bool) : Byte := bif b then 0x01#8 else 0x00#8

/-- Seven bytes as a `CivilTime`, in the order of R150. -/
def CivilTime.ofBytes : List Byte → CivilTime
  | [s, m, h, w, d, mo, y] => ⟨s, m, h, w, d, mo, y⟩
  | _ => ⟨0, 0, 0, 0, 0, 0, 0⟩

/-- A result nobody may depend on: any bytes, any boolean, any temperature (R204). -/
def State.drawResult (s : State) : ResultKind → Result × State
  | .none => (.none, s)
  | .byte => match s.drawByte with | (b, s1) => (.byte b, s1)
  | .bytes n => match s.drawBytes n with | (bs, s1) => (.bytes bs, s1)
  | .time => match s.drawBytes Config.clockLen with | (bs, s1) => (.time (CivilTime.ofBytes bs), s1)
  | .bool => match s.drawBool with | (b, s1) => (.bool (boolByte b), s1)
  | .temperature => match s.drawHalf with | (h, s1) => (.temperature h, s1)

/-- The operation ends: `return v`, `raise BusError(c)` (R13, R200, R204), or never (R220). -/
def conclude (kind : ResultKind) : Run Result → State
  | .done v s => { s with lastErr := 0x00#8, response := some { status := 0x00#8, result := v } }
  | .busError c s =>
    match s.drawResult kind with
    | (v, s1) => { s1 with lastErr := c, response := some { status := c, result := v } }
  | .hung s => { s with seq := .hung }

/-- A codec operation ends: it touches no bus, so it leaves `LASTERR` alone (R24, R100). -/
def concludeCodec (v : Byte) (s : State) : State :=
  { s with response := some { status := 0x00#8, result := .byte v } }

/-- A bare frame ends: no operation is in progress, so neither `LASTERR` nor the result port changes; its
status and data stand on the bus port (R24, R130, R131). -/
def concludeFrame {α : Type} : Run α → State
  | .done _ s => s
  | .busError _ s => s
  | .hung s => { s with seq := .hung }

/-- An instruction is taken up: refused while the sequencer is stuck (R104 (d)) or with an operand outside
its domain (R104 (c)), before any frame is issued (R206). -/
def issue (admitted : Bool) (body : State → State) (s : State) : Host.Outcome State Fault Refusal :=
  match s.seq with
  | .hung => .refused .commandWhileBusy
  | .idle => bif admitted then .next (body { s with bus := [] }) else .refused .operandOutOfDomain

/-! ## What a step takes from outside -/

/-- The next input and the state without it. -/
def fetch (s : State) : Option (Input × State) :=
  match s.inbox with
  | [] => none
  | input :: rest => some (input, { s with inbox := rest })

/-- A word the decoder rejects, as a refusal (R104 (a), (b)). -/
def Refusal.ofReject : Reject → Refusal
  | .emptyWord => .emptyWord
  | .reservedOpcode opcode => .reservedOpcode opcode
  | .wrongLength => .wrongLength

/-- The host side restarts: sequencer idle, `LASTERR = 0`, no frame pending, `REG` and `PTR` kept (R231). -/
def State.hostReset (s : State) : State :=
  { s with lastErr := 0x00#8, seq := .idle, pending := none, received := [], bus := [], response := none }

/-- The word stands on its port as the next thing to happen. -/
def State.placeWord (s : State) (p : Port) (bytes : List Byte) : State :=
  { s with inbox := .word p bytes :: s.inbox }

/-- The table word stands on its port as the next thing to happen. -/
def State.placeTableWord (s : State) (nbits w : Nat) : State :=
  s.placeWord (tableWord nbits w).1 (tableWord nbits w).2

end Sys2Proof.Machine
end

