-- ==== Sys2Proof/Machine/Flags.lean ====
section
/-! DEFINITION. The bit fields of the control byte (spec/10_state.md R42) and the status byte (R43), and
the read-modify-write forms the operations apply to them (spec/30_encoding.md R106). -/

namespace Sys2Proof.Machine

/-! ## Which bit is which -/

/-- Alarm1 interrupt enable, control bit 0 (R42). -/
abbrev bitA1IE : Nat := 0
/-- Alarm2 interrupt enable, control bit 1 (R42). -/
abbrev bitA2IE : Nat := 1
/-- Interrupt control, control bit 2 (R42). -/
abbrev bitINTCN : Nat := 2
/-- Low bit of the rate-select code, control bit 3 (R42). -/
abbrev bitRS1 : Nat := 3
/-- High bit of the rate-select code, control bit 4 (R42). -/
abbrev bitRS2 : Nat := 4
/-- Alarm1 triggered flag, status bit 0 (R43). -/
abbrev bitA1F : Nat := 0
/-- Alarm2 triggered flag, status bit 1 (R43). -/
abbrev bitA2F : Nat := 1
/-- Oscillator-stop flag, status bit 7 (R43). -/
abbrev bitOSF : Nat := 7

/-! ## Channels -/

/-- `1 << (channel - 1)`: the channel's bit in the control and in the status byte (R106, R162). -/
def channelBit (channel : Byte) : Byte := 1#8 <<< (channel.toNat - 1)

/-- The control byte with the channel's enable bit set to `enabled`, the others as they were (R165). -/
def withEnable (channel : Byte) (enabled : Bool) (c : Byte) : Byte :=
  bif enabled then c ||| channelBit channel else c &&& ~~~(channelBit channel)

/-- Whether the channel's flag is set in the status byte (R166). -/
def flagSet (channel st : Byte) : Bool := (st &&& channelBit channel) != 0x00#8

/-- The status byte with exactly the channel's flag cleared (R166). -/
def clearFlag (channel st : Byte) : Byte := st &&& ~~~(channelBit channel)

/-! ## Oscillator-stop flag -/

/-- Whether OSF is set (R181). -/
def osfSet (st : Byte) : Bool := st.getLsbD bitOSF

/-- The status byte with OSF cleared (R106, R152, R181). -/
def clearOsf (st : Byte) : Byte := st &&& 0x7F#8

/-! ## Square wave -/

/-- The `freq` code of the sentinel `DISABLED` (R102). -/
abbrev freqDisabled : Byte := 0x04#8

/-- The control byte for a frequency: `DISABLED` sets INTCN alone; a rate code clears INTCN and goes to
`{RS2, RS1}` (R180). -/
def squareWaveByte (freq c : Byte) : Byte :=
  bif freq == freqDisabled then c ||| 0x04#8 else (c &&& 0xE3#8) ||| (freq <<< 3)

/-! ## What the output pin carries -/

/-- The two modes INTCN routes the pin to (R212). -/
inductive PinMode where
  | alarmInterrupt
  | squareWave (code : BitVec 2)
deriving DecidableEq, Repr

/-- The pin's mode: INTCN = 1 alarm-interrupt mode, 0 square-wave mode at the rate `{RS2, RS1}` (R212). -/
def pinMode (c : Byte) : PinMode :=
  bif c.getLsbD bitINTCN then .alarmInterrupt else .squareWave (c.extractLsb' bitRS1 2)

end Sys2Proof.Machine
end

