-- ==== Sys2Proof/Machine/Operands.lean ====
section
/-! DEFINITION. The byte-assembly forms of spec/30_encoding.md R106 that make and read register bytes:
the BCD codec (R120, R121), clock bytes (R151, R152), alarm bytes with their mask table (R161, R163) and
the temperature value (R190). -/

namespace Sys2Proof.Machine

/-! ## The BCD codec -/

/-- `n + 6 * (n / 10)`, integer division, modulo 256 (R120, R123). -/
def toBcd (n : Byte) : Byte := n + 6#8 * (n / 10#8)

/-- `b - 6 * (b >> 4)`, for every byte (R121). -/
def fromBcd (b : Byte) : Byte := b - 6#8 * (b >>> 4)

/-! ## Clock bytes -/

/-- The bits of the seconds byte that are seconds: all but the clock-halt bit (R27, R151). -/
abbrev secondsMask : Byte := 0x7F#8

/-- The bits of the hours byte that are hours: all but the 12/24-hour mode bit (R29, R151). -/
abbrev hoursMask : Byte := 0xBF#8

/-- The bits of the month byte that are the month: all but the century bit (R32, R151). -/
abbrev monthMask : Byte := 0x7F#8

/-- The seven clock bytes of a time: BCD but for the weekday (R152, R124). -/
def CivilTime.encode (t : CivilTime) : List Byte :=
  [toBcd t.seconds, toBcd t.minutes, toBcd t.hours, t.weekday, toBcd t.date, toBcd t.month, toBcd t.year]

/-- The time the seven clock bytes hold; no field is validated (R151). -/
def CivilTime.decode : List Byte → CivilTime
  | [b0, b1, b2, b3, b4, b5, b6] =>
    { seconds := fromBcd (b0 &&& secondsMask)
      minutes := fromBcd b1
      hours   := fromBcd (b2 &&& hoursMask)
      weekday := b3
      date    := fromBcd b4
      month   := fromBcd (b5 &&& monthMask)
      year    := fromBcd b6 }
  | _ => { seconds := 0, minutes := 0, hours := 0, weekday := 0, date := 0, month := 0, year := 0 }

/-! ## Alarm bytes -/

/-- A row of R161: the mask bits of the four fields and the day/date bit. -/
structure AlarmMask where
  m1   : Bool
  m2   : Bool
  m3   : Bool
  m4   : Bool
  dydt : Bool
deriving DecidableEq, Repr

/-- The mask table of R161; Alarm2 has no seconds register, so its `m1` is never used. -/
def alarmMask : AlarmType → AlarmMask
  | .a1EverySecond  => ⟨true,  true,  true,  true,  false⟩
  | .a1MatchSeconds => ⟨false, true,  true,  true,  false⟩
  | .a1MatchMinutes => ⟨false, false, true,  true,  false⟩
  | .a1MatchHours   => ⟨false, false, false, true,  false⟩
  | .a1MatchDate    => ⟨false, false, false, false, false⟩
  | .a1MatchDay     => ⟨false, false, false, false, true⟩
  | .a2EveryMinute  => ⟨false, true,  true,  true,  false⟩
  | .a2MatchMinutes => ⟨false, false, true,  true,  false⟩
  | .a2MatchHours   => ⟨false, false, false, true,  false⟩
  | .a2MatchDate    => ⟨false, false, false, false, false⟩
  | .a2MatchDay     => ⟨false, false, false, false, true⟩

/-- A bit as a byte, shifted left to `position` (R123). -/
def bitAt (b : Bool) (position : Nat) : Byte := (bif b then 1#8 else 0#8) <<< position

/-- An alarm seconds, minutes or hours byte: BCD with the mask bit in bit 7 (R34, R106). -/
def alarmByte (field : Byte) (m : Bool) : Byte := toBcd field ||| bitAt m 7

/-- An alarm day/date byte: BCD with `DYDT` in bit 6 and `M4` in bit 7 (R34, R106). -/
def alarmDayByte (field : Byte) (dydt m4 : Bool) : Byte := toBcd field ||| bitAt dydt 6 ||| bitAt m4 7

/-- The base address of the variant's alarm block (R11, R163). -/
def alarmBase (t : AlarmType) : Byte := bif t.isAlarm1 then Config.alm1Base else Config.alm2Base

/-- The bytes of the variant's alarm block: four for Alarm1; three for Alarm2, whose seconds are not read
(R163). -/
def alarmBytes (t : AlarmType) (seconds minutes hours dayOrDate : Byte) : List Byte :=
  let m := alarmMask t
  let rest := [alarmByte minutes m.m2, alarmByte hours m.m3, alarmDayByte dayOrDate m.dydt m.m4]
  bif t.isAlarm1 then alarmByte seconds m.m1 :: rest else rest

/-! ## Temperature -/

/-- `sext_16({msb, lsb}) >>a 6`: quarter degrees (R190). -/
def temperatureOf (msb lsb : Byte) : Half := (msb ++ lsb).sshiftRight 6

end Sys2Proof.Machine
end

