-- ==== Sys2Proof/Machine/Alarm.lean ====
section
/-! DEFINITION. Alarm access (spec/43_alarm_access.md R163 to R166). -/

namespace Sys2Proof.Machine

/-- `setAlarm`: the variant's whole block in one frame; control and status are not touched (R163). -/
def State.runSetAlarm (s : State) (t : AlarmType) (seconds minutes hours dayOrDate : Byte) : Run Result :=
  (s.memWrite (alarmBase t) (alarmBytes t seconds minutes hours dayOrDate)).andThen fun _ s1 => .done .none s1

/-- `setAlarmInterrupt`: read the control byte, set the channel's enable bit to `enabled`, write it back,
always (R165). -/
def State.runSetAlarmInterrupt (s : State) (channel : Byte) (enabled : Bool) : Run Result :=
  (s.memReadByte Config.control).andThen fun c s1 =>
  (s1.memWrite Config.control [withEnable channel enabled c]).andThen fun _ s2 => .done .none s2

/-- `pollAndClearAlarm`: read the status byte; if the channel's flag is set write it back with that bit
cleared and answer true, else answer false with no write frame (R166); the answer is one byte (R103). -/
def State.runPollAndClearAlarm (s : State) (channel : Byte) : Run Result :=
  (s.memReadByte Config.status).andThen fun st s1 =>
  bif flagSet channel st then
    (s1.memWrite Config.status [clearFlag channel st]).andThen fun _ s2 => .done (.bool (boolByte true)) s2
  else .done (.bool (boolByte false)) s1

/-- `setAlarm` (R163). A `type` outside the closed set is outside its domain (R104). -/
def execSetAlarm (type seconds minutes hours dayOrDate : Byte) (s : State) :
    Host.Outcome State Fault Refusal :=
  match AlarmType.ofCode? type with
  | none => issue false id s
  | some t =>
    issue (Instr.setAlarm type seconds minutes hours dayOrDate).wf
      (fun s1 => conclude .none (s1.runSetAlarm t seconds minutes hours dayOrDate)) s

/-- `setAlarm3`: `setAlarm` with the seconds 0 (R164). -/
def execSetAlarm3 (type minutes hours dayOrDate : Byte) (s : State) : Host.Outcome State Fault Refusal :=
  match AlarmType.ofCode? type with
  | none => issue false id s
  | some t =>
    issue (Instr.setAlarm3 type minutes hours dayOrDate).wf
      (fun s1 => conclude .none (s1.runSetAlarm t 0x00#8 minutes hours dayOrDate)) s

/-- `setAlarmInterrupt` (R165). -/
def execSetAlarmInterrupt (channel enabled : Byte) (s : State) : Host.Outcome State Fault Refusal :=
  issue (Instr.setAlarmInterrupt channel enabled).wf
    (fun s1 => conclude .none (s1.runSetAlarmInterrupt channel (enabled == 0x01#8))) s

/-- `pollAndClearAlarm` (R166). -/
def execPollAndClearAlarm (channel : Byte) (s : State) : Host.Outcome State Fault Refusal :=
  issue (Instr.pollAndClearAlarm channel).wf
    (fun s1 => conclude .bool (s1.runPollAndClearAlarm channel)) s

end Sys2Proof.Machine
end

