-- ==== Sys2Proof/Machine/Codec.lean ====
section
/-! DEFINITION. The BCD codec (spec/40_bcd_codec.md R120, R121): no frame, no state but the result port. -/

namespace Sys2Proof.Machine

/-- `toBCD(n)` (R120). -/
def execToBCD (n : Byte) (s : State) : Host.Outcome State Fault Refusal :=
  issue (Instr.toBCD n).wf (concludeCodec (toBcd n)) s

/-- `fromBCD(b)` (R121). -/
def execFromBCD (b : Byte) (s : State) : Host.Outcome State Fault Refusal :=
  issue (Instr.fromBCD b).wf (concludeCodec (fromBcd b)) s

end Sys2Proof.Machine
end

