-- ==== Sys2Proof/Machine/Control.lean ====
section
/-! DEFINITION. Control and status access (spec/44_control_status.md R180, R181). -/

namespace Sys2Proof.Machine

/-- `setSquareWave`: read the control byte, apply the frequency, write it back, always (R180). -/
def State.runSetSquareWave (s : State) (freq : Byte) : Run Result :=
  (s.memReadByte Config.control).andThen fun c s1 =>
  (s1.memWrite Config.control [squareWaveByte freq c]).andThen fun _ s2 => .done .none s2

/-- `oscillatorStopped`: read the status byte; if OSF is set and `clear` is asked for, write the byte just
read back with OSF cleared; answer the flag as it was, as one byte (R103, R181, D18). -/
def State.runOscillatorStopped (s : State) (clear : Bool) : Run Result :=
  (s.memReadByte Config.status).andThen fun st s1 =>
  bif osfSet st && clear then
    (s1.memWrite Config.status [clearOsf st]).andThen fun _ s2 => .done (.bool (boolByte (osfSet st))) s2
  else .done (.bool (boolByte (osfSet st))) s1

/-- `setSquareWave` (R180). -/
def execSetSquareWave (freq : Byte) (s : State) : Host.Outcome State Fault Refusal :=
  issue (Instr.setSquareWave freq).wf (fun s1 => conclude .none (s1.runSetSquareWave freq)) s

/-- `oscillatorStopped` (R181). -/
def execOscillatorStopped (clear : Byte) (s : State) : Host.Outcome State Fault Refusal :=
  issue (Instr.oscillatorStopped clear).wf
    (fun s1 => conclude .bool (s1.runOscillatorStopped (clear == 0x01#8))) s

end Sys2Proof.Machine
end

