-- ==== Sys2Proof/Machine/Frames.lean ====
section
/-! DEFINITION. The two bus frames the slave side executes (spec/41_register_access.md R130, R131, R137 to
R139). -/

namespace Sys2Proof.Machine

/-- `WFRAME` (R130). -/
def execWframe (dev : DevAddr) (bytes : List Byte) (s : State) : Host.Outcome State Fault Refusal :=
  issue (Instr.wframe dev bytes).wf (fun s1 => concludeFrame (s1.busWrite dev bytes)) s

/-- `RFRAME` (R131). -/
def execRframe (dev : DevAddr) (count : Byte) (s : State) : Host.Outcome State Fault Refusal :=
  issue (Instr.rframe dev count).wf (fun s1 => concludeFrame (s1.busRead dev count.toNat)) s

end Sys2Proof.Machine
end

