-- ==== Sys2Proof/Machine/Registers.lean ====
section
/-! DEFINITION. Register access (spec/41_register_access.md R132 to R136). -/

namespace Sys2Proof.Machine

/-- `readBytes(addr, count)`: address frame, read frame (R132). -/
def State.runReadBytes (s : State) (addr : Byte) (count : Nat) : Run Result :=
  (s.memRead addr count).andThen fun data s1 => .done (.bytes data) s1

/-- `writeBytes(addr, bytes)`: one write frame (R133). -/
def State.runWriteBytes (s : State) (addr : Byte) (data : List Byte) : Run Result :=
  (s.memWrite addr data).andThen fun _ s1 => .done .none s1

/-- `readByte(addr)`: `MemRead(addr, 1)` (R134). -/
def State.runReadByte (s : State) (addr : Byte) : Run Result :=
  (s.memReadByte addr).andThen fun d s1 => .done (.byte d) s1

/-- `probe()`: an empty write frame (R136). -/
def State.runProbe (s : State) : Run Result :=
  (s.busWrite s.params.devAddr []).andThen fun _ s1 => .done .none s1

/-- `readBytes` (R132). -/
def execReadBytes (addr count : Byte) (s : State) : Host.Outcome State Fault Refusal :=
  issue (Instr.readBytes addr count).wf
    (fun s1 => conclude (.bytes count.toNat) (s1.runReadBytes addr count.toNat)) s

/-- `writeBytes` (R133). -/
def execWriteBytes (addr : Byte) (data : List Byte) (s : State) : Host.Outcome State Fault Refusal :=
  issue (Instr.writeBytes addr data).wf (fun s1 => conclude .none (s1.runWriteBytes addr data)) s

/-- `readByte` (R134). -/
def execReadByte (addr : Byte) (s : State) : Host.Outcome State Fault Refusal :=
  issue (Instr.readByte addr).wf (fun s1 => conclude .byte (s1.runReadByte addr)) s

/-- `writeByte` (R135). -/
def execWriteByte (addr value : Byte) (s : State) : Host.Outcome State Fault Refusal :=
  issue (Instr.writeByte addr value).wf (fun s1 => conclude .none (s1.runWriteBytes addr [value])) s

/-- `probe` (R136). -/
def execProbe (s : State) : Host.Outcome State Fault Refusal :=
  issue Instr.probe.wf (fun s1 => conclude .none s1.runProbe) s

end Sys2Proof.Machine
end

