-- ==== Sys2Proof/Machine/Nvram.lean ====
section
/-! DEFINITION. Non-volatile memory access (spec/46_nv_memory.md R195, R196): the raw register access
operations, with no check of the range (D33). -/

namespace Sys2Proof.Machine

/-- `readMemory(addr, count)` (R195). -/
def execReadMemory (addr count : Byte) (s : State) : Host.Outcome State Fault Refusal :=
  issue (Instr.readMemory addr count).wf
    (fun s1 => conclude (.bytes count.toNat) (s1.runReadBytes addr count.toNat)) s

/-- `writeMemory(addr, bytes)` (R196). -/
def execWriteMemory (addr : Byte) (data : List Byte) (s : State) : Host.Outcome State Fault Refusal :=
  issue (Instr.writeMemory addr data).wf (fun s1 => conclude .none (s1.runWriteBytes addr data)) s

end Sys2Proof.Machine
end

