-- ==== Sys2Proof/Machine/Temperature.lean ====
section
/-! DEFINITION. Temperature access (spec/45_temperature.md R190). -/

namespace Sys2Proof.Machine

/-- `readTemperature()`: two single-byte reads, 0x12 then 0x11, and the value they make (R190, D20). -/
def State.runReadTemperature (s : State) : Run Result :=
  (s.memReadByte Config.tempLsb).andThen fun lsb s1 =>
  (s1.memReadByte Config.tempMsb).andThen fun msb s2 => .done (.temperature (temperatureOf msb lsb)) s2

/-- `readTemperature` (R190). -/
def execReadTemperature (s : State) : Host.Outcome State Fault Refusal :=
  issue Instr.readTemperature.wf (fun s1 => conclude .temperature s1.runReadTemperature) s

end Sys2Proof.Machine
end

