-- ==== Sys2Proof/Machine/Time.lean ====
section
/-! DEFINITION. Time access (spec/42_time_access.md R151, R152). -/

namespace Sys2Proof.Machine

/-- `getTime()`: seven bytes from the seconds register, decoded (R151). -/
def State.runGetTime (s : State) : Run Result :=
  (s.memRead Config.clockBase Config.clockLen).andThen fun data s1 => .done (.time (CivilTime.decode data)) s1

/-- `setTime(t)`: the seven clock bytes in one frame; only after that frame, read the status byte and
write it back with OSF cleared, always (R152, D19). -/
def State.runSetTime (s : State) (t : CivilTime) : Run Result :=
  (s.memWrite Config.clockBase t.encode).andThen fun _ s1 =>
  (s1.memReadByte Config.status).andThen fun st s2 =>
  (s2.memWrite Config.status [clearOsf st]).andThen fun _ s3 => .done .none s3

/-- `getTime` (R151). -/
def execGetTime (s : State) : Host.Outcome State Fault Refusal :=
  issue Instr.getTime.wf (fun s1 => conclude .time s1.runGetTime) s

/-- `setTime` (R152). -/
def execSetTime (seconds minutes hours weekday date month year : Byte) (s : State) :
    Host.Outcome State Fault Refusal :=
  issue (Instr.setTime seconds minutes hours weekday date month year).wf
    (fun s1 => conclude .none
      (s1.runSetTime ⟨seconds, minutes, hours, weekday, date, month, year⟩)) s

end Sys2Proof.Machine
end

