-- ==== Sys2Proof/Machine/Dispatch.lean ====
section
/-! DEFINITION. One arm per instruction, each the call of its meaning. -/

namespace Sys2Proof.Machine

def exec (i : Instr) (s : State) : Host.Outcome State Fault Refusal :=
  match i with
  -- the slave side: bus frames
  | .wframe dev bytes => Sys2Proof.Machine.execWframe dev bytes s
  | .rframe dev count => Sys2Proof.Machine.execRframe dev count s
  -- the sequencer side: commands, in the order of R97
  | .toBCD n => Sys2Proof.Machine.execToBCD n s
  | .fromBCD b => Sys2Proof.Machine.execFromBCD b s
  | .readBytes addr count => Sys2Proof.Machine.execReadBytes addr count s
  | .writeBytes addr data => Sys2Proof.Machine.execWriteBytes addr data s
  | .readByte addr => Sys2Proof.Machine.execReadByte addr s
  | .writeByte addr value => Sys2Proof.Machine.execWriteByte addr value s
  | .getTime => Sys2Proof.Machine.execGetTime s
  | .setTime seconds minutes hours weekday date month year => Sys2Proof.Machine.execSetTime seconds minutes hours weekday date month year s
  | .setAlarm type seconds minutes hours dayOrDate => Sys2Proof.Machine.execSetAlarm type seconds minutes hours dayOrDate s
  | .setAlarm3 type minutes hours dayOrDate => Sys2Proof.Machine.execSetAlarm3 type minutes hours dayOrDate s
  | .setAlarmInterrupt channel enabled => Sys2Proof.Machine.execSetAlarmInterrupt channel enabled s
  | .pollAndClearAlarm channel => Sys2Proof.Machine.execPollAndClearAlarm channel s
  | .setSquareWave freq => Sys2Proof.Machine.execSetSquareWave freq s
  | .oscillatorStopped clear => Sys2Proof.Machine.execOscillatorStopped clear s
  | .readTemperature => Sys2Proof.Machine.execReadTemperature s
  | .readMemory addr count => Sys2Proof.Machine.execReadMemory addr count s
  | .writeMemory addr data => Sys2Proof.Machine.execWriteMemory addr data s
  | .probe => Sys2Proof.Machine.execProbe s

end Sys2Proof.Machine
end

