-- ==== Sys2Proof/Machine/Step.lean ====
section
/-! DEFINITION. One step: the next thing from outside happens. There is no instruction fetch and no program
counter (spec/20_memory.md R76): a command arrives on the command port, runs to its end and is answered
before the next (R73, R209). -/

namespace Sys2Proof.Machine

/-- One step. With nothing to do the machine waits, unchanged (R10, R213). The engine's input is taken whatever
the sequencer's readiness: that it may act after a transport call has hung, whose frame is still pending, is the
model's choice; R71 and R220 leave it open (DESIGN CHOICE, assumption 29). -/
def step (s : State) : Host.Outcome State Fault Refusal :=
  match fetch s with
  | none => .next s
  | some (.engine writes, s1) => .next (s1.engineStep writes)
  | some (.hostReset, s1) => .next s1.hostReset
  | some (.word p bytes, s1) =>
    match decode p bytes with
    | .error r => .refused (Refusal.ofReject r)
    | .ok i => exec i s1

/-- The state in which the next step takes the instruction whose table word is `w`. -/
def State.withFetchWord (s : State) (nbits w : Nat) : State := s.placeTableWord nbits w

end Sys2Proof.Machine
end

