-- ==== Sys2Proof/Safety.lean ====
section
/-! DEFINITION. The terms claims are stated in: the premises a claim may take about the environment
(spec/41_register_access.md R137, spec/10_state.md R21, R50), what an operation leaves alone, and the
invariant every step keeps. -/

namespace Sys2Proof.Machine

/-! ## Premises -/

/-- The next `n` frames end with status 0: "every frame of this run returns status 0" (R137). -/
abbrev State.Answers (s : State) (n : Nat) : Prop := ∀ k, k < n → (s.answerAt k).status = some 0x00#8

/-- The engine is quiet over the next `n` frames: `ENGINE = static`, or it changes nothing before any of
them (R50, R242). -/
abbrev State.EngineQuiet (s : State) (n : Nat) : Prop :=
  s.params.engine = .static ∨ ∀ k, k < n → (s.answerAt k).engine = []

/-- The sequencer is idle, the next `n` frames succeed and the engine is quiet over them. -/
abbrev State.Ready (s : State) (n : Nat) : Prop := s.seq = .idle ∧ s.Answers n ∧ s.EngineQuiet n

/-- The default `WMASK`: every bit of every cell but the reserved one is writable from the bus (R11, R21). -/
abbrev State.PlainStorage (s : State) : Prop :=
  ∀ a : Byte, a ≠ Config.reservedCell → s.params.wmask.read a = 0xFF#8

/-! ## What an operation leaves alone -/

/-- Every cell of `REG` outside `touched` reads in `t` as in `s`. -/
abbrev State.KeepsCellsBut (s t : State) (touched : List Byte) : Prop :=
  ∀ a : Byte, a ∉ touched → t.reg.read a = s.reg.read a

/-- What every operation of `n` frames, all of them answered, leaves alone beside `REG`, `PTR`, `LASTERR`,
the result port and the bus port: the open parameters, the inputs to come and the sequencer's readiness;
the transport's buffers are empty again (R25), and exactly the `n` answers are used. -/
structure State.AfterFrames (s t : State) (n : Nat) : Prop where
  params     : t.params = s.params
  inbox      : t.inbox = s.inbox
  seq        : t.seq = s.seq
  pending    : s.pending = none → t.pending = none
  received   : s.received = [] → t.received = []
  transport  : t.transport = s.transport.drop n
  frameCount : t.frameCount = s.frameCount + n

/-! ## What the rules write, in the rules' own words -/

/-- What cell `a` holds after a bus write of `v`, `a` not the reserved cell:
`(REG[a] & ~WMASK[a]) | (v & WMASK[a])` (R21). -/
abbrev State.stored (s : State) (a v : Byte) : Byte :=
  (s.reg.read a &&& ~~~(s.params.wmask.read a)) ||| (v &&& s.params.wmask.read a)

/-- The packed BCD of a number: tens digit in the high nibble, ones digit in the low one (R64, R120). -/
abbrev packed (n : Byte) : Byte := BitVec.ofNat 8 (16 * (n.toNat / 10) + n.toNat % 10)

/-- Ten times the high nibble plus the low one (R121). -/
abbrev unpacked (b : Byte) : Byte := BitVec.ofNat 8 (10 * (b.toNat / 16) + b.toNat % 16)

/-- The frame `W[bytes]`, ended with status 0 (R91, R107). -/
abbrev wroteFrame (dev : DevAddr) (bytes : List Byte) : FrameRecord := ⟨.write dev bytes, some 0x00#8, []⟩

/-- The frame `R[n] -> data`, ended with status 0 (R92, R107). -/
abbrev readFrame (dev : DevAddr) (data : List Byte) : FrameRecord :=
  ⟨.read dev data.length, some 0x00#8, data⟩

/-! ## The invariant -/

/-- The transfer limits of a frame (R68, R91, R92): at most the address byte and `WR_LIMIT` payload bytes
out, 1 to `RD_LIMIT` bytes in. -/
def Frame.withinLimits : Frame → Bool
  | .write _ bytes => decide (bytes.length ≤ Config.wrLimit + 1)
  | .read _ count => decide (1 ≤ count) && decide (count ≤ Config.rdLimit)

/-- What holds of the machine after every step. -/
structure State.Inv (s : State) : Prop where
  /-- "Both are empty between frames" (R25): an idle sequencer has no frame pending and no byte queued. -/
  buffersEmpty : s.seq = .idle → s.pending = none ∧ s.received = []
  /-- An operation issues at most four frames (R202, R250). -/
  fewFrames : s.bus.length ≤ 4
  /-- Every frame keeps the transfer limits (R68). -/
  frameLimits : ∀ r ∈ s.bus, r.frame.withinLimits = true
  /-- A status on the result port other than 0 stands in `LASTERR` too (R24, R200). -/
  lastErrMirrors : ∀ r, s.response = some r → r.status ≠ 0x00#8 → s.lastErr = r.status
  /-- Only the last frame of an operation can fail or hang: no frame follows one that did (R200, R206). -/
  onlyLastFails : ∀ r ∈ s.bus.dropLast, r.status = some 0x00#8

end Sys2Proof.Machine

namespace Sys2Proof

/-- The instructions the sequencer executes: all but the two bare frames (R90, R96). -/
def Instr.isCommand : Instr → Bool
  | .wframe _ _ | .rframe _ _ => false
  | .toBCD _ | .fromBCD _ | .readBytes _ _ | .writeBytes _ _ | .readByte _ | .writeByte _ _ | .getTime
  | .setTime _ _ _ _ _ _ _ | .setAlarm _ _ _ _ _ | .setAlarm3 _ _ _ _ | .setAlarmInterrupt _ _
  | .pollAndClearAlarm _ | .setSquareWave _ | .oscillatorStopped _ | .readTemperature | .readMemory _ _
  | .writeMemory _ _ | .probe => true

/-- The alarm operations (R163 to R166). -/
def Instr.isAlarmOperation : Instr → Bool
  | .setAlarm _ _ _ _ _ | .setAlarm3 _ _ _ _ | .setAlarmInterrupt _ _ | .pollAndClearAlarm _ => true
  | .wframe _ _ | .rframe _ _ | .toBCD _ | .fromBCD _ | .readBytes _ _ | .writeBytes _ _ | .readByte _
  | .writeByte _ _ | .getTime | .setTime _ _ _ _ _ _ _ | .setSquareWave _ | .oscillatorStopped _
  | .readTemperature | .readMemory _ _ | .writeMemory _ _ | .probe => false

/-- The instructions that touch no bus (R202). -/
def Instr.isCodec : Instr → Bool
  | .toBCD _ | .fromBCD _ => true
  | .wframe _ _ | .rframe _ _ | .readBytes _ _ | .writeBytes _ _ | .readByte _ | .writeByte _ _ | .getTime
  | .setTime _ _ _ _ _ _ _ | .setAlarm _ _ _ _ _ | .setAlarm3 _ _ _ _ | .setAlarmInterrupt _ _
  | .pollAndClearAlarm _ | .setSquareWave _ | .oscillatorStopped _ | .readTemperature | .readMemory _ _
  | .writeMemory _ _ | .probe => false

/-- Where an instruction that begins with a `MemRead` reads (R202). -/
def Instr.firstRead? : Instr → Option Byte
  | .readBytes addr _ | .readByte addr | .readMemory addr _ => some addr
  | .getTime => some 0x00#8
  | .setAlarmInterrupt _ _ | .setSquareWave _ => some 0x0E#8
  | .pollAndClearAlarm _ | .oscillatorStopped _ => some 0x0F#8
  | .readTemperature => some 0x12#8
  | .wframe _ _ | .rframe _ _ | .toBCD _ | .fromBCD _ | .writeBytes _ _ | .writeByte _ _
  | .setTime _ _ _ _ _ _ _ | .setAlarm _ _ _ _ _ | .setAlarm3 _ _ _ _ | .writeMemory _ _ | .probe => none

/-- The instructions that carry no data byte to the slave: they read, check reachability or compute. -/
def Instr.storesNothing : Instr → Bool
  | .rframe _ _ | .toBCD _ | .fromBCD _ | .readBytes _ _ | .readByte _ | .getTime | .readTemperature
  | .readMemory _ _ | .probe => true
  | .wframe _ _ | .writeBytes _ _ | .writeByte _ _ | .setTime _ _ _ _ _ _ _ | .setAlarm _ _ _ _ _
  | .setAlarm3 _ _ _ _ | .setAlarmInterrupt _ _ | .pollAndClearAlarm _ | .setSquareWave _
  | .oscillatorStopped _ | .writeMemory _ _ => false

/-! ## The frames of an operation -/

/-- How many frames an instruction issues when they succeed (R202); where it issues its last one on a condition,
how many it issues in any case. -/
def Instr.frames : Instr → Nat
  | .toBCD _ | .fromBCD _ => 0
  | .wframe _ _ | .rframe _ _ | .probe | .writeBytes _ _ | .writeByte _ _ | .writeMemory _ _
  | .setAlarm _ _ _ _ _ | .setAlarm3 _ _ _ _ => 1
  | .readBytes _ _ | .readByte _ | .readMemory _ _ | .getTime | .pollAndClearAlarm _
  | .oscillatorStopped _ => 2
  | .setAlarmInterrupt _ _ | .setSquareWave _ => 3
  | .setTime _ _ _ _ _ _ _ | .readTemperature => 4

/-- `n` addresses from `addr` upward, modulo 256 (R63). -/
abbrev cellsFrom (addr : Byte) (n : Nat) : List Byte := (List.range n).map fun k => addr + BitVec.ofNat 8 k

/-- The cells an instruction may store to (R62, R69, R130, R133). -/
def Instr.targets : Instr → List Byte
  | .wframe _ [] => []
  | .wframe _ (addr :: data) => cellsFrom addr data.length
  | .writeBytes addr data | .writeMemory addr data => cellsFrom addr data.length
  | .writeByte addr _ => [addr]
  | .setTime _ _ _ _ _ _ _ => [0x00#8, 0x01#8, 0x02#8, 0x03#8, 0x04#8, 0x05#8, 0x06#8, 0x0F#8]
  | .setAlarm type _ _ _ _ | .setAlarm3 type _ _ _ =>
    if type.getLsbD 7 then [0x0B#8, 0x0C#8, 0x0D#8] else [0x07#8, 0x08#8, 0x09#8, 0x0A#8]
  | .setAlarmInterrupt _ _ | .setSquareWave _ => [0x0E#8]
  | .pollAndClearAlarm _ | .oscillatorStopped _ => [0x0F#8]
  | .rframe _ _ | .toBCD _ | .fromBCD _ | .readBytes _ _ | .readByte _ | .getTime | .readTemperature
  | .readMemory _ _ | .probe => []

/-- What a frame does at which width: a write frame at an address with so many payload bytes, the empty write
frame, or a read frame of so many bytes. -/
inductive FrameShape where
  | write (addr : Byte) (payload : Nat)
  | empty
  | read (count : Nat)
deriving DecidableEq, Repr

/-- The shape of a frame. -/
def Machine.Frame.shape : Machine.Frame → FrameShape
  | .write _ [] => .empty
  | .write _ (addr :: data) => .write addr data.length
  | .read _ count => .read count

/-- The widths the composite operations use, frame by frame: a read of `n` bytes at `addr` is a write frame that
carries the address alone, then a read frame of `n` (R69). -/
def Instr.widths? : Instr → Option (List FrameShape)
  | .getTime => some [.write 0x00#8 0, .read 7]
  | .setTime _ _ _ _ _ _ _ => some [.write 0x00#8 7, .write 0x0F#8 0, .read 1, .write 0x0F#8 1]
  | .setAlarm type _ _ _ _ | .setAlarm3 type _ _ _ =>
    some (if type.getLsbD 7 then [.write 0x0B#8 3] else [.write 0x07#8 4])
  | .setAlarmInterrupt _ _ | .setSquareWave _ => some [.write 0x0E#8 0, .read 1, .write 0x0E#8 1]
  | .pollAndClearAlarm _ | .oscillatorStopped _ => some [.write 0x0F#8 0, .read 1, .write 0x0F#8 1]
  | .readTemperature => some [.write 0x12#8 0, .read 1, .write 0x11#8 0, .read 1]
  | .wframe _ _ | .rframe _ _ | .toBCD _ | .fromBCD _ | .readBytes _ _ | .writeBytes _ _ | .readByte _
  | .writeByte _ _ | .readMemory _ _ | .writeMemory _ _ | .probe => none

end Sys2Proof
end

