-- ==== Sys2Proof/Certificates/Slice0/Obligations.lean ====
section
/-! DEFINITION. The statements for the provers. Each docstring names the rule of spec/ it formalises. Premises
about the environment are those of Safety.lean: `Ready n` says that the sequencer is idle, the next `n` frames
end with status 0 and the engine is quiet over them. Where a rule of spec/ rests on a decision the spec marks as its
own (spec/92_eei_decisions.md, D<n>), the docstring names it with the log entry that records it. `State.bus` and
`State.response`, which the statements read the frames and the answer from, are the model's form of the bus port and
the result port (R3; assumption 11): the frames of the latest instruction, and the latest answer. -/

open Sys2Proof Sys2Proof.Machine

/-! ## Encoding and stepping -/

/-- Words written out from R97, R99, R101 and R93 stand for the instructions they name. Spec decisions D2, D3
and D31: assumptions 16 and 21. -/
def Obligations.FamilyWordsDecode : Prop :=
  decode .command [0x00#8, 0x3B#8] = .ok (.toBCD 59#8) ∧
  decode .command [0x01#8, 0x59#8] = .ok (.fromBCD 0x59#8) ∧
  decode .command [0x03#8, 0x14#8, 0x02#8, 0xDE#8, 0xAD#8] = .ok (.writeBytes 0x14#8 [0xDE#8, 0xAD#8]) ∧
  decode .command [0x07#8, 0x1E#8, 0x0F#8, 0x08#8, 0x02#8, 0x1D#8, 0x02#8, 0x18#8]
    = .ok (.setTime 30#8 15#8 8#8 2#8 29#8 2#8 24#8) ∧
  decode .command [0x08#8, 0x08#8, 0x00#8, 0x1E#8, 0x07#8, 0x01#8] = .ok (.setAlarm 0x08#8 0#8 30#8 7#8 1#8) ∧
  decode .command [0x0C#8, 0x04#8] = .ok (.setSquareWave 4#8) ∧
  decode .command [0x0E#8] = .ok .readTemperature ∧
  decode .command [0x10#8, 0xFE#8, 0x03#8, 0x11#8, 0x22#8, 0x33#8]
    = .ok (.writeMemory 0xFE#8 [0x11#8, 0x22#8, 0x33#8]) ∧
  decode .bus [0xD0#8, 0x14#8, 0xDE#8, 0xAD#8] = .ok (.wframe 0x68#7 [0x14#8, 0xDE#8, 0xAD#8]) ∧
  decode .bus [0xD1#8, 0x02#8] = .ok (.rframe 0x68#7 0x02#8)

/-- Decoding an encoded well-formed instruction, on the port its word travels on, gives it back with every
operand (R91, R92, R96, R97, R99). Spec decisions D2 and D31: assumption 16. -/
def Obligations.DecodeOfEncodeIsIdentity : Prop :=
  ∀ i : Instr, i.wf = true → decode (encode i).1 (encode i).2 = .ok i

/-- Each word has one meaning: a word the decoder reads as `i` is the word of `i` (R96, R97, R99). Spec
decisions D2 and D31: assumption 16. -/
def Obligations.EncodeOfDecodeIsIdentity : Prop :=
  ∀ (p : Port) (bytes : List Byte) (i : Instr), decode p bytes = .ok i → encode i = (p, bytes)

/-- A command word with an opcode 0x12 to 0xFF, or of a length other than its opcode's, is refused with no frame
and no change (R97, R99, R104 (a), (b)). Spec decisions D2 and D16: assumptions 16 and 19. -/
def Obligations.ReservedOpcodeOrLengthRefused : Prop :=
  ∀ (s : State) (opcode : Byte) (args : List Byte) (rest : List Input),
    s.inbox = .word .command (opcode :: args) :: rest →
    (0x12 ≤ opcode.toNat → step s = .refused (.reservedOpcode opcode)) ∧
    (∀ n, commandLength opcode.toNat (args.getD 1 0x00#8).toNat = some n → (opcode :: args).length ≠ n →
      step s = .refused .wrongLength)

/-- A step takes the next word from its port, and is `exec` of the instruction the word decodes to; nothing else
happens around it (R73, R76, R96). Spec decisions D1 and D34: assumptions 5 and 18. -/
def Obligations.StepRunsDecodedInstruction : Prop :=
  ∀ (s : State) (p : Port) (bytes : List Byte) (rest : List Input) (i : Instr),
    s.inbox = .word p bytes :: rest → decode p bytes = .ok i →
    step s = exec i { s with inbox := rest }

/-- A restart of the host side leaves `REG` and `PTR` alone, sets `LASTERR` to 0 and leaves the sequencer idle
with no frame pending (R231). Spec decision D22: assumptions 2 and 13. -/
def Obligations.HostResetKeepsTheDevice : Prop :=
  ∀ (s : State) (rest : List Input), s.inbox = .hostReset :: rest →
    ∃ t, step s = .next t ∧ t.reg = s.reg ∧ t.ptr = s.ptr ∧ t.lastErr = 0x00#8 ∧ t.seq = .idle ∧
      t.pending = none ∧ t.received = [] ∧ t.params = s.params ∧ t.inbox = rest

/-! ## Reset and invariants -/

/-- After reset the sequencer is idle, no frame is pending, `LASTERR = 0`, and every cell of `REG` and `PTR`
holds a value nothing is known of (R51, R230). Spec decisions D10, D21 and D22: assumptions 2 and 3. -/
def Obligations.ResetLeavesTheDeviceUnspecified : Prop :=
  State.reset.seq = .idle ∧ State.reset.pending = none ∧ State.reset.received = [] ∧
  State.reset.lastErr = 0x00#8 ∧ (∀ a : Byte, State.reset.reg.read a = Config.powerOnByte a.toNat) ∧
  State.reset.ptr = Config.powerOnPtr ∧ State.reset.PlainStorage

/-- The invariant holds after reset: the base case of `EveryStepKeepsTheInvariant`. The sequencer is idle with no
frame pending (R51, R230); that the received bytes, the result port and the bus record are empty then is the
model's choice (spec decision D22, assumptions 2 and 11), and the clauses on the two ports hold for that reason. -/
def Obligations.ResetMeetsTheInvariant : Prop := State.reset.Inv

/-- Every step keeps the invariant: buffers empty while idle (R25), at most four frames an operation, each
within the transfer limits (R68, R202), nothing after a frame that failed or hung (R200, R206), and a failure's
code in `LASTERR` (R24). That the transport's buffers and the bus port's record are state is the model's:
assumptions 5 and 11. -/
def Obligations.EveryStepKeepsTheInvariant : Prop :=
  ∀ s t : State, s.Inv → step s = .next t → t.Inv

/-- No step changes the reserved cell or an open parameter (R11, R46). Spec decision D8: assumptions 1 and 10. -/
def Obligations.EveryStepKeepsReservedCellAndParameters : Prop :=
  ∀ s t : State, step s = .next t →
    t.reg.read 0x13#8 = s.reg.read 0x13#8 ∧ t.params = s.params

/-- Register bits that are not the engine's change by bus writes alone, whatever the environment answers, a frame
that fails or never returns and an engine that acts between two frames among it: an instruction that stores
nothing leaves them all, and one that stores leaves them all outside the cells it stores to (R50, R70, R208). Spec
decision D11: assumption 1. -/
def Obligations.OnlyStoresChangeUnownedBits : Prop :=
  ∀ (i : Instr) (s t : State), exec i s = .next t →
    (i.storesNothing = true →
      (∀ a : Byte, t.reg.read a &&& ~~~(engineMask a) = s.reg.read a &&& ~~~(engineMask a)) ∧
      (s.params.engine = .static → t.reg = s.reg)) ∧
    (∀ a : Byte, a ∉ i.targets →
      t.reg.read a &&& ~~~(engineMask a) = s.reg.read a &&& ~~~(engineMask a) ∧
      (s.params.engine = .static → t.reg.read a = s.reg.read a))

/-- `LASTERR` is read by no operation: two states that differ in it alone give the same refusal, or next states
that differ in it at most (R24). Spec decision D21: assumption 11. -/
def Obligations.LastErrIsReadByNothing : Prop :=
  ∀ (i : Instr) (s : State) (x : Byte),
    (∃ r, exec i s = .refused r ∧ exec i { s with lastErr := x } = .refused r) ∨
    (∃ t u, exec i s = .next t ∧ exec i { s with lastErr := x } = .next u ∧
      { u with lastErr := t.lastErr } = t)

/-- No command relies on where `PTR` stood: two states that differ in it alone give the same refusal, or next
states that differ in it at most (R23, R209). Spec decision D9: assumption 22. -/
def Obligations.CommandsDoNotRelyOnPtr : Prop :=
  ∀ (i : Instr) (s : State) (p : Byte), i.isCommand = true →
    (∃ r, exec i s = .refused r ∧ exec i { s with ptr := p } = .refused r) ∨
    (∃ t u, exec i s = .next t ∧ exec i { s with ptr := p } = .next u ∧ { u with ptr := t.ptr } = t)

/-- Every admitted instruction, issued to an idle sequencer, is taken up and answers a next state, in every
environment; one outside its domain is refused, and while the sequencer is stuck every one is (R104 (c), (d),
R203, R207). Spec decisions D16 and D25: assumptions 15 and 19. The next state is no end of the operation where a
transport call never returns: that the model answers one then, with the sequencer stuck, is its choice (R220, spec
decision D24, assumption 8). -/
def Obligations.AdmittedInstructionsAreTakenUp : Prop :=
  ∀ (i : Instr) (s : State),
    (s.seq = .idle → i.wf = true → ∃ t, exec i s = .next t) ∧
    (s.seq = .idle → i.wf = false → exec i s = .refused .operandOutOfDomain) ∧
    (s.seq = .hung → exec i s = .refused .commandWhileBusy)

/-! ## The engine -/

/-- The engine-owned bits are those of 0x00 to 0x06, control bit 5, status bits 7, 2, 1, 0, and those of 0x11
and 0x12; under `ENGINE = static` the engine changes nothing, under `ENGINE = free` it may give those bits any
values, and changes nothing else of the device (R50). Spec decision D11: assumption 1. That this holds while the
sequencer is stuck as well is the model's choice: assumption 29. -/
def Obligations.EngineChangesExactlyItsOwnBits : Prop :=
  (∀ a : Byte, engineMask a =
    if a.toNat ≤ 0x06 then 0xFF#8 else if a = 0x0E#8 then 0x20#8 else if a = 0x0F#8 then 0x87#8
    else if a = 0x11#8 ∨ a = 0x12#8 then 0xFF#8 else 0x00#8) ∧
  (∀ (s : State) (ws : List EngineWrite) (rest : List Input), s.inbox = .engine ws :: rest →
    ∃ t, step s = .next t ∧ t = { s with reg := t.reg, inbox := rest } ∧
      (∀ a : Byte, t.reg.read a &&& ~~~(engineMask a) = s.reg.read a &&& ~~~(engineMask a)) ∧
      (s.params.engine = .static → t.reg = s.reg)) ∧
  (∀ (s : State) (target : RegFile) (rest : List Input), s.params.engine = .free →
    (∀ a : Byte, target.read a &&& ~~~(engineMask a) = s.reg.read a &&& ~~~(engineMask a)) →
    ∃ ws, step { s with inbox := .engine ws :: rest } = .next { s with reg := target, inbox := rest })

/-! ## Frames -/

/-- A write frame that succeeds: the first byte loads `PTR`; each later byte is stored where `PTR` stands,
through `WMASK`, discarded at 0x13, and advances it modulo 256; the empty frame changes nothing; nothing
else of the device changes (R21, R46, R130). Spec decisions D8, D9 and D10: assumptions 3, 10 and 22. That a bare
frame is no operation, so that `LASTERR` (R24) and the result port stay, is the model's choice: assumption 11. -/
def Obligations.WriteFrameLoadsPtrAndStores : Prop :=
  ∀ (s : State), s.Ready 1 →
    (∃ t, exec (.wframe s.params.devAddr []) s = .next t ∧ t.reg = s.reg ∧ t.ptr = s.ptr ∧
      t.lastErr = s.lastErr ∧ t.response = s.response ∧ t.draws = s.draws ∧
      t.bus = [wroteFrame s.params.devAddr []] ∧ s.AfterFrames t 1) ∧
    (∀ (addr : Byte) (data : List Byte), data.length ≤ 31 →
      ∃ t, exec (.wframe s.params.devAddr (addr :: data)) s = .next t ∧
        (∀ (k : Nat) (hk : k < data.length), addr + BitVec.ofNat 8 k ≠ 0x13#8 →
          t.reg.read (addr + BitVec.ofNat 8 k) = s.stored (addr + BitVec.ofNat 8 k) data[k]) ∧
        t.reg.read 0x13#8 = s.reg.read 0x13#8 ∧
        s.KeepsCellsBut t ((List.range data.length).map fun k => addr + BitVec.ofNat 8 k) ∧
        t.ptr = addr + BitVec.ofNat 8 data.length ∧
        t.lastErr = s.lastErr ∧ t.response = s.response ∧ t.draws = s.draws ∧
        t.bus = [wroteFrame s.params.devAddr (addr :: data)] ∧ s.AfterFrames t 1)

/-- A read frame that succeeds returns the cells from `PTR` upward, modulo 256, the byte at 0x13 being no cell's
to say; it advances `PTR` past them and changes no cell (R46, R70, R131). Spec decisions D8 and D9: assumptions
10 and 22. That a bare frame is no operation, so that `LASTERR` (R24) and the result port stay, is the model's
choice: assumption 11. -/
def Obligations.ReadFrameReturnsCellsFromPtr : Prop :=
  ∀ (s : State) (count : Byte), 1 ≤ count.toNat → count.toNat ≤ 32 → s.Ready 1 →
    ∃ t data, exec (.rframe s.params.devAddr count) s = .next t ∧
      t.bus = [readFrame s.params.devAddr data] ∧ data.length = count.toNat ∧
      (∀ k, k < count.toNat → s.ptr + BitVec.ofNat 8 k ≠ 0x13#8 →
        data[k]? = some (s.reg.read (s.ptr + BitVec.ofNat 8 k))) ∧
      t.ptr = s.ptr + count ∧ t.reg = s.reg ∧ t.lastErr = s.lastErr ∧ t.response = s.response ∧
      ((∀ k, k < count.toNat → s.ptr + BitVec.ofNat 8 k ≠ 0x13#8) → t.draws = s.draws) ∧ s.AfterFrames t 1

/-- A write frame that ends with a nonzero status has been applied in part: some first `k` of its bytes reached
the slave, `k` whatever the environment says, up to the frame's length; of the empty frame none did (R138). Spec
decision D13: assumption 7. That a bare frame is no operation, so that `LASTERR` (R24) and the result port stay
when it fails too, is the model's choice: assumption 11. -/
def Obligations.FailedWriteFrameAppliesSomePart : Prop :=
  ∀ (s : State) (c : Byte), s.seq = .idle → s.EngineQuiet 1 → c ≠ 0x00#8 → (s.answerAt 0).status = some c →
    (∃ t, exec (.wframe s.params.devAddr []) s = .next t ∧ t.reg = s.reg ∧ t.ptr = s.ptr ∧
      t.lastErr = s.lastErr ∧ t.response = s.response ∧
      t.bus = [⟨.write s.params.devAddr [], some c, []⟩] ∧ s.AfterFrames t 1) ∧
    (∀ (addr : Byte) (data : List Byte), data.length ≤ 31 →
      ∃ t k, exec (.wframe s.params.devAddr (addr :: data)) s = .next t ∧ k ≤ data.length + 1 ∧
        k = min (s.answerAt 0).applied (data.length + 1) ∧
        (∀ (j : Nat) (hj : j < data.length), j + 1 < k → addr + BitVec.ofNat 8 j ≠ 0x13#8 →
          t.reg.read (addr + BitVec.ofNat 8 j) = s.stored (addr + BitVec.ofNat 8 j) data[j]) ∧
        t.reg.read 0x13#8 = s.reg.read 0x13#8 ∧
        s.KeepsCellsBut t (cellsFrom addr (k - 1)) ∧
        (k = 0 → t.ptr = s.ptr) ∧ (0 < k → t.ptr = addr + BitVec.ofNat 8 (k - 1)) ∧
        t.lastErr = s.lastErr ∧ t.response = s.response ∧
        t.bus = [⟨.write s.params.devAddr (addr :: data), some c, []⟩] ∧ s.AfterFrames t 1)

/-- A read frame that ends with a nonzero status moves `PTR` by some number of bytes up to `count`, changes no
cell, and returns `count` bytes nothing is said of (R138). Spec decision D13: assumption 7. That a bare frame is no
operation, so that `LASTERR` (R24) and the result port stay when it fails too, is the model's choice: assumption 11. -/
def Obligations.FailedReadFrameMovesPtrInPart : Prop :=
  ∀ (s : State) (count c : Byte), 1 ≤ count.toNat → count.toNat ≤ 32 → s.seq = .idle → s.EngineQuiet 1 →
    c ≠ 0x00#8 → (s.answerAt 0).status = some c →
    ∃ t data, exec (.rframe s.params.devAddr count) s = .next t ∧ t.reg = s.reg ∧
      t.ptr = s.ptr + BitVec.ofNat 8 (min (s.answerAt 0).applied count.toNat) ∧
      data.length = count.toNat ∧ t.bus = [⟨.read s.params.devAddr count.toNat, some c, data⟩] ∧
      t.lastErr = s.lastErr ∧ t.response = s.response ∧ s.AfterFrames t 1

/-- A frame for another device changes neither `REG` nor `PTR`, whatever status it ends with (R139). Spec
decision D35: assumption 14. That a bare frame is no operation, so that `LASTERR` (R24) and the result port stay
whatever its status, is the model's choice: assumption 11. -/
def Obligations.FramesForOtherDevicesAreIgnored : Prop :=
  ∀ (s : State) (dev : DevAddr) (i : Instr), s.seq = .idle → s.EngineQuiet 1 → dev ≠ s.params.devAddr →
    i.wf = true → (∃ bytes, i = .wframe dev bytes) ∨ (∃ count, i = .rframe dev count) →
    ∃ t, exec i s = .next t ∧ t.reg = s.reg ∧ t.ptr = s.ptr ∧ t.lastErr = s.lastErr ∧ t.response = s.response

/-! ## The codec -/

/-- `toBCD(n)`, the command word `0x00, n`: for `n` 0 to 99 it answers `n + 6 * (n / 10)`, tens in the high nibble
and ones in the low one, with status 0, and touches nothing else, `LASTERR` not either; a larger `n` is refused
(R120). Spec decisions D2, D16 and D28: assumptions 16, 19 and 28. The record of frames, empty after it, is the
model's own: assumption 11. -/
def Obligations.ToBcdPacksTwoDigits : Prop :=
  ∀ (s : State) (n : Byte), s.seq = .idle → decode .command [0x00#8, n] = .ok (.toBCD n) ∧
    (n.toNat ≤ 99 → (packed n).toNat = n.toNat + 6 * (n.toNat / 10) ∧
      exec (.toBCD n) s = .next { s with bus := [], response := some ⟨0x00#8, .byte (packed n)⟩ }) ∧
    (99 < n.toNat → exec (.toBCD n) s = .refused .operandOutOfDomain)

/-- `fromBCD(b)` answers `10 * b[7:4] + b[3:0]` for every byte, with status 0, and touches nothing else (R121).
Spec decision D28: assumption 28. The record of frames, empty after it, is the model's own: assumption 11. -/
def Obligations.FromBcdUnpacksEveryByte : Prop :=
  ∀ (s : State) (b : Byte), s.seq = .idle →
    exec (.fromBCD b) s = .next { s with bus := [], response := some ⟨0x00#8, .byte (unpacked b)⟩ }

/-- `fromBCD(toBCD(n)) = n` for `n` 0 to 99; `toBCD(fromBCD(b)) = b` exactly when both nibbles are at most 9,
where `toBCD` has a value (R122). The converse is the spec's own derivation from R120 and R121. -/
def Obligations.BcdRoundTrip : Prop :=
  (∀ n : Byte, n.toNat ≤ 99 → fromBcd (toBcd n) = n) ∧
  (∀ b : Byte, ((fromBcd b).toNat ≤ 99 ∧ toBcd (fromBcd b) = b) ↔ (b.toNat / 16 ≤ 9 ∧ b.toNat % 16 ≤ 9))

/-- Within a BCD byte the tens digit is the high nibble and the ones digit the low nibble: so `toBCD` packs a number
of two digits, and so `fromBCD` reads a byte of two digits (R64). -/
def Obligations.BcdByteHoldsTensHighOnesLow : Prop :=
  (∀ (s : State) (n : Byte), s.seq = .idle → n.toNat ≤ 99 →
    ∃ t b, exec (.toBCD n) s = .next t ∧ t.response = some ⟨0x00#8, .byte b⟩ ∧
      (b.extractLsb' 4 4).toNat = n.toNat / 10 ∧ (b.extractLsb' 0 4).toNat = n.toNat % 10) ∧
  (∀ (s : State) (b : Byte), s.seq = .idle → (b.extractLsb' 4 4).toNat ≤ 9 → (b.extractLsb' 0 4).toNat ≤ 9 →
    ∃ t n, exec (.fromBCD b) s = .next t ∧ t.response = some ⟨0x00#8, .byte n⟩ ∧
      n.toNat / 10 = (b.extractLsb' 4 4).toNat ∧ n.toNat % 10 = (b.extractLsb' 0 4).toNat)

/-! ## Register and memory access -/

/-- `readBytes` and `readMemory` return the cells `addr`, `addr + 1`, ... modulo 256, through an address frame
and a read frame; `PTR` ends behind them and no cell changes (R46, R63, R132, R195). Spec decisions D8, D9 and
D33: assumptions 10, 22 and 28. -/
def Obligations.ReadBytesReturnsCells : Prop :=
  ∀ (s : State) (addr count : Byte) (i : Instr), i = .readBytes addr count ∨ i = .readMemory addr count →
    1 ≤ count.toNat → count.toNat ≤ 32 → s.Ready 2 →
    ∃ t data, exec i s = .next t ∧ t.response = some ⟨0x00#8, .bytes data⟩ ∧ data.length = count.toNat ∧
      (∀ k, k < count.toNat → addr + BitVec.ofNat 8 k ≠ 0x13#8 →
        data[k]? = some (s.reg.read (addr + BitVec.ofNat 8 k))) ∧
      t.reg = s.reg ∧ t.ptr = addr + count ∧ t.lastErr = 0x00#8 ∧
      t.bus = [wroteFrame s.params.devAddr [addr], readFrame s.params.devAddr data] ∧
      ((∀ k, k < count.toNat → addr + BitVec.ofNat 8 k ≠ 0x13#8) → t.draws = s.draws) ∧ s.AfterFrames t 2

/-- `readByte(addr)` returns the cell, at 0x13 a byte no cell says (R46, R134). Spec decisions D8 and D9:
assumptions 10 and 22. -/
def Obligations.ReadByteReturnsTheCell : Prop :=
  ∀ (s : State) (addr : Byte), s.Ready 2 →
    ∃ t v, exec (.readByte addr) s = .next t ∧ t.response = some ⟨0x00#8, .byte v⟩ ∧
      (addr ≠ 0x13#8 → v = s.reg.read addr ∧ t.draws = s.draws) ∧
      t.reg = s.reg ∧ t.ptr = addr + 1#8 ∧ t.lastErr = 0x00#8 ∧
      t.bus = [wroteFrame s.params.devAddr [addr], readFrame s.params.devAddr [v]] ∧ s.AfterFrames t 2

/-- `writeBytes`, `writeMemory` and `writeByte` store their payload at `addr`, `addr + 1`, ... modulo 256,
through `WMASK`, nothing at 0x13, in one frame; `PTR` ends behind it; every other cell is as it was (R21, R46,
R63, R133, R135, R196). Spec decisions D8, D9, D10 and D33: assumptions 3, 10, 22 and 28. -/
def Obligations.WriteBytesStoresThePayload : Prop :=
  ∀ (s : State) (addr : Byte) (data : List Byte) (i : Instr),
    i = .writeBytes addr data ∨ i = .writeMemory addr data ∨ (∃ v, data = [v] ∧ i = .writeByte addr v) →
    data.length ≤ 31 → s.Ready 1 →
    ∃ t, exec i s = .next t ∧ t.response = some ⟨0x00#8, .none⟩ ∧
      (∀ (k : Nat) (hk : k < data.length), addr + BitVec.ofNat 8 k ≠ 0x13#8 →
        t.reg.read (addr + BitVec.ofNat 8 k) = s.stored (addr + BitVec.ofNat 8 k) data[k]) ∧
      t.reg.read 0x13#8 = s.reg.read 0x13#8 ∧
      s.KeepsCellsBut t ((List.range data.length).map fun k => addr + BitVec.ofNat 8 k) ∧
      t.ptr = addr + BitVec.ofNat 8 data.length ∧ t.lastErr = 0x00#8 ∧ t.draws = s.draws ∧
      t.bus = [wroteFrame s.params.devAddr (addr :: data)] ∧ s.AfterFrames t 1

/-- Under the default `WMASK` a written byte is read back unchanged, anywhere but at 0x13 (R21, R47). Spec
decision D10: assumption 3. -/
def Obligations.WrittenBytesReadBack : Prop :=
  ∀ (s : State) (addr v : Byte), s.Ready 3 → s.PlainStorage → addr ≠ 0x13#8 →
    ∃ t u, exec (.writeByte addr v) s = .next t ∧ exec (.readByte addr) t = .next u ∧
      u.response = some ⟨0x00#8, .byte v⟩

/-- `probe()`, the command word `0x11`: it issues one empty write frame and changes neither `REG` nor `PTR`,
whatever the status, which is its answer (R136). Spec decisions D2 and D24: assumptions 8 and 16. -/
def Obligations.ProbeChangesNoRegister : Prop :=
  ∀ s : State, s.seq = .idle → s.EngineQuiet 1 → decode .command [0x11#8] = .ok .probe ∧
    ∃ t, exec .probe s = .next t ∧ t.reg = s.reg ∧ t.ptr = s.ptr ∧ t.draws = s.draws ∧
      t.bus = [⟨.write s.params.devAddr [], (s.answerAt 0).status, []⟩] ∧
      (∀ c, (s.answerAt 0).status = some c →
        t.lastErr = c ∧ t.response = some ⟨c, .none⟩ ∧ s.AfterFrames t 1) ∧
      ((s.answerAt 0).status = none → t.seq = .hung ∧ t.lastErr = s.lastErr ∧ t.response = s.response)

/-- The pseudo-operations are what they expand to, in every state and environment: `readByte` is `readBytes` of one
byte, the same frames and the same state but for the type of the result, and the others are their expansions
outright; each has its own opcode (R108, R97). Spec decisions D2, D25 and D27: assumptions 15, 16 and 28. -/
def Obligations.PseudoOperationsExpand : Prop :=
  ∀ (s : State) (addr count v type minutes hours dayOrDate : Byte) (data : List Byte),
    ((s.seq = .hung ∧ exec (.readByte addr) s = .refused .commandWhileBusy ∧
        exec (.readBytes addr 1#8) s = .refused .commandWhileBusy) ∨
     (∃ t u, exec (.readByte addr) s = .next t ∧ exec (.readBytes addr 1#8) s = .next u ∧
        { u with response := t.response } = t ∧
        (t.seq = .idle → ∃ c d, u.response = some ⟨c, .bytes [d]⟩ ∧ t.response = some ⟨c, .byte d⟩) ∧
        (t.seq = .hung → u.response = t.response))) ∧
    decode .command [0x04#8, addr] = .ok (.readByte addr) ∧
    decode .command [0x05#8, addr, v] = .ok (.writeByte addr v) ∧
    decode .command [0x09#8, type, minutes, hours, dayOrDate] = .ok (.setAlarm3 type minutes hours dayOrDate) ∧
    decode .command [0x0F#8, addr, count] = .ok (.readMemory addr count) ∧
    (data.length ≤ 31 → decode .command (0x10#8 :: addr :: BitVec.ofNat 8 data.length :: data)
      = .ok (.writeMemory addr data)) ∧
    exec (.readMemory addr count) s = exec (.readBytes addr count) s ∧
    exec (.writeMemory addr data) s = exec (.writeBytes addr data) s ∧
    exec (.writeByte addr v) s = exec (.writeBytes addr [v]) s ∧
    exec (.setAlarm3 type minutes hours dayOrDate) s = exec (.setAlarm type 0#8 minutes hours dayOrDate) s

/-! ## Time -/

/-- `getTime` decodes the seven clock cells: BCD but for the weekday, with the clock-halt bit (seconds bit 7),
the 12/24-hour bit (hours bit 6) and the century bit (month bit 7) masked out; no cell changes (R151). Spec
decisions D6 and D7: assumption 20. -/
def Obligations.GetTimeDecodesTheClock : Prop :=
  ∀ s : State, s.Ready 2 →
    ∃ t, exec .getTime s = .next t ∧
      t.response = some ⟨0x00#8, .time
        { seconds := unpacked (s.reg.read 0x00#8 &&& 0x7F#8)
          minutes := unpacked (s.reg.read 0x01#8)
          hours   := unpacked (s.reg.read 0x02#8 &&& 0xBF#8)
          weekday := s.reg.read 0x03#8
          date    := unpacked (s.reg.read 0x04#8)
          month   := unpacked (s.reg.read 0x05#8 &&& 0x7F#8)
          year    := unpacked (s.reg.read 0x06#8) }⟩ ∧
      t.reg = s.reg ∧ t.ptr = 0x07#8 ∧ t.lastErr = 0x00#8 ∧ t.draws = s.draws ∧
      t.bus = [wroteFrame s.params.devAddr [0x00#8], readFrame s.params.devAddr
        [s.reg.read 0x00#8, s.reg.read 0x01#8, s.reg.read 0x02#8, s.reg.read 0x03#8, s.reg.read 0x04#8,
         s.reg.read 0x05#8, s.reg.read 0x06#8]] ∧ s.AfterFrames t 2

/-- The seven clock bytes of a time: BCD but for the weekday (R152). -/
def clockBytes (seconds minutes hours weekday date month year : Byte) : List Byte :=
  [packed seconds, packed minutes, packed hours, weekday, packed date, packed month, packed year]

/-- `setTime` writes the seven clock cells in one frame, then reads the status byte and always writes it back
with OSF cleared; every other cell is as it was (R152). Spec decisions D10 and D19: assumptions 3 and 23. -/
def Obligations.SetTimeWritesClockAndClearsOsf : Prop :=
  ∀ (s : State) (seconds minutes hours weekday date month year : Byte),
    (Instr.setTime seconds minutes hours weekday date month year).wf = true → s.Ready 4 →
    ∃ t, exec (.setTime seconds minutes hours weekday date month year) s = .next t ∧
      t.reg.read 0x00#8 = s.stored 0x00#8 (packed seconds) ∧
      t.reg.read 0x01#8 = s.stored 0x01#8 (packed minutes) ∧
      t.reg.read 0x02#8 = s.stored 0x02#8 (packed hours) ∧
      t.reg.read 0x03#8 = s.stored 0x03#8 weekday ∧
      t.reg.read 0x04#8 = s.stored 0x04#8 (packed date) ∧
      t.reg.read 0x05#8 = s.stored 0x05#8 (packed month) ∧
      t.reg.read 0x06#8 = s.stored 0x06#8 (packed year) ∧
      t.reg.read 0x0F#8 = s.stored 0x0F#8 (s.reg.read 0x0F#8 &&& 0x7F#8) ∧
      s.KeepsCellsBut t [0x00#8, 0x01#8, 0x02#8, 0x03#8, 0x04#8, 0x05#8, 0x06#8, 0x0F#8] ∧
      t.ptr = 0x10#8 ∧ t.lastErr = 0x00#8 ∧ t.response = some ⟨0x00#8, .none⟩ ∧ t.draws = s.draws ∧
      t.bus = [wroteFrame s.params.devAddr
          (0x00#8 :: clockBytes seconds minutes hours weekday date month year),
        wroteFrame s.params.devAddr [0x0F#8], readFrame s.params.devAddr [s.reg.read 0x0F#8],
        wroteFrame s.params.devAddr [0x0F#8, s.reg.read 0x0F#8 &&& 0x7F#8]] ∧ s.AfterFrames t 4

/-- A time that was set comes back from `getTime`, the weekday too, even if bit 6 of the hours register is set
by a raw write in between; and after `setTime` OSF is 0 with every other status bit as it was, under the
default `WMASK` (R153). The position of that bit is spec decision D6, plain storage D10: assumptions 3 and 20. -/
def Obligations.TimeRoundTrip : Prop :=
  ∀ (s : State) (seconds minutes hours weekday date month year : Byte),
    (Instr.setTime seconds minutes hours weekday date month year).wf = true → s.Ready 7 → s.PlainStorage →
    ∃ t u, exec (.setTime seconds minutes hours weekday date month year) s = .next t ∧
      t.reg.read 0x0F#8 = s.reg.read 0x0F#8 &&& 0x7F#8 ∧
      exec .getTime t = .next u ∧
      u.response = some ⟨0x00#8, .time ⟨seconds, minutes, hours, weekday, date, month, year⟩⟩ ∧
      ∃ v w, exec (.writeByte 0x02#8 (t.reg.read 0x02#8 ||| 0x40#8)) t = .next v ∧ exec .getTime v = .next w ∧
        w.response = some ⟨0x00#8, .time ⟨seconds, minutes, hours, weekday, date, month, year⟩⟩

/-! ## Alarms -/

/-- The alarm's mask and day/date bits as its code carries them: bit 7 channel, bit 4 `DYDT`, bits 3 to 0
`M4 M3 M2 M1` (R101), each shifted to where the alarm byte has it. -/
def codeBit (type : AlarmType) (k position : Nat) : Byte :=
  (if type.code.getLsbD k then 1#8 else 0#8) <<< position

/-- `setAlarm` with an Alarm1 type writes the four cells 0x07 to 0x0A in one frame, each the BCD of its field
with the type's mask bit in bit 7, the day/date byte with `DYDT` in bit 6; `setAlarm3` the same with seconds 0.
No other cell changes (R163, R164). Spec decisions D3, D10 and D27: assumptions 3 and 21. -/
def Obligations.SetAlarm1WritesItsBlock : Prop :=
  ∀ (s : State) (type : AlarmType) (seconds minutes hours dayOrDate : Byte) (i : Instr),
    i = .setAlarm type.code seconds minutes hours dayOrDate ∨
      (seconds = 0#8 ∧ i = .setAlarm3 type.code minutes hours dayOrDate) →
    type.code.getLsbD 7 = false → i.wf = true → s.Ready 1 →
    let b0 := packed seconds ||| codeBit type 0 7
    let b1 := packed minutes ||| codeBit type 1 7
    let b2 := packed hours ||| codeBit type 2 7
    let b3 := packed dayOrDate ||| codeBit type 4 6 ||| codeBit type 3 7
    ∃ t, exec i s = .next t ∧
      t.reg.read 0x07#8 = s.stored 0x07#8 b0 ∧ t.reg.read 0x08#8 = s.stored 0x08#8 b1 ∧
      t.reg.read 0x09#8 = s.stored 0x09#8 b2 ∧ t.reg.read 0x0A#8 = s.stored 0x0A#8 b3 ∧
      s.KeepsCellsBut t [0x07#8, 0x08#8, 0x09#8, 0x0A#8] ∧
      t.ptr = 0x0B#8 ∧ t.lastErr = 0x00#8 ∧ t.response = some ⟨0x00#8, .none⟩ ∧ t.draws = s.draws ∧
      t.bus = [wroteFrame s.params.devAddr [0x07#8, b0, b1, b2, b3]] ∧ s.AfterFrames t 1

/-- `setAlarm` with an Alarm2 type writes the three cells 0x0B to 0x0D in one frame and discards the seconds,
whatever byte they are; `setAlarm3` does the same. No other cell changes (R163, R164). Spec decisions D3, D10,
D27 and D29: assumptions 3, 21 and 28. -/
def Obligations.SetAlarm2WritesItsBlock : Prop :=
  ∀ (s : State) (type : AlarmType) (seconds minutes hours dayOrDate : Byte) (i : Instr),
    i = .setAlarm type.code seconds minutes hours dayOrDate ∨
      i = .setAlarm3 type.code minutes hours dayOrDate →
    type.code.getLsbD 7 = true → i.wf = true → s.Ready 1 →
    let b1 := packed minutes ||| codeBit type 1 7
    let b2 := packed hours ||| codeBit type 2 7
    let b3 := packed dayOrDate ||| codeBit type 4 6 ||| codeBit type 3 7
    ∃ t, exec i s = .next t ∧
      t.reg.read 0x0B#8 = s.stored 0x0B#8 b1 ∧ t.reg.read 0x0C#8 = s.stored 0x0C#8 b2 ∧
      t.reg.read 0x0D#8 = s.stored 0x0D#8 b3 ∧ s.KeepsCellsBut t [0x0B#8, 0x0C#8, 0x0D#8] ∧
      t.ptr = 0x0E#8 ∧ t.lastErr = 0x00#8 ∧ t.response = some ⟨0x00#8, .none⟩ ∧ t.draws = s.draws ∧
      t.bus = [wroteFrame s.params.devAddr [0x0B#8, b1, b2, b3]] ∧ s.AfterFrames t 1

/-- The rows of R161: variant, `M1` (unused for Alarm2), `M2`, `M3`, `M4`, `DYDT`. -/
def alarmRows : List (AlarmType × Bool × Bool × Bool × Bool × Bool) :=
  [(.a1EverySecond, true, true, true, true, false),
   (.a1MatchSeconds, false, true, true, true, false),
   (.a1MatchMinutes, false, false, true, true, false),
   (.a1MatchHours, false, false, false, true, false),
   (.a1MatchDate, false, false, false, false, false),
   (.a1MatchDay, false, false, false, false, true),
   (.a2EveryMinute, false, true, true, true, false),
   (.a2MatchMinutes, false, false, true, true, false),
   (.a2MatchHours, false, false, false, true, false),
   (.a2MatchDate, false, false, false, false, false),
   (.a2MatchDay, false, false, false, false, true)]

/-- For each of the eleven variants `setAlarm` leaves the mask and day/date bits of its row in the block it
writes, under the default `WMASK` (R161, R167). Spec decisions D3 and D4: assumption 21. -/
def Obligations.AlarmMaskBitsFollowTheTable : Prop :=
  ∀ (s : State) (row : AlarmType × Bool × Bool × Bool × Bool × Bool) (seconds minutes hours dayOrDate : Byte),
    row ∈ alarmRows → (Instr.setAlarm row.1.code seconds minutes hours dayOrDate).wf = true → s.Ready 1 →
    s.PlainStorage →
    ∃ t, exec (.setAlarm row.1.code seconds minutes hours dayOrDate) s = .next t ∧
      (row.1.isAlarm1 = true →
        (t.reg.read 0x07#8).getLsbD 7 = row.2.1 ∧ (t.reg.read 0x08#8).getLsbD 7 = row.2.2.1 ∧
        (t.reg.read 0x09#8).getLsbD 7 = row.2.2.2.1 ∧ (t.reg.read 0x0A#8).getLsbD 7 = row.2.2.2.2.1 ∧
        (t.reg.read 0x0A#8).getLsbD 6 = row.2.2.2.2.2) ∧
      (row.1.isAlarm1 = false →
        (t.reg.read 0x0B#8).getLsbD 7 = row.2.2.1 ∧ (t.reg.read 0x0C#8).getLsbD 7 = row.2.2.2.1 ∧
        (t.reg.read 0x0D#8).getLsbD 7 = row.2.2.2.2.1 ∧ (t.reg.read 0x0D#8).getLsbD 6 = row.2.2.2.2.2)

/-- `setAlarmInterrupt` reads the control byte, gives the channel's bit (`1 << (channel - 1)`) the value of
`enabled`, and always writes the byte back; nothing else of `REG` changes (R165). Spec decisions D10 and D30:
assumptions 3 and 28. -/
def Obligations.SetAlarmInterruptWritesEnableBit : Prop :=
  ∀ (s : State) (channel enabled : Byte), channel = 1#8 ∨ channel = 2#8 → enabled = 0#8 ∨ enabled = 1#8 →
    s.Ready 3 →
    let c := s.reg.read 0x0E#8
    let bit : Byte := if channel = 1#8 then 0x01#8 else 0x02#8
    let c2 := if enabled = 1#8 then c ||| bit else c &&& ~~~bit
    ∃ t, exec (.setAlarmInterrupt channel enabled) s = .next t ∧
      t.reg.read 0x0E#8 = s.stored 0x0E#8 c2 ∧ s.KeepsCellsBut t [0x0E#8] ∧
      t.ptr = 0x0F#8 ∧ t.lastErr = 0x00#8 ∧ t.response = some ⟨0x00#8, .none⟩ ∧ t.draws = s.draws ∧
      t.bus = [wroteFrame s.params.devAddr [0x0E#8], readFrame s.params.devAddr [c],
        wroteFrame s.params.devAddr [0x0E#8, c2]] ∧ s.AfterFrames t 3

/-- `pollAndClearAlarm`: with the channel's flag set, the status byte is written back with exactly that bit
cleared and the answer is true; with it clear, no write frame is issued, no cell changes and the answer is false
(R166). Spec decision D10: assumption 3. -/
def Obligations.PollAndClearAlarmClearsOneFlag : Prop :=
  ∀ (s : State) (channel : Byte), channel = 1#8 ∨ channel = 2#8 →
    let st := s.reg.read 0x0F#8
    let bit : Byte := if channel = 1#8 then 0x01#8 else 0x02#8
    (st &&& bit ≠ 0#8 → s.Ready 3 →
      ∃ t, exec (.pollAndClearAlarm channel) s = .next t ∧
        t.reg.read 0x0F#8 = s.stored 0x0F#8 (st &&& ~~~bit) ∧ s.KeepsCellsBut t [0x0F#8] ∧
        t.ptr = 0x10#8 ∧ t.lastErr = 0x00#8 ∧ t.response = some ⟨0x00#8, .bool 0x01#8⟩ ∧ t.draws = s.draws ∧
        t.bus = [wroteFrame s.params.devAddr [0x0F#8], readFrame s.params.devAddr [st],
          wroteFrame s.params.devAddr [0x0F#8, st &&& ~~~bit]] ∧ s.AfterFrames t 3) ∧
    (st &&& bit = 0#8 → s.Ready 2 →
      ∃ t, exec (.pollAndClearAlarm channel) s = .next t ∧ t.reg = s.reg ∧
        t.ptr = 0x10#8 ∧ t.lastErr = 0x00#8 ∧ t.response = some ⟨0x00#8, .bool 0x00#8⟩ ∧ t.draws = s.draws ∧
        t.bus = [wroteFrame s.params.devAddr [0x0F#8], readFrame s.params.devAddr [st]] ∧ s.AfterFrames t 2)

/-- A set flag is reported exactly once: a second poll right after answers false, issues no write frame and
changes no cell (R167). Spec decision D10: assumption 3. -/
def Obligations.PollIsIdempotent : Prop :=
  ∀ (s : State) (channel : Byte), channel = 1#8 ∨ channel = 2#8 → s.Ready 5 → s.PlainStorage →
    s.reg.read 0x0F#8 &&& (if channel = 1#8 then 0x01#8 else 0x02#8) ≠ 0#8 →
    ∃ t u, exec (.pollAndClearAlarm channel) s = .next t ∧ t.response = some ⟨0x00#8, .bool 0x01#8⟩ ∧
      t.reg.read 0x0F#8 = s.reg.read 0x0F#8 &&& ~~~(if channel = 1#8 then 0x01#8 else 0x02#8) ∧
      exec (.pollAndClearAlarm channel) t = .next u ∧ u.response = some ⟨0x00#8, .bool 0x00#8⟩ ∧
      u.reg = t.reg ∧ u.bus.length = 2

/-- The read-modify-write race: whatever the engine does to the status byte between the read frame and the write
frame of `pollAndClearAlarm` is overwritten by the byte as it was read, so that a flag of the other channel set
in that window is lost (R72, R242). Spec decisions D11 and D12: assumptions 1 and 5. -/
def Obligations.EngineChangeInTheWindowIsLost : Prop :=
  ∀ (s : State) (channel : Byte), channel = 1#8 ∨ channel = 2#8 → s.seq = .idle → s.params.engine = .free →
    s.PlainStorage → s.Answers 3 → (s.answerAt 0).engine = [] → (s.answerAt 1).engine = [] →
    s.reg.read 0x0F#8 &&& (if channel = 1#8 then 0x01#8 else 0x02#8) ≠ 0#8 →
    ∃ t, exec (.pollAndClearAlarm channel) s = .next t ∧ t.response = some ⟨0x00#8, .bool 0x01#8⟩ ∧
      t.reg.read 0x0F#8 = s.reg.read 0x0F#8 &&& ~~~(if channel = 1#8 then 0x01#8 else 0x02#8)

/-! ## Control and status -/

/-- `setSquareWave`: `DISABLED` (4) sets INTCN alone; a rate code 0 to 3 clears INTCN and goes to `{RS2, RS1}`;
the byte is always written back and no other cell changes (R180). Spec decisions D10, D17 and D36: assumptions
3, 26 and 28. -/
def Obligations.SetSquareWaveWritesControl : Prop :=
  ∀ (s : State) (freq : Byte), freq.toNat ≤ 4 → s.Ready 3 →
    let c := s.reg.read 0x0E#8
    let c2 := if freq = 4#8 then c ||| 0x04#8 else (c &&& 0xE3#8) ||| (freq <<< 3)
    ∃ t, exec (.setSquareWave freq) s = .next t ∧
      t.reg.read 0x0E#8 = s.stored 0x0E#8 c2 ∧ s.KeepsCellsBut t [0x0E#8] ∧
      t.ptr = 0x0F#8 ∧ t.lastErr = 0x00#8 ∧ t.response = some ⟨0x00#8, .none⟩ ∧ t.draws = s.draws ∧
      t.bus = [wroteFrame s.params.devAddr [0x0E#8], readFrame s.params.devAddr [c],
        wroteFrame s.params.devAddr [0x0E#8, c2]] ∧ s.AfterFrames t 3

/-- `setSquareWave` and `setAlarmInterrupt` change only their documented control bits: `DISABLED` bit 2 alone, which
it sets; a code bits 4 to 2 alone, of which it clears bit 2; an enable bit `channel - 1` alone, which takes the
value asked for (R165, R180, R182). The code 4 of `DISABLED` is spec decision D17, the channel and boolean bytes
D30, plain storage D10: assumptions 3, 26 and 28. -/
def Obligations.ControlBitsArePreserved : Prop :=
  ∀ s : State, s.Ready 3 → s.PlainStorage →
    (∃ t, exec (.setSquareWave 4#8) s = .next t ∧ (t.reg.read 0x0E#8).getLsbD 2 = true ∧
      ∀ k, k ≠ 2 → (t.reg.read 0x0E#8).getLsbD k = (s.reg.read 0x0E#8).getLsbD k) ∧
    (∀ freq : Byte, freq.toNat ≤ 3 → ∃ t, exec (.setSquareWave freq) s = .next t ∧
      (t.reg.read 0x0E#8).getLsbD 2 = false ∧
      ∀ k, k ≠ 4 → k ≠ 3 → k ≠ 2 → (t.reg.read 0x0E#8).getLsbD k = (s.reg.read 0x0E#8).getLsbD k) ∧
    (∀ channel enabled : Byte, channel = 1#8 ∨ channel = 2#8 → enabled = 0#8 ∨ enabled = 1#8 →
      ∃ t, exec (.setAlarmInterrupt channel enabled) s = .next t ∧
        (t.reg.read 0x0E#8).getLsbD (channel.toNat - 1) = (enabled == 1#8) ∧
        ∀ k, k ≠ channel.toNat - 1 → (t.reg.read 0x0E#8).getLsbD k = (s.reg.read 0x0E#8).getLsbD k)

/-- `oscillatorStopped` answers OSF as it was; with OSF set and `clear` asked for, the byte just read is written
back with that bit cleared; otherwise no write frame is issued and no cell changes (R181). Spec decisions D10
and D18: assumptions 3 and 23. -/
def Obligations.OscillatorStoppedReportsAndClears : Prop :=
  ∀ (s : State) (clear : Byte), clear = 0#8 ∨ clear = 1#8 →
    let st := s.reg.read 0x0F#8
    (st.getLsbD 7 = true → clear = 1#8 → s.Ready 3 →
      ∃ t, exec (.oscillatorStopped clear) s = .next t ∧
        t.reg.read 0x0F#8 = s.stored 0x0F#8 (st &&& 0x7F#8) ∧ s.KeepsCellsBut t [0x0F#8] ∧
        t.ptr = 0x10#8 ∧ t.lastErr = 0x00#8 ∧ t.response = some ⟨0x00#8, .bool 0x01#8⟩ ∧ t.draws = s.draws ∧
        t.bus = [wroteFrame s.params.devAddr [0x0F#8], readFrame s.params.devAddr [st],
          wroteFrame s.params.devAddr [0x0F#8, st &&& 0x7F#8]] ∧ s.AfterFrames t 3) ∧
    (st.getLsbD 7 = false ∨ clear = 0#8 → s.Ready 2 →
      ∃ t, exec (.oscillatorStopped clear) s = .next t ∧ t.reg = s.reg ∧
        t.ptr = 0x10#8 ∧ t.lastErr = 0x00#8 ∧ t.draws = s.draws ∧
        t.response = some ⟨0x00#8, .bool (if st.getLsbD 7 then 0x01#8 else 0x00#8)⟩ ∧
        t.bus = [wroteFrame s.params.devAddr [0x0F#8], readFrame s.params.devAddr [st]] ∧ s.AfterFrames t 2)

/-- Control bit INTCN (bit 2) selects what the pin carries: 1 alarm-interrupt mode, 0 square-wave mode at the rate
`{RS2, RS1}` (bits 4, 3). `setSquareWave(DISABLED)` sets it, `setSquareWave(code)` clears it, and the alarm
operations never touch it, whatever the environment answers, the engine does and `WMASK` is (R212). The code 4 of
`DISABLED` is spec decision D17, RS2 as the high bit D36, plain storage D10: assumptions 3, 26 and 28. -/
def Obligations.SquareWaveRoutesThePin : Prop :=
  (∀ c : Byte, pinMode c = if c.getLsbD 2 then .alarmInterrupt
      else .squareWave (BitVec.ofBool (c.getLsbD 4) ++ BitVec.ofBool (c.getLsbD 3))) ∧
  (∀ s : State, s.Ready 3 → s.PlainStorage →
    (∃ t, exec (.setSquareWave 4#8) s = .next t ∧ (t.reg.read 0x0E#8).getLsbD 2 = true) ∧
    (∀ freq : Byte, freq.toNat ≤ 3 → ∃ t, exec (.setSquareWave freq) s = .next t ∧
      (t.reg.read 0x0E#8).getLsbD 2 = false)) ∧
  (∀ (i : Instr) (s : State), i.isAlarmOperation = true → i.wf = true → s.seq = .idle →
    ∃ t, exec i s = .next t ∧ (t.reg.read 0x0E#8).getLsbD 2 = (s.reg.read 0x0E#8).getLsbD 2)

/-! ## Temperature -/

/-- `readTemperature` reads 0x12, then 0x11, and answers the signed 10-bit value of 0x11 and the top two bits of
0x12, as a count of quarter degrees from -512 to 511; no cell changes (R190, R191). Spec decision D20:
assumption 23. -/
def Obligations.ReadTemperatureAnswersQuarterDegrees : Prop :=
  ∀ s : State, s.Ready 4 →
    ∃ t q, exec .readTemperature s = .next t ∧ t.response = some ⟨0x00#8, .temperature q⟩ ∧
      q.toInt = (((s.reg.read 0x11#8) ++ (s.reg.read 0x12#8).extractLsb' 6 2 : BitVec 10)).toInt ∧
      -512 ≤ q.toInt ∧ q.toInt ≤ 511 ∧
      t.reg = s.reg ∧ t.ptr = 0x12#8 ∧ t.lastErr = 0x00#8 ∧ t.draws = s.draws ∧
      t.bus = [wroteFrame s.params.devAddr [0x12#8], readFrame s.params.devAddr [s.reg.read 0x12#8],
        wroteFrame s.params.devAddr [0x11#8], readFrame s.params.devAddr [s.reg.read 0x11#8]] ∧
      s.AfterFrames t 4

/-! ## Errors -/

/-- A command that touches the bus issues one to four frames, and no fewer than R202 gives it while they succeed.
The status recorded of each is the one the environment gave it; every frame but the last ended with 0. If the last
never returned the command hangs; else its status comes back unchanged, on the result port and in `LASTERR`
(R24, R200, R202, R206). The hang is spec decision D24, `LASTERR` D21, the failures of read and later frames D14
and D19: assumptions 8, 11 and 23. -/
def Obligations.FirstFailureEndsTheOperation : Prop :=
  ∀ (i : Instr) (s : State), i.isCommand = true → i.isCodec = false → i.wf = true → s.seq = .idle →
    ∃ t, exec i s = .next t ∧ 1 ≤ t.bus.length ∧ t.bus.length ≤ 4 ∧
      (∀ n, n < i.frames → s.Answers n → n < t.bus.length) ∧
      (∀ (k : Nat) (hk : k < t.bus.length), t.bus[k].status = (s.answerAt k).status) ∧
      (∀ k, k + 1 < t.bus.length → (s.answerAt k).status = some 0x00#8) ∧
      (((s.answerAt (t.bus.length - 1)).status = none ∧ t.seq = .hung ∧ t.lastErr = s.lastErr ∧
          t.response = s.response) ∨
       (∃ c v, (s.answerAt (t.bus.length - 1)).status = some c ∧ t.seq = .idle ∧ t.lastErr = c ∧
          t.response = some ⟨c, v⟩))

/-- If the address frame of a read ends with a nonzero status, no read frame is issued, that status comes back
unchanged, and no cell changes (R132, R140). Where `PTR` is left is spec decision D13: assumption 7. -/
def Obligations.AddressPhaseFailureIssuesNoRead : Prop :=
  ∀ (i : Instr) (s : State) (addr c : Byte), i.firstRead? = some addr → i.wf = true → s.seq = .idle →
    s.EngineQuiet 1 → c ≠ 0x00#8 → (s.answerAt 0).status = some c →
    ∃ t v, exec i s = .next t ∧ t.bus = [⟨.write s.params.devAddr [addr], some c, []⟩] ∧
      t.response = some ⟨c, v⟩ ∧ t.lastErr = c ∧ t.reg = s.reg ∧ (t.ptr = s.ptr ∨ t.ptr = addr) ∧
      s.AfterFrames t 1

/-- If the read frame of a read ends with a nonzero status, that status comes back unchanged, no later frame is
issued and no cell changes (R132, R202, R208). Spec decisions D14 and D19: assumption 23. -/
def Obligations.ReadFrameFailureIsSurfaced : Prop :=
  ∀ (i : Instr) (s : State) (addr c : Byte), i.firstRead? = some addr → i.wf = true → s.seq = .idle →
    s.EngineQuiet 2 → (s.answerAt 0).status = some 0x00#8 → c ≠ 0x00#8 → (s.answerAt 1).status = some c →
    ∃ t v, exec i s = .next t ∧ t.bus.length = 2 ∧ t.response = some ⟨c, v⟩ ∧ t.lastErr = c ∧
      t.reg = s.reg ∧ s.AfterFrames t 2

/-- `setTime` that fails is not undone: at its first frame some first bytes of the clock are written and the
status byte is untouched; at its second or third the clock is written in full and the status byte untouched; at
its fourth the clock is written in full and the status byte is as before or has OSF cleared (R152, R208). Spec
decisions D13 and D19: assumptions 7 and 23. -/
def Obligations.FailedSetTimeIsNotUndone : Prop :=
  ∀ (s : State) (seconds minutes hours weekday date month year c : Byte) (n : Nat),
    (Instr.setTime seconds minutes hours weekday date month year).wf = true → s.seq = .idle → n < 4 →
    s.EngineQuiet 4 → (∀ k, k < n → (s.answerAt k).status = some 0x00#8) → c ≠ 0x00#8 →
    (s.answerAt n).status = some c →
    let p := clockBytes seconds minutes hours weekday date month year
    ∃ t, exec (.setTime seconds minutes hours weekday date month year) s = .next t ∧
      t.response = some ⟨c, .none⟩ ∧ t.lastErr = c ∧ t.bus.length = n + 1 ∧
      (n = 0 → ∃ k, k ≤ 7 ∧ ∀ a : Byte, t.reg.read a =
        if h : a.toNat < 7 ∧ a.toNat < k then s.stored a (p[a.toNat]'(by exact h.1)) else s.reg.read a) ∧
      (0 < n → ∀ a : Byte, a ≠ 0x0F#8 → t.reg.read a =
        if h : a.toNat < 7 then s.stored a (p[a.toNat]'(by exact h)) else s.reg.read a) ∧
      (n < 3 → t.reg.read 0x0F#8 = s.reg.read 0x0F#8) ∧
      (n = 3 → t.reg.read 0x0F#8 = s.reg.read 0x0F#8 ∨
        t.reg.read 0x0F#8 = s.stored 0x0F#8 (s.reg.read 0x0F#8 &&& 0x7F#8))

/-- `setAlarm` and `setAlarm3` that fail leave some first `k` bytes of the type's own block written, `k` whatever
the environment says, and every other cell as it was; `setAlarm3` is `setAlarm` with seconds 0 (R163, R164, R208).
Spec decisions D3 and D13: assumptions 7 and 21. -/
def Obligations.FailedSetAlarmWritesSomePart : Prop :=
  ∀ (s : State) (type : AlarmType) (seconds minutes hours dayOrDate c : Byte) (i : Instr),
    i = .setAlarm type.code seconds minutes hours dayOrDate ∨
      (seconds = 0#8 ∧ i = .setAlarm3 type.code minutes hours dayOrDate) →
    i.wf = true → s.seq = .idle → s.EngineQuiet 1 → c ≠ 0x00#8 → (s.answerAt 0).status = some c →
    let base := alarmBase type
    let data := alarmBytes type seconds minutes hours dayOrDate
    let k := min (s.answerAt 0).applied (data.length + 1)
    ∃ t, exec i s = .next t ∧ t.response = some ⟨c, .none⟩ ∧ t.lastErr = c ∧
      t.bus = [⟨.write s.params.devAddr (base :: data), some c, []⟩] ∧
      (∀ (j : Nat) (hj : j < data.length), j + 1 < k →
        t.reg.read (base + BitVec.ofNat 8 j) = s.stored (base + BitVec.ofNat 8 j) data[j]) ∧
      s.KeepsCellsBut t (cellsFrom base (k - 1)) ∧
      (k = 0 → t.ptr = s.ptr) ∧ (0 < k → t.ptr = base + BitVec.ofNat 8 (k - 1)) ∧ s.AfterFrames t 1

/-- A read-modify-write whose write frame fails leaves its byte as before, or as the operation makes it of the byte
it read: the enable bit given its value, the square wave's bits, the one alarm flag cleared, or OSF cleared; every
other cell is as it was and the status comes back unchanged (R165, R166, R180, R181, R208). Spec decisions D13 and
D19: assumptions 7 and 23. -/
def Obligations.FailedReadModifyWriteIsOldOrNew : Prop :=
  ∀ (i : Instr) (s : State) (addr new c : Byte), i.wf = true →
    (addr = 0x0E#8 ∧
        ((∃ ch en, i = .setAlarmInterrupt ch en ∧ new = withEnable ch (en == 1#8) (s.reg.read addr)) ∨
         (∃ freq, i = .setSquareWave freq ∧ new = squareWaveByte freq (s.reg.read addr)))) ∨
      (addr = 0x0F#8 ∧
        ((∃ ch, i = .pollAndClearAlarm ch ∧ flagSet ch (s.reg.read addr) = true ∧
            new = clearFlag ch (s.reg.read addr)) ∨
         (i = .oscillatorStopped 1#8 ∧ osfSet (s.reg.read addr) = true ∧ new = clearOsf (s.reg.read addr)))) →
    s.seq = .idle → s.EngineQuiet 3 → s.Answers 2 → c ≠ 0x00#8 → (s.answerAt 2).status = some c →
    ∃ t v, exec i s = .next t ∧ t.response = some ⟨c, v⟩ ∧ t.lastErr = c ∧
      t.bus = [wroteFrame s.params.devAddr [addr], readFrame s.params.devAddr [s.reg.read addr],
        ⟨.write s.params.devAddr [addr, new], some c, []⟩] ∧
      ((t.reg.read addr = s.reg.read addr ∧ (s.answerAt 2).applied < 2) ∨
        (t.reg.read addr = s.stored addr new ∧ 2 ≤ (s.answerAt 2).applied)) ∧
      s.KeepsCellsBut t [addr] ∧ s.AfterFrames t 3

/-- A transport call that never returns, be it an operation's first frame or a later one, leaves the sequencer
stuck: no status, no change of `LASTERR` or the result port, no frame after it; every later command or frame is
refused (R104 (d), R220). Spec decisions D24 and D25: assumptions 8 and 15. With nothing at all in the inbox the
stuck machine waits, unchanged (R10, R213): assumption 12. Nothing is said of an inbox that holds a step of the
engine, which may act meanwhile (assumption 29), or a restart (assumption 13). -/
def Obligations.HangLeavesTheSequencerStuck : Prop :=
  (∀ (i : Instr) (s : State) (n : Nat), i.wf = true → s.seq = .idle → s.Answers n →
    (s.answerAt n).status = none →
    n < i.frames ∨ (n = 2 ∧ s.EngineQuiet 2 ∧
      ((∃ ch, i = .pollAndClearAlarm ch ∧ flagSet ch (s.reg.read 0x0F#8) = true) ∨
       (i = .oscillatorStopped 1#8 ∧ osfSet (s.reg.read 0x0F#8) = true))) →
    ∃ t, exec i s = .next t ∧ t.seq = .hung ∧ t.lastErr = s.lastErr ∧ t.response = s.response ∧
      t.bus.length = n + 1 ∧ (t.bus[n]?).map (·.status) = some none) ∧
  (∀ (i : Instr) (s : State), s.seq = .hung → exec i s = .refused .commandWhileBusy) ∧
  (∀ s : State, s.seq = .hung → s.inbox = [] → step s = .next s)

/-- `writeBytes`, `writeMemory` and `writeByte` that fail leave some first bytes of their payload stored, as many as
the environment says, and every other cell as it was; the status comes back unchanged (R133, R138, R202). Spec
decision D13: assumption 7. -/
def Obligations.FailedWriteStoresSomePart : Prop :=
  ∀ (s : State) (addr c : Byte) (data : List Byte) (i : Instr),
    i = .writeBytes addr data ∨ i = .writeMemory addr data ∨ (∃ v, data = [v] ∧ i = .writeByte addr v) →
    data.length ≤ 31 → s.seq = .idle → s.EngineQuiet 1 → c ≠ 0x00#8 → (s.answerAt 0).status = some c →
    let k := min (s.answerAt 0).applied (data.length + 1)
    ∃ t, exec i s = .next t ∧ t.response = some ⟨c, .none⟩ ∧ t.lastErr = c ∧
      t.bus = [⟨.write s.params.devAddr (addr :: data), some c, []⟩] ∧
      (∀ (j : Nat) (hj : j < data.length), j + 1 < k → addr + BitVec.ofNat 8 j ≠ 0x13#8 →
        t.reg.read (addr + BitVec.ofNat 8 j) = s.stored (addr + BitVec.ofNat 8 j) data[j]) ∧
      t.reg.read 0x13#8 = s.reg.read 0x13#8 ∧ s.KeepsCellsBut t (cellsFrom addr (k - 1)) ∧
      (k = 0 → t.ptr = s.ptr) ∧ (0 < k → t.ptr = addr + BitVec.ofNat 8 (k - 1)) ∧ s.AfterFrames t 1

/-- `readTemperature` that fails at any of its four frames ends there with that frame's status, unchanged, and
changes no cell (R190, R202, R208). Spec decisions D14, D19 and D20: assumption 23. -/
def Obligations.FailedReadTemperatureIsSurfaced : Prop :=
  ∀ (s : State) (n : Nat) (c : Byte), n < 4 → s.seq = .idle → s.EngineQuiet 4 → s.Answers n → c ≠ 0x00#8 →
    (s.answerAt n).status = some c →
    ∃ t v, exec .readTemperature s = .next t ∧ t.bus.length = n + 1 ∧ t.response = some ⟨c, v⟩ ∧ t.lastErr = c ∧
      t.reg = s.reg ∧ s.AfterFrames t (n + 1)

/-- A boolean result is one byte, 0 or 1, whatever the status (R103). Spec decisions D24, D26 and D30: assumptions
8, 9 and 28. -/
def Obligations.BooleanResultsAreOneByte : Prop :=
  ∀ (i : Instr) (s : State), (∃ ch, i = .pollAndClearAlarm ch) ∨ (∃ clear, i = .oscillatorStopped clear) →
    i.wf = true → s.seq = .idle →
    ∃ t, exec i s = .next t ∧
      (t.seq = .hung ∨ ∃ c v, t.response = some ⟨c, .bool v⟩ ∧ (v = 0x00#8 ∨ v = 0x01#8))

/-- `BusError`: the frame with a nonzero status is the operation's last; the code comes back unchanged, on the
result port and in `LASTERR`; the sequencer is idle again and takes up the next instruction. There is no other
error: an operation whose frames all end with 0 ends with status 0 (R200, R202). That every frame raises it, a read
frame and a later one as well, is spec decisions D14 and D19, `LASTERR` D21: assumptions 11 and 23. -/
def Obligations.BusErrorEndsTheOperation : Prop :=
  ∀ (i : Instr) (s : State), i.isCommand = true → i.isCodec = false → i.wf = true → s.seq = .idle →
    ∃ t, exec i s = .next t ∧ 1 ≤ t.bus.length ∧
      (∀ n c, n < t.bus.length → (s.answerAt n).status = some c → c ≠ 0x00#8 →
        n + 1 = t.bus.length ∧ (∃ v, t.response = some ⟨c, v⟩) ∧ t.lastErr = c ∧ t.seq = .idle ∧
        ∀ j : Instr, j.wf = true → ∃ u, exec j t = .next u) ∧
      (s.Answers t.bus.length → (∃ v, t.response = some ⟨0x00#8, v⟩) ∧ t.lastErr = 0x00#8)

/-- What `raise BusError(c)` means, whichever micro-step raises it: nothing of the operation after it runs and no
frame is issued; status and `LASTERR` are the code, unchanged, and nothing is said of the result; the sequencer is
idle again and takes up the next instruction. An operation that ends without it ends with status 0, for there is no
other error (R200). -/
def Obligations.RaiseEndsTheOperation : Prop :=
  (∀ (α β : Type) (c : Byte) (s : State) (rest : α → State → Run β),
    (Run.busError c s : Run α).andThen rest = .busError c s) ∧
  (∀ (kind : ResultKind) (c : Byte) (s : State), s.seq = .idle →
    ∃ t v, conclude kind (.busError c s) = t ∧ t.response = some ⟨c, v⟩ ∧ t.lastErr = c ∧ t.bus = s.bus ∧
      t.reg = s.reg ∧ t.ptr = s.ptr ∧ t.frameCount = s.frameCount ∧ t.seq = .idle ∧
      ∀ j : Instr, j.wf = true → ∃ u, exec j t = .next u) ∧
  (∀ (kind : ResultKind) (v : Result) (s : State),
    (conclude kind (.done v s)).response = some ⟨0x00#8, v⟩ ∧ (conclude kind (.done v s)).lastErr = 0x00#8)

/-! ## Storage and widths -/

/-- The general-purpose storage 0x14 to 0xFF: no bit is the engine's, and a cell keeps its byte over every step,
a restart of the host side among them, that does not run an instruction which stores to it; a written byte is
the one it holds; `readMemory` and `readBytes` return it; after reset it is unspecified (R47, R195, R196, R231).
Spec decisions D10 and D33: assumptions 2, 3 and 28. -/
def Obligations.StorageHoldsTheLastByteWritten : Prop :=
  ∀ a : Byte, 0x14 ≤ a.toNat → engineMask a = 0x00#8 ∧ State.reset.reg.read a = Config.powerOnByte a.toNat ∧
    (∀ s t : State, step s = .next t →
      (∀ p bytes rest i, s.inbox = .word p bytes :: rest → decode p bytes = .ok i → a ∉ i.targets) →
      t.reg.read a = s.reg.read a) ∧
    (∀ (s : State) (addr : Byte) (data : List Byte) (i : Instr) (k : Nat) (hk : k < data.length),
      i = .writeBytes addr data ∨ i = .writeMemory addr data ∨ i = .wframe s.params.devAddr (addr :: data) →
      data.length ≤ 31 → a = addr + BitVec.ofNat 8 k → s.Ready 1 → s.PlainStorage →
      ∃ t, exec i s = .next t ∧ t.reg.read a = data[k]) ∧
    (∀ (s : State) (addr count : Byte) (i : Instr) (k : Nat), i = .readBytes addr count ∨ i = .readMemory addr count →
      k < count.toNat → count.toNat ≤ 32 → a = addr + BitVec.ofNat 8 k → s.Ready 2 →
      ∃ t data, exec i s = .next t ∧ t.response = some ⟨0x00#8, .bytes data⟩ ∧
        data[k]? = some (s.reg.read a))

/-- The widths of the composite operations: the frames issued are, in order, the first ones of the operation's list,
all of those it always issues while they succeed, and each within the transfer limits (R69). -/
def Obligations.CompositeOperationsKeepTheirWidths : Prop :=
  ∀ (i : Instr) (s : State) (widths : List FrameShape), i.widths? = some widths → i.wf = true → s.seq = .idle →
    ∃ t, exec i s = .next t ∧ (t.bus.map fun r => r.frame.shape) <+: widths ∧
      (∀ n, n < i.frames → s.Answers n → n < t.bus.length) ∧
      (∀ r ∈ t.bus, r.frame.withinLimits = true)
end

