-- ==== Sys2Proof/Laws/Decode.lean ====
section
/-! SUPPORT. The decoder's pieces: a frame's head byte, and each shape of operand list, read one way and the
other (spec/30_encoding.md R93, R97, R99). -/

namespace Sys2Proof

/-! ## The head byte of a frame -/

theorem frameHead_dev (dev : DevAddr) (rw : BitVec 1) : (frameHead dev rw).extractLsb' 1 7 = dev := by
  revert dev rw; decide

theorem frameHead_rw (dev : DevAddr) (rw : BitVec 1) : (frameHead dev rw).getLsbD 0 = rw.getLsbD 0 := by
  revert dev rw; decide

theorem frameHead_self (h : Byte) : frameHead (h.extractLsb' 1 7) (BitVec.ofBool (h.getLsbD 0)) = h := by
  revert h; decide

/-! ## What an accepted operand list is -/

theorem args0_ok {i j : Instr} {l : List Byte} (h : args0 i l = .ok j) : l = [] ∧ j = i := by
  cases l with
  | nil => cases h; exact ⟨rfl, rfl⟩
  | cons => cases h

theorem args1_ok {k : Byte → Instr} {j : Instr} {l : List Byte} (h : args1 k l = .ok j) :
    ∃ a, l = [a] ∧ j = k a := by
  unfold args1 at h; split at h
  · cases h; exact ⟨_, rfl, rfl⟩
  · cases h

theorem args2_ok {k : Byte → Byte → Instr} {j : Instr} {l : List Byte} (h : args2 k l = .ok j) :
    ∃ a b, l = [a, b] ∧ j = k a b := by
  unfold args2 at h; split at h
  · cases h; exact ⟨_, _, rfl, rfl⟩
  · cases h

theorem args4_ok {k : Byte → Byte → Byte → Byte → Instr} {j : Instr} {l : List Byte}
    (h : args4 k l = .ok j) : ∃ a b c d, l = [a, b, c, d] ∧ j = k a b c d := by
  unfold args4 at h; split at h
  · cases h; exact ⟨_, _, _, _, rfl, rfl⟩
  · cases h

theorem args5_ok {k : Byte → Byte → Byte → Byte → Byte → Instr} {j : Instr} {l : List Byte}
    (h : args5 k l = .ok j) : ∃ a b c d e, l = [a, b, c, d, e] ∧ j = k a b c d e := by
  unfold args5 at h; split at h
  · cases h; exact ⟨_, _, _, _, _, rfl, rfl⟩
  · cases h

theorem args7_ok {k : Byte → Byte → Byte → Byte → Byte → Byte → Byte → Instr} {j : Instr} {l : List Byte}
    (h : args7 k l = .ok j) : ∃ a b c d e f g, l = [a, b, c, d, e, f, g] ∧ j = k a b c d e f g := by
  unfold args7 at h; split at h
  · cases h; exact ⟨_, _, _, _, _, _, _, rfl, rfl⟩
  · cases h

theorem argsPayload_ok {k : Byte → List Byte → Instr} {j : Instr} {l : List Byte}
    (h : argsPayload k l = .ok j) : ∃ addr data, l = encodePayload addr data ∧ j = k addr data := by
  unfold argsPayload at h; split at h
  · split at h
    · next hl => cases h; refine ⟨_, _, ?_, rfl⟩; simp [encodePayload, hl]
    · cases h
  · cases h

/-! ## A payload read back -/

theorem argsPayload_encodePayload (k : Byte → List Byte → Instr) (addr : Byte) (data : List Byte)
    (h : data.length < 256) : argsPayload k (encodePayload addr data) = .ok (k addr data) := by
  simp [argsPayload, encodePayload]; omega

/-! ## A list of another length is refused -/

theorem args0_wrongLength {i : Instr} {l : List Byte} (h : l.length ≠ 0) : args0 i l = .error .wrongLength := by
  cases l with
  | nil => simp at h
  | cons => rfl

theorem args1_wrongLength {k : Byte → Instr} {l : List Byte} (h : l.length ≠ 1) :
    args1 k l = .error .wrongLength := by
  unfold args1; split
  · simp at h
  · rfl

theorem args2_wrongLength {k : Byte → Byte → Instr} {l : List Byte} (h : l.length ≠ 2) :
    args2 k l = .error .wrongLength := by
  unfold args2; split
  · simp at h
  · rfl

theorem args4_wrongLength {k : Byte → Byte → Byte → Byte → Instr} {l : List Byte} (h : l.length ≠ 4) :
    args4 k l = .error .wrongLength := by
  unfold args4; split
  · simp at h
  · rfl

theorem args5_wrongLength {k : Byte → Byte → Byte → Byte → Byte → Instr} {l : List Byte} (h : l.length ≠ 5) :
    args5 k l = .error .wrongLength := by
  unfold args5; split
  · simp at h
  · rfl

theorem args7_wrongLength {k : Byte → Byte → Byte → Byte → Byte → Byte → Byte → Instr} {l : List Byte}
    (h : l.length ≠ 7) : args7 k l = .error .wrongLength := by
  unfold args7; split
  · simp at h
  · rfl

theorem argsPayload_wrongLength {k : Byte → List Byte → Instr} {l : List Byte}
    (h : l.length ≠ 2 + (l.getD 1 0x00#8).toNat) : argsPayload k l = .error .wrongLength := by
  unfold argsPayload; split
  · simp at h; rw [if_neg (by omega)]
  · rfl

/-- An opcode 0x12 to 0xFF is reserved (R97). -/
theorem decodeOpcode_reserved {opcode : Byte} (args : List Byte) (h : 0x12 ≤ opcode.toNat) :
    decodeOpcode opcode args = .error (.reservedOpcode opcode) := by
  unfold decodeOpcode
  split <;> first | omega | rfl

end Sys2Proof
end

