-- ==== Sys2Proof/Laws/State.lean ====
section
/-! SUPPORT. One lemma per field per update of the state. -/

namespace Sys2Proof.Machine

/-! ## takeAnswer -/

@[simp] theorem State.takeAnswer_reg (s : State) : s.takeAnswer.reg = s.reg := rfl
@[simp] theorem State.takeAnswer_ptr (s : State) : s.takeAnswer.ptr = s.ptr := rfl
@[simp] theorem State.takeAnswer_lastErr (s : State) : s.takeAnswer.lastErr = s.lastErr := rfl
@[simp] theorem State.takeAnswer_seq (s : State) : s.takeAnswer.seq = s.seq := rfl
@[simp] theorem State.takeAnswer_pending (s : State) : s.takeAnswer.pending = s.pending := rfl
@[simp] theorem State.takeAnswer_received (s : State) : s.takeAnswer.received = s.received := rfl
@[simp] theorem State.takeAnswer_bus (s : State) : s.takeAnswer.bus = s.bus := rfl
@[simp] theorem State.takeAnswer_response (s : State) : s.takeAnswer.response = s.response := rfl
@[simp] theorem State.takeAnswer_inbox (s : State) : s.takeAnswer.inbox = s.inbox := rfl
@[simp] theorem State.takeAnswer_transport (s : State) : s.takeAnswer.transport = s.transport.drop 1 := rfl
@[simp] theorem State.takeAnswer_frameCount (s : State) : s.takeAnswer.frameCount = s.frameCount + 1 := rfl
@[simp] theorem State.takeAnswer_draws (s : State) : s.takeAnswer.draws = s.draws := rfl
@[simp] theorem State.takeAnswer_params (s : State) : s.takeAnswer.params = s.params := rfl

/-! ## record -/

@[simp] theorem State.record_reg (s : State) (r : FrameRecord) : (s.record r).reg = s.reg := rfl
@[simp] theorem State.record_ptr (s : State) (r : FrameRecord) : (s.record r).ptr = s.ptr := rfl
@[simp] theorem State.record_lastErr (s : State) (r : FrameRecord) : (s.record r).lastErr = s.lastErr := rfl
@[simp] theorem State.record_seq (s : State) (r : FrameRecord) : (s.record r).seq = s.seq := rfl
@[simp] theorem State.record_pending (s : State) (r : FrameRecord) : (s.record r).pending = s.pending := rfl
@[simp] theorem State.record_received (s : State) (r : FrameRecord) : (s.record r).received = s.received := rfl
@[simp] theorem State.record_bus (s : State) (r : FrameRecord) : (s.record r).bus = s.bus ++ [r] := rfl
@[simp] theorem State.record_response (s : State) (r : FrameRecord) : (s.record r).response = s.response := rfl
@[simp] theorem State.record_inbox (s : State) (r : FrameRecord) : (s.record r).inbox = s.inbox := rfl
@[simp] theorem State.record_transport (s : State) (r : FrameRecord) : (s.record r).transport = s.transport := rfl
@[simp] theorem State.record_frameCount (s : State) (r : FrameRecord) : (s.record r).frameCount = s.frameCount := rfl
@[simp] theorem State.record_draws (s : State) (r : FrameRecord) : (s.record r).draws = s.draws := rfl
@[simp] theorem State.record_params (s : State) (r : FrameRecord) : (s.record r).params = s.params := rfl

/-! ## beginTransaction -/

@[simp] theorem State.beginTransaction_reg (s : State) (d : DevAddr) : (s.beginTransaction d).reg = s.reg := rfl
@[simp] theorem State.beginTransaction_ptr (s : State) (d : DevAddr) : (s.beginTransaction d).ptr = s.ptr := rfl
@[simp] theorem State.beginTransaction_lastErr (s : State) (d : DevAddr) : (s.beginTransaction d).lastErr = s.lastErr := rfl
@[simp] theorem State.beginTransaction_seq (s : State) (d : DevAddr) : (s.beginTransaction d).seq = s.seq := rfl
@[simp] theorem State.beginTransaction_pending (s : State) (d : DevAddr) : (s.beginTransaction d).pending = some { dev := d, bytes := [] } := rfl
@[simp] theorem State.beginTransaction_received (s : State) (d : DevAddr) : (s.beginTransaction d).received = s.received := rfl
@[simp] theorem State.beginTransaction_bus (s : State) (d : DevAddr) : (s.beginTransaction d).bus = s.bus := rfl
@[simp] theorem State.beginTransaction_response (s : State) (d : DevAddr) : (s.beginTransaction d).response = s.response := rfl
@[simp] theorem State.beginTransaction_inbox (s : State) (d : DevAddr) : (s.beginTransaction d).inbox = s.inbox := rfl
@[simp] theorem State.beginTransaction_transport (s : State) (d : DevAddr) : (s.beginTransaction d).transport = s.transport := rfl
@[simp] theorem State.beginTransaction_frameCount (s : State) (d : DevAddr) : (s.beginTransaction d).frameCount = s.frameCount := rfl
@[simp] theorem State.beginTransaction_draws (s : State) (d : DevAddr) : (s.beginTransaction d).draws = s.draws := rfl
@[simp] theorem State.beginTransaction_params (s : State) (d : DevAddr) : (s.beginTransaction d).params = s.params := rfl

/-! ## appendByte -/

@[simp] theorem State.appendByte_reg (s : State) (b : Byte) : (s.appendByte b).reg = s.reg := rfl
@[simp] theorem State.appendByte_ptr (s : State) (b : Byte) : (s.appendByte b).ptr = s.ptr := rfl
@[simp] theorem State.appendByte_lastErr (s : State) (b : Byte) : (s.appendByte b).lastErr = s.lastErr := rfl
@[simp] theorem State.appendByte_seq (s : State) (b : Byte) : (s.appendByte b).seq = s.seq := rfl
@[simp] theorem State.appendByte_pending (s : State) (b : Byte) : (s.appendByte b).pending = s.pending.map fun f => { f with bytes := f.bytes ++ [b] } := rfl
@[simp] theorem State.appendByte_received (s : State) (b : Byte) : (s.appendByte b).received = s.received := rfl
@[simp] theorem State.appendByte_bus (s : State) (b : Byte) : (s.appendByte b).bus = s.bus := rfl
@[simp] theorem State.appendByte_response (s : State) (b : Byte) : (s.appendByte b).response = s.response := rfl
@[simp] theorem State.appendByte_inbox (s : State) (b : Byte) : (s.appendByte b).inbox = s.inbox := rfl
@[simp] theorem State.appendByte_transport (s : State) (b : Byte) : (s.appendByte b).transport = s.transport := rfl
@[simp] theorem State.appendByte_frameCount (s : State) (b : Byte) : (s.appendByte b).frameCount = s.frameCount := rfl
@[simp] theorem State.appendByte_draws (s : State) (b : Byte) : (s.appendByte b).draws = s.draws := rfl
@[simp] theorem State.appendByte_params (s : State) (b : Byte) : (s.appendByte b).params = s.params := rfl

/-! ## busStore -/

@[simp] theorem State.busStore_reg (s : State) (a v : Byte) : (s.busStore a v).reg = s.reg.write a (mergeBits (s.params.writeMask a) (s.reg.read a) v) := rfl
@[simp] theorem State.busStore_ptr (s : State) (a v : Byte) : (s.busStore a v).ptr = s.ptr := rfl
@[simp] theorem State.busStore_lastErr (s : State) (a v : Byte) : (s.busStore a v).lastErr = s.lastErr := rfl
@[simp] theorem State.busStore_seq (s : State) (a v : Byte) : (s.busStore a v).seq = s.seq := rfl
@[simp] theorem State.busStore_pending (s : State) (a v : Byte) : (s.busStore a v).pending = s.pending := rfl
@[simp] theorem State.busStore_received (s : State) (a v : Byte) : (s.busStore a v).received = s.received := rfl
@[simp] theorem State.busStore_bus (s : State) (a v : Byte) : (s.busStore a v).bus = s.bus := rfl
@[simp] theorem State.busStore_response (s : State) (a v : Byte) : (s.busStore a v).response = s.response := rfl
@[simp] theorem State.busStore_inbox (s : State) (a v : Byte) : (s.busStore a v).inbox = s.inbox := rfl
@[simp] theorem State.busStore_transport (s : State) (a v : Byte) : (s.busStore a v).transport = s.transport := rfl
@[simp] theorem State.busStore_frameCount (s : State) (a v : Byte) : (s.busStore a v).frameCount = s.frameCount := rfl
@[simp] theorem State.busStore_draws (s : State) (a v : Byte) : (s.busStore a v).draws = s.draws := rfl
@[simp] theorem State.busStore_params (s : State) (a v : Byte) : (s.busStore a v).params = s.params := rfl

/-! ## slaveStore -/

@[simp] theorem State.slaveStore_reg (s : State) (v : Byte) : (s.slaveStore v).reg = s.reg.write s.ptr (mergeBits (s.params.writeMask s.ptr) (s.reg.read s.ptr) v) := rfl
@[simp] theorem State.slaveStore_ptr (s : State) (v : Byte) : (s.slaveStore v).ptr = s.ptr + 1#8 := rfl
@[simp] theorem State.slaveStore_lastErr (s : State) (v : Byte) : (s.slaveStore v).lastErr = s.lastErr := rfl
@[simp] theorem State.slaveStore_seq (s : State) (v : Byte) : (s.slaveStore v).seq = s.seq := rfl
@[simp] theorem State.slaveStore_pending (s : State) (v : Byte) : (s.slaveStore v).pending = s.pending := rfl
@[simp] theorem State.slaveStore_received (s : State) (v : Byte) : (s.slaveStore v).received = s.received := rfl
@[simp] theorem State.slaveStore_bus (s : State) (v : Byte) : (s.slaveStore v).bus = s.bus := rfl
@[simp] theorem State.slaveStore_response (s : State) (v : Byte) : (s.slaveStore v).response = s.response := rfl
@[simp] theorem State.slaveStore_inbox (s : State) (v : Byte) : (s.slaveStore v).inbox = s.inbox := rfl
@[simp] theorem State.slaveStore_transport (s : State) (v : Byte) : (s.slaveStore v).transport = s.transport := rfl
@[simp] theorem State.slaveStore_frameCount (s : State) (v : Byte) : (s.slaveStore v).frameCount = s.frameCount := rfl
@[simp] theorem State.slaveStore_draws (s : State) (v : Byte) : (s.slaveStore v).draws = s.draws := rfl
@[simp] theorem State.slaveStore_params (s : State) (v : Byte) : (s.slaveStore v).params = s.params := rfl

/-! ## hostReset -/

@[simp] theorem State.hostReset_reg (s : State) : s.hostReset.reg = s.reg := rfl
@[simp] theorem State.hostReset_ptr (s : State) : s.hostReset.ptr = s.ptr := rfl
@[simp] theorem State.hostReset_lastErr (s : State) : s.hostReset.lastErr = 0x00#8 := rfl
@[simp] theorem State.hostReset_seq (s : State) : s.hostReset.seq = .idle := rfl
@[simp] theorem State.hostReset_pending (s : State) : s.hostReset.pending = none := rfl
@[simp] theorem State.hostReset_received (s : State) : s.hostReset.received = [] := rfl
@[simp] theorem State.hostReset_bus (s : State) : s.hostReset.bus = [] := rfl
@[simp] theorem State.hostReset_response (s : State) : s.hostReset.response = none := rfl
@[simp] theorem State.hostReset_inbox (s : State) : s.hostReset.inbox = s.inbox := rfl
@[simp] theorem State.hostReset_transport (s : State) : s.hostReset.transport = s.transport := rfl
@[simp] theorem State.hostReset_frameCount (s : State) : s.hostReset.frameCount = s.frameCount := rfl
@[simp] theorem State.hostReset_draws (s : State) : s.hostReset.draws = s.draws := rfl
@[simp] theorem State.hostReset_params (s : State) : s.hostReset.params = s.params := rfl

/-! ## placeWord -/

@[simp] theorem State.placeWord_reg (s : State) (p : Port) (bytes : List Byte) : (s.placeWord p bytes).reg = s.reg := rfl
@[simp] theorem State.placeWord_ptr (s : State) (p : Port) (bytes : List Byte) : (s.placeWord p bytes).ptr = s.ptr := rfl
@[simp] theorem State.placeWord_lastErr (s : State) (p : Port) (bytes : List Byte) : (s.placeWord p bytes).lastErr = s.lastErr := rfl
@[simp] theorem State.placeWord_seq (s : State) (p : Port) (bytes : List Byte) : (s.placeWord p bytes).seq = s.seq := rfl
@[simp] theorem State.placeWord_pending (s : State) (p : Port) (bytes : List Byte) : (s.placeWord p bytes).pending = s.pending := rfl
@[simp] theorem State.placeWord_received (s : State) (p : Port) (bytes : List Byte) : (s.placeWord p bytes).received = s.received := rfl
@[simp] theorem State.placeWord_bus (s : State) (p : Port) (bytes : List Byte) : (s.placeWord p bytes).bus = s.bus := rfl
@[simp] theorem State.placeWord_response (s : State) (p : Port) (bytes : List Byte) : (s.placeWord p bytes).response = s.response := rfl
@[simp] theorem State.placeWord_inbox (s : State) (p : Port) (bytes : List Byte) : (s.placeWord p bytes).inbox = .word p bytes :: s.inbox := rfl
@[simp] theorem State.placeWord_transport (s : State) (p : Port) (bytes : List Byte) : (s.placeWord p bytes).transport = s.transport := rfl
@[simp] theorem State.placeWord_frameCount (s : State) (p : Port) (bytes : List Byte) : (s.placeWord p bytes).frameCount = s.frameCount := rfl
@[simp] theorem State.placeWord_draws (s : State) (p : Port) (bytes : List Byte) : (s.placeWord p bytes).draws = s.draws := rfl
@[simp] theorem State.placeWord_params (s : State) (p : Port) (bytes : List Byte) : (s.placeWord p bytes).params = s.params := rfl

/-! ## engineStep -/

@[simp] theorem State.engineStep_ptr (s : State) (ws : List EngineWrite) : (s.engineStep ws).ptr = s.ptr := by
  unfold State.engineStep; split <;> rfl
@[simp] theorem State.engineStep_lastErr (s : State) (ws : List EngineWrite) : (s.engineStep ws).lastErr = s.lastErr := by
  unfold State.engineStep; split <;> rfl
@[simp] theorem State.engineStep_seq (s : State) (ws : List EngineWrite) : (s.engineStep ws).seq = s.seq := by
  unfold State.engineStep; split <;> rfl
@[simp] theorem State.engineStep_pending (s : State) (ws : List EngineWrite) : (s.engineStep ws).pending = s.pending := by
  unfold State.engineStep; split <;> rfl
@[simp] theorem State.engineStep_received (s : State) (ws : List EngineWrite) : (s.engineStep ws).received = s.received := by
  unfold State.engineStep; split <;> rfl
@[simp] theorem State.engineStep_bus (s : State) (ws : List EngineWrite) : (s.engineStep ws).bus = s.bus := by
  unfold State.engineStep; split <;> rfl
@[simp] theorem State.engineStep_response (s : State) (ws : List EngineWrite) : (s.engineStep ws).response = s.response := by
  unfold State.engineStep; split <;> rfl
@[simp] theorem State.engineStep_inbox (s : State) (ws : List EngineWrite) : (s.engineStep ws).inbox = s.inbox := by
  unfold State.engineStep; split <;> rfl
@[simp] theorem State.engineStep_transport (s : State) (ws : List EngineWrite) : (s.engineStep ws).transport = s.transport := by
  unfold State.engineStep; split <;> rfl
@[simp] theorem State.engineStep_frameCount (s : State) (ws : List EngineWrite) : (s.engineStep ws).frameCount = s.frameCount := by
  unfold State.engineStep; split <;> rfl
@[simp] theorem State.engineStep_draws (s : State) (ws : List EngineWrite) : (s.engineStep ws).draws = s.draws := by
  unfold State.engineStep; split <;> rfl
@[simp] theorem State.engineStep_params (s : State) (ws : List EngineWrite) : (s.engineStep ws).params = s.params := by
  unfold State.engineStep; split <;> rfl

@[simp] theorem State.engineStep_nil (s : State) : s.engineStep [] = s := by
  unfold State.engineStep; split <;> rfl

/-- Under `ENGINE = static` the engine does nothing (R50). -/
theorem State.engineStep_static (s : State) (ws : List EngineWrite) (h : s.params.engine = .static) :
    s.engineStep ws = s := by
  unfold State.engineStep; rw [h]

end Sys2Proof.Machine
end

