-- ==== Sys2Proof/Laws/Registers.lean ====
section
/-! SUPPORT. The register file: reads and writes of cells, a run of bus writes as one function of its
address and data, and what the engine may change. -/

namespace Sys2Proof.Machine

/-! ## Cells -/

@[simp] theorem RegFile.read_write_same (r : RegFile) (a v : Byte) : (r.write a v).read a = v := by
  simp [RegFile.read, RegFile.write]

theorem RegFile.read_write_other (r : RegFile) {a b : Byte} (v : Byte) (h : a ≠ b) :
    (r.write a v).read b = r.read b := by
  have h' : a.toNat ≠ b.toNat := fun e => h (BitVec.eq_of_toNat_eq e)
  simp [RegFile.read, RegFile.write, h']

theorem RegFile.read_write (r : RegFile) (a b v : Byte) :
    (r.write a v).read b = if a = b then v else r.read b := by
  by_cases h : a = b
  · subst h; simp
  · simp [h, RegFile.read_write_other r v h]

theorem RegFile.write_read_same (r : RegFile) (a : Byte) : r.write a (r.read a) = r := by
  simp [RegFile.read, RegFile.write]

/-- Register files with the same cells are equal. -/
theorem RegFile.ext_read {r q : RegFile} (h : ∀ a : Byte, r.read a = q.read a) : r = q := by
  apply Vector.ext
  intro i hi
  have := h (BitVec.ofNat 8 i)
  have e : i % 256 = i := Nat.mod_eq_of_lt hi
  simpa [RegFile.read, e] using this

@[simp] theorem RegFile.read_ofFun (f : Nat → Byte) (a : Byte) : (RegFile.ofFun f).read a = f a.toNat := by
  simp [RegFile.read, RegFile.ofFun]

/-! ## The register file as memory: its cells, in their one canonical form -/

/-- The cells of a register file, addresses rising from 0x00 to 0xFF. -/
def RegFile.cells (r : RegFile) : List Host.Cell :=
  (List.range Config.nreg).map fun a => (a, r.read (BitVec.ofNat 8 a))

/-- The canonical form: every address of the space once, strictly rising (R20, R60). -/
abbrev Memory.wf (m : List Host.Cell) : Prop := m.map Prod.fst = List.range Config.nreg

theorem RegFile.cells_wf (r : RegFile) : Memory.wf r.cells := by
  unfold Memory.wf RegFile.cells
  rw [List.map_map]
  exact List.map_id _

/-- Equal cells, equal register files: the data is its own canonical form. -/
theorem RegFile.cells_injective {r q : RegFile} (h : r.cells = q.cells) : r = q := by
  apply RegFile.ext_read
  intro a
  have h1 : ∀ x ∈ List.range Config.nreg, (x, r.read (BitVec.ofNat 8 x)) = (x, q.read (BitVec.ofNat 8 x)) :=
    List.map_inj_left.mp h
  have h2 := h1 a.toNat (List.mem_range.mpr (Byte.toNat_lt_nreg a))
  simpa using h2

/-! ## Merging bits -/

@[simp] theorem mergeBits_all (old new : Byte) : mergeBits 0xFF#8 old new = new := by
  simp only [mergeBits, show ~~~(0xFF#8) = (0x00#8 : Byte) from rfl]
  have : new &&& 0xFF#8 = new := by
    have := BitVec.and_allOnes (x := new); simpa using this
  rw [this]; simp

@[simp] theorem mergeBits_none (old new : Byte) : mergeBits 0x00#8 old new = old := by
  simp only [mergeBits, show ~~~(0x00#8) = (0xFF#8 : Byte) from rfl]
  have : old &&& 0xFF#8 = old := by
    have := BitVec.and_allOnes (x := old); simpa using this
  rw [this]; simp

/-- The bits outside the mask stay. -/
theorem mergeBits_keeps (m old new : Byte) : mergeBits m old new &&& ~~~m = old &&& ~~~m := by
  ext i hi
  simp only [mergeBits, BitVec.getElem_and, BitVec.getElem_or, BitVec.getElem_not]
  cases m[i] <;> simp

@[simp] theorem Params.writeMask_reserved (p : Params) : p.writeMask Config.reservedCell = 0x00#8 := rfl

theorem Params.writeMask_other (p : Params) {a : Byte} (h : a ≠ Config.reservedCell) :
    p.writeMask a = p.wmask.read a := by
  have : (a == Config.reservedCell) = false := by simpa using h
  simp [Params.writeMask, this]

/-! ## A run of bus writes -/

/-- The register file after the payload `data` is stored from `a` upward, wrapping (R63, R130). -/
def RegFile.storeAll (p : Params) (r : RegFile) (a : Byte) : List Byte → RegFile
  | [] => r
  | v :: vs => RegFile.storeAll p (r.write a (mergeBits (p.writeMask a) (r.read a) v)) (a + 1#8) vs

theorem State.foldl_slaveStore (data : List Byte) (s : State) :
    data.foldl State.slaveStore s =
      { s with reg := RegFile.storeAll s.params s.reg s.ptr data
               ptr := s.ptr + BitVec.ofNat 8 data.length } := by
  induction data generalizing s with
  | nil => simp [RegFile.storeAll]
  | cons v vs ih =>
    rw [List.foldl_cons, ih]
    simp only [State.slaveStore, State.busStore, RegFile.storeAll, List.length_cons]
    congr 1
    rw [BitVec.add_assoc]
    congr 1
    simp [BitVec.ofNat_add, BitVec.add_comm]

/-- Cell `b` after the payload is stored from `a`: the byte of index `b - a` through the cell's write mask,
or the cell as it was. -/
theorem RegFile.read_storeAll (p : Params) (data : List Byte) (r : RegFile) (a b : Byte)
    (h : data.length ≤ Config.nreg) :
    (RegFile.storeAll p r a data).read b =
      if hi : (b - a).toNat < data.length then
        mergeBits (p.writeMask b) (r.read b) (data[(b - a).toNat])
      else r.read b := by
  induction data generalizing r a with
  | nil => simp [RegFile.storeAll]
  | cons v vs ih =>
    have hlen : vs.length < 256 := by simp [Config.nreg] at h; omega
    rw [RegFile.storeAll, ih _ _ (by simp [Config.nreg]; omega)]
    by_cases hab : a = b
    · subst hab
      simp [show ¬ (255 < vs.length) by omega, RegFile.read_write_same]
    · have hne : (b - a).toNat ≠ 0 := by
        intro e; apply hab; bv_omega
      have hsub : (b - (a + 1#8)).toNat = (b - a).toNat - 1 := by bv_omega
      rw [RegFile.read_write_other r _ hab]
      obtain ⟨k, hk⟩ := Nat.exists_eq_succ_of_ne_zero hne
      simp [hsub, hk]

theorem RegFile.storeAll_reserved (p : Params) (data : List Byte) (r : RegFile) (a : Byte) :
    (RegFile.storeAll p r a data).read Config.reservedCell = r.read Config.reservedCell := by
  induction data generalizing r a with
  | nil => rfl
  | cons v vs ih =>
    rw [RegFile.storeAll, ih, RegFile.read_write]
    split
    · next h => subst h; simp
    · rfl

/-! ## The engine -/

/-- The engine changes engine-owned bits alone (R50). -/
theorem RegFile.foldl_engineWrite_keeps (ws : List EngineWrite) (r : RegFile) (a : Byte) :
    (ws.foldl RegFile.engineWrite r).read a &&& ~~~(engineMask a) = r.read a &&& ~~~(engineMask a) := by
  induction ws generalizing r with
  | nil => rfl
  | cons w ws ih =>
    rw [List.foldl_cons, ih, RegFile.engineWrite, RegFile.read_write]
    split
    · next h => subst h; exact mergeBits_keeps _ _ _
    · rfl

theorem State.engineStep_keeps (s : State) (ws : List EngineWrite) (a : Byte) :
    (s.engineStep ws).reg.read a &&& ~~~(engineMask a) = s.reg.read a &&& ~~~(engineMask a) := by
  unfold State.engineStep
  split
  · rfl
  · exact RegFile.foldl_engineWrite_keeps ws s.reg a

/-- A cell without engine-owned bits is not the engine's to change. -/
theorem State.engineStep_unowned (s : State) (ws : List EngineWrite) (a : Byte)
    (h : engineMask a = 0x00#8) : (s.engineStep ws).reg.read a = s.reg.read a := by
  have := State.engineStep_keeps s ws a
  rw [h, show ~~~(0x00#8) = (0xFF#8 : Byte) from rfl] at this
  have all : ∀ x : Byte, x &&& 0xFF#8 = x := fun x => by
    have := BitVec.and_allOnes (x := x); simpa using this
  rwa [all, all] at this

end Sys2Proof.Machine
end

