-- ==== Sys2Proof/Laws/Transport.lean ====
section
/-! SUPPORT. One closed form for each of the two frames: what `BusWrite` and `BusRead` answer and the
state they leave, for every answer of the environment (spec/41_register_access.md R130, R131, R137 to
R139). -/

namespace Sys2Proof.Machine

/-! ## Draws -/

theorem State.drawBytes_snd (s : State) (n : Nat) : (s.drawBytes n).2 = { s with draws := s.draws + n } := by
  induction n generalizing s with
  | zero => rfl
  | succ n ih =>
    simp only [State.drawBytes, State.drawByte, ih]
    simp [Nat.add_comm, Nat.add_left_comm]

@[simp] theorem State.drawBytes_length (s : State) (n : Nat) : (s.drawBytes n).1.length = n := by
  induction n generalizing s with
  | zero => rfl
  | succ n ih => simp [State.drawBytes, State.drawByte, ih]

/-! ## Reading from the slave -/

theorem State.slaveLoad_snd (s : State) :
    ∃ d, s.slaveLoad.2 = { s with ptr := s.ptr + 1#8, draws := d } := by
  unfold State.slaveLoad
  cases s.ptr == Config.reservedCell
  · exact ⟨s.draws, rfl⟩
  · exact ⟨s.draws + 1, rfl⟩

/-- A read frame moves `PTR` and perhaps draws; no cell changes (R70, R131). -/
theorem State.slaveRead_snd (s : State) (n : Nat) :
    ∃ d, (s.slaveRead n).2 = { s with ptr := s.ptr + BitVec.ofNat 8 n, draws := d } := by
  induction n generalizing s with
  | zero => exact ⟨s.draws, by simp [State.slaveRead]⟩
  | succ n ih =>
    obtain ⟨d1, h1⟩ := s.slaveLoad_snd
    obtain ⟨d2, h2⟩ := ih s.slaveLoad.2
    refine ⟨d2, ?_⟩
    simp only [State.slaveRead]
    rw [h2, h1]
    simp only
    congr 1
    rw [BitVec.add_assoc]
    congr 1
    simp [BitVec.ofNat_add, BitVec.add_comm]

@[simp] theorem State.slaveRead_length (s : State) (n : Nat) : (s.slaveRead n).1.length = n := by
  induction n generalizing s with
  | zero => rfl
  | succ n ih => simp [State.slaveRead, ih]

/-- Byte `i` of a read frame is the cell `i` above `PTR`, but for the reserved cell (R131). -/
theorem State.slaveRead_getElem (s : State) (n i : Nat) (h : i < n)
    (hr : s.ptr + BitVec.ofNat 8 i ≠ Config.reservedCell) :
    (s.slaveRead n).1[i]? = some (s.reg.read (s.ptr + BitVec.ofNat 8 i)) := by
  induction n generalizing s i with
  | zero => omega
  | succ n ih =>
    obtain ⟨d, hd⟩ := s.slaveLoad_snd
    cases i with
    | zero =>
      have hp : (s.ptr == Config.reservedCell) = false := by simpa using hr
      simp [State.slaveRead, State.slaveLoad, hp]
    | succ i =>
      have e : s.ptr + BitVec.ofNat 8 (i + 1) = s.ptr + 1#8 + BitVec.ofNat 8 i := by
        rw [BitVec.add_assoc]; congr 1; simp [BitVec.ofNat_add, BitVec.add_comm]
      have := ih s.slaveLoad.2 i (by omega) (by rw [hd]; simp only; rw [← e]; exact hr)
      rw [hd] at this
      simp only [State.slaveRead, List.getElem?_cons_succ]
      rw [hd, e]
      exact this

/-- A read frame that stays clear of the reserved cell draws nothing. -/
theorem State.slaveRead_draws (s : State) (n : Nat)
    (hr : ∀ i, i < n → s.ptr + BitVec.ofNat 8 i ≠ Config.reservedCell) :
    (s.slaveRead n).2.draws = s.draws := by
  induction n generalizing s with
  | zero => rfl
  | succ n ih =>
    have h0 : (s.ptr == Config.reservedCell) = false := by
      have := hr 0 (by omega); simpa using this
    have e : s.slaveLoad = (s.reg.read s.ptr, { s with ptr := s.ptr + 1#8 }) := by
      simp [State.slaveLoad, h0]
    simp only [State.slaveRead, e]
    apply ih
    intro i hi
    have := hr (i + 1) (by omega)
    have e : s.ptr + BitVec.ofNat 8 (i + 1) = s.ptr + 1#8 + BitVec.ofNat 8 i := by
      rw [BitVec.add_assoc]; congr 1; simp [BitVec.ofNat_add, BitVec.add_comm]
    rwa [e] at this

/-! ## The environment's answers -/

@[simp] theorem State.answerAt_takeAnswer (s : State) (k : Nat) :
    s.takeAnswer.answerAt k = s.answerAt (k + 1) := by
  simp only [State.answerAt, State.takeAnswer_transport, State.takeAnswer_frameCount, List.getElem?_drop]
  rw [Nat.add_comm 1 k]
  simp [Nat.add_assoc, Nat.add_comm 1 k]

/-- The answers depend on the script and the count of frames alone. -/
theorem State.answerAt_congr {s t : State} (ht : t.transport = s.transport)
    (hf : t.frameCount = s.frameCount) (k : Nat) : t.answerAt k = s.answerAt k := by
  simp [State.answerAt, ht, hf]

theorem State.answerAt_shift {s t : State} {n : Nat} (ht : t.transport = s.transport.drop n)
    (hf : t.frameCount = s.frameCount + n) (k : Nat) : t.answerAt k = s.answerAt (n + k) := by
  simp [State.answerAt, ht, hf, List.getElem?_drop, Nat.add_assoc]

/-! ## Opening a frame -/

@[simp] theorem State.openFrame_ptr (s : State) : s.openFrame.ptr = s.ptr := by simp [State.openFrame]
@[simp] theorem State.openFrame_lastErr (s : State) : s.openFrame.lastErr = s.lastErr := by simp [State.openFrame]
@[simp] theorem State.openFrame_seq (s : State) : s.openFrame.seq = s.seq := by simp [State.openFrame]
@[simp] theorem State.openFrame_pending (s : State) : s.openFrame.pending = s.pending := by simp [State.openFrame]
@[simp] theorem State.openFrame_received (s : State) : s.openFrame.received = s.received := by simp [State.openFrame]
@[simp] theorem State.openFrame_bus (s : State) : s.openFrame.bus = s.bus := by simp [State.openFrame]
@[simp] theorem State.openFrame_response (s : State) : s.openFrame.response = s.response := by simp [State.openFrame]
@[simp] theorem State.openFrame_inbox (s : State) : s.openFrame.inbox = s.inbox := by simp [State.openFrame]
@[simp] theorem State.openFrame_transport (s : State) : s.openFrame.transport = s.transport.drop 1 := by
  simp [State.openFrame]
@[simp] theorem State.openFrame_frameCount (s : State) : s.openFrame.frameCount = s.frameCount + 1 := by
  simp [State.openFrame]
@[simp] theorem State.openFrame_draws (s : State) : s.openFrame.draws = s.draws := by simp [State.openFrame]
@[simp] theorem State.openFrame_params (s : State) : s.openFrame.params = s.params := by simp [State.openFrame]

/-- Opening a frame touches cells, the script of answers and the count of frames alone. -/
theorem State.openFrame_eq (s : State) : s.openFrame = { s with
    reg := s.openFrame.reg, transport := s.transport.drop 1, frameCount := s.frameCount + 1 } := by
  simp only [State.openFrame, State.takeAnswer, State.engineStep]
  split <;> rfl

/-- With the engine quiet before this frame, opening it changes no cell. -/
theorem State.openFrame_reg_quiet (s : State)
    (h : s.params.engine = .static ∨ s.answer.engine = []) : s.openFrame.reg = s.reg := by
  rcases h with h | h
  · simp [State.openFrame, State.engineStep_static _ _ h]
  · simp [State.openFrame, h]

/-- Opening a frame changes engine-owned bits at most (R50, R71). -/
theorem State.openFrame_keeps (s : State) (a : Byte) :
    s.openFrame.reg.read a &&& ~~~(engineMask a) = s.reg.read a &&& ~~~(engineMask a) := by
  simpa [State.openFrame] using s.engineStep_keeps s.answer.engine a

theorem State.openFrame_unowned (s : State) (a : Byte) (h : engineMask a = 0x00#8) :
    s.openFrame.reg.read a = s.reg.read a := by
  simpa [State.openFrame] using s.engineStep_unowned s.answer.engine a h

/-! ## The write frame -/

/-- How many bytes of the frame reach this slave. -/
def State.taken (s : State) (dev : DevAddr) (bytes : List Byte) : List Byte :=
  if dev = s.params.devAddr then bytes.take (deliveredBytes s.answer bytes.length) else []

/-- The cells after the bytes `bs` of a write frame reach the slave: the first loads `PTR`, the rest are
stored (R130). -/
def State.regAfter (s : State) : List Byte → RegFile
  | [] => s.openFrame.reg
  | a :: data => RegFile.storeAll s.params s.openFrame.reg a data

/-- `PTR` after the bytes of a write frame reach the slave (R130). -/
def State.ptrAfter (s : State) : List Byte → Byte
  | [] => s.ptr
  | a :: data => a + BitVec.ofNat 8 data.length

/-- The state a write frame leaves. -/
def State.afterWrite (s : State) (dev : DevAddr) (bytes : List Byte) : State :=
  { s with
    reg        := s.regAfter (s.taken dev bytes)
    ptr        := s.ptrAfter (s.taken dev bytes)
    pending    := match s.answer.status with | none => some ⟨dev, bytes⟩ | some _ => none
    bus        := s.bus ++ [⟨.write dev bytes, s.answer.status, []⟩]
    transport  := s.transport.drop 1
    frameCount := s.frameCount + 1 }

theorem State.foldl_appendByte (bytes : List Byte) (s : State) (dev : DevAddr) :
    bytes.foldl State.appendByte (s.beginTransaction dev) = { s with pending := some ⟨dev, bytes⟩ } := by
  have key : ∀ (bs pre : List Byte) (q : State), q.pending = some ⟨dev, pre⟩ →
      bs.foldl State.appendByte q = { q with pending := some ⟨dev, pre ++ bs⟩ } := by
    intro bs
    induction bs with
    | nil => intro pre q hq; cases q; simp_all
    | cons b bs ih =>
      intro pre q hq
      rw [List.foldl_cons, ih (pre ++ [b]) _ (by simp [hq])]
      cases q; simp [State.appendByte]
  have := key bytes [] (s.beginTransaction dev) rfl
  simpa [State.beginTransaction] using this

theorem State.slaveWrite_eq (s : State) (bs : List Byte) :
    s.openFrame.slaveWrite bs =
      { s.openFrame with reg := s.regAfter bs, ptr := s.ptrAfter bs } := by
  cases bs with
  | nil =>
    show s.openFrame = { s.openFrame with reg := s.openFrame.reg, ptr := s.ptr }
    rw [← State.openFrame_ptr s]
  | cons a data => simp [State.slaveWrite, State.foldl_slaveStore, State.regAfter, State.ptrAfter]

theorem State.deliverWrite_eq (s : State) (dev : DevAddr) (bytes : List Byte) :
    s.openFrame.deliverWrite dev bytes s.answer =
      { s.openFrame with reg := s.regAfter (s.taken dev bytes), ptr := s.ptrAfter (s.taken dev bytes) } := by
  unfold State.deliverWrite State.taken
  rw [State.openFrame_params]
  by_cases h : dev = s.params.devAddr
  · rw [if_pos h, if_pos h]; exact s.slaveWrite_eq _
  · rw [if_neg h, if_neg h]; exact s.slaveWrite_eq []

/-- Everything a write frame can do (R130, R137 to R139, R220). -/
theorem State.busWrite_eq (s : State) (dev : DevAddr) (bytes : List Byte) :
    s.busWrite dev bytes = Run.ofStatus s.answer.status () (s.afterWrite dev bytes) := by
  unfold State.busWrite
  rw [State.foldl_appendByte]
  have ha : ∀ p, ({ s with pending := p } : State).answer = s.answer := fun p => rfl
  have ho : ∀ p, ({ s with pending := p } : State).openFrame = { s.openFrame with pending := p } := by
    intro p
    simp only [State.openFrame, ha, State.takeAnswer, State.engineStep]
    split <;> rfl
  have hd : ∀ p, ({ s.openFrame with pending := p } : State).deliverWrite dev bytes s.answer
      = { s.openFrame.deliverWrite dev bytes s.answer with pending := p } := by
    intro p
    simp only [State.deliverWrite]
    split
    · generalize bytes.take _ = bs
      cases bs with
      | nil => rfl
      | cons a data => simp [State.slaveWrite, State.foldl_slaveStore]
    · rfl
  have e := s.openFrame_eq
  simp only [State.endTransaction]
  rw [ha, ho, hd, State.deliverWrite_eq]
  unfold State.afterWrite
  cases h : s.answer.status with
  | none => simp only [Run.ofStatus, State.record]; rw [e]
  | some c => simp only [Run.ofStatus, State.record]; rw [e]

/-! ## The read frame -/

/-- The bytes a read frame returns and the state it leaves the slave in. -/
def State.delivered (s : State) (dev : DevAddr) (count : Nat) : List Byte × State :=
  s.openFrame.deliverRead dev count s.answer

/-- The bytes a read frame returns. -/
def State.readData (s : State) (dev : DevAddr) (count : Nat) : List Byte := (s.delivered dev count).1

/-- The state a read frame leaves. -/
def State.afterRead (s : State) (dev : DevAddr) (count : Nat) : State :=
  { s with
    reg        := s.openFrame.reg
    ptr        := (s.delivered dev count).2.ptr
    received   := match s.answer.status with | none => s.received | some _ => []
    bus        := s.bus ++ [⟨.read dev count, s.answer.status,
                    match s.answer.status with | none => [] | some _ => s.readData dev count⟩]
    transport  := s.transport.drop 1
    frameCount := s.frameCount + 1
    draws      := (s.delivered dev count).2.draws }

@[simp] theorem State.deliverRead_length (s : State) (dev : DevAddr) (count : Nat) (a : FrameAnswer) :
    (s.deliverRead dev count a).1.length = count := by
  unfold State.deliverRead
  split
  · cases answerOk a <;> simp
  · simp

@[simp] theorem State.readData_length (s : State) (dev : DevAddr) (count : Nat) :
    (s.readData dev count).length = count := by
  simp [State.readData, State.delivered]

/-- A read frame changes `PTR` and the count of draws, nothing else of the slave's. -/
theorem State.deliverRead_snd (s : State) (dev : DevAddr) (count : Nat) (a : FrameAnswer) :
    ∃ p d, (s.deliverRead dev count a).2 = { s with ptr := p, draws := d } := by
  unfold State.deliverRead
  split
  · cases answerOk a
    · exact ⟨_, _, by simp only [cond_false]; rw [State.drawBytes_snd]⟩
    · obtain ⟨d, h⟩ := s.slaveRead_snd count
      exact ⟨_, d, by simp only [cond_true]; rw [h]⟩
  · exact ⟨s.ptr, _, State.drawBytes_snd s count⟩

theorem State.takeBytes_all (data : List Byte) (s : State) (n : Nat) (h : s.received = data)
    (hn : data.length = n) : s.takeBytes n = (data, { s with received := [] }) := by
  induction data generalizing s n with
  | nil => subst hn; cases s; simp_all [State.takeBytes]
  | cons b bs ih =>
    subst hn
    have := ih { s with received := bs } bs.length rfl rfl
    simp [State.takeBytes, State.takeByte, h, this]

/-- Everything a read frame can do (R131, R137 to R139, R220). -/
theorem State.busRead_eq (s : State) (dev : DevAddr) (count : Nat) :
    s.busRead dev count = Run.ofStatus s.answer.status (s.readData dev count) (s.afterRead dev count) := by
  obtain ⟨p, d, h⟩ := s.openFrame.deliverRead_snd dev count s.answer
  have e := s.openFrame_eq
  have hl : s.readData dev count = (s.openFrame.deliverRead dev count s.answer).1 := rfl
  have hlen := s.readData_length dev count
  unfold State.busRead State.requestBytes State.afterRead
  have hp : (s.delivered dev count).2.ptr = p := by simp [State.delivered, h]
  have hd : (s.delivered dev count).2.draws = d := by simp [State.delivered, h]
  rw [hp, hd]
  cases hs : s.answer.status with
  | none =>
    simp only [Run.ofStatus, State.record]
    rw [h, e]
  | some c =>
    simp only [State.record]
    rw [h, ← hl, State.takeBytes_all (s.readData dev count) _ count rfl hlen, e]

end Sys2Proof.Machine
end

