-- ==== Sys2Proof/Laws/Run.lean ====
section
/-! SUPPORT. What every operation does whatever the environment answers: where a run of frames can end and
what it leaves alone on the way (spec/60_exceptions.md R200, R202, R206, R207). -/

namespace Sys2Proof.Machine

/-! ## The state a run ends in -/

/-- The state a run of frames ends in, however it ends. -/
def Run.state {α : Type} : Run α → State
  | .done _ s => s
  | .busError _ s => s
  | .hung s => s

@[simp] theorem Run.state_ofStatus {α : Type} (st : Option Byte) (a : α) (s : State) :
    (Run.ofStatus st a s).state = s := by
  cases st with
  | none => rfl
  | some c => simp only [Run.ofStatus]; cases c == 0x00#8 <;> rfl

@[simp] theorem Run.andThen_done {α β : Type} (a : α) (s : State) (k : α → State → Run β) :
    (Run.done a s).andThen k = k a s := rfl

@[simp] theorem Run.andThen_busError {α β : Type} (c : Byte) (s : State) (k : α → State → Run β) :
    (Run.busError c s : Run α).andThen k = .busError c s := rfl

@[simp] theorem Run.andThen_hung {α β : Type} (s : State) (k : α → State → Run β) :
    (Run.hung s : Run α).andThen k = .hung s := rfl

theorem Run.andThen_assoc {α β γ : Type} (r : Run α) (k : α → State → Run β) (l : β → State → Run γ) :
    (r.andThen k).andThen l = r.andThen fun a s => (k a s).andThen l := by
  cases r <;> rfl

/-- The three ways a frame's status takes an operation. -/
theorem Run.ofStatus_cases {α : Type} (st : Option Byte) (a : α) (s : State) :
    (st = none ∧ Run.ofStatus st a s = .hung s) ∨
    (st = some 0x00#8 ∧ Run.ofStatus st a s = .done a s) ∨
    (∃ c, c ≠ 0x00#8 ∧ st = some c ∧ Run.ofStatus st a s = .busError c s) := by
  cases st with
  | none => exact .inl ⟨rfl, rfl⟩
  | some c =>
    by_cases h : c = 0x00#8
    · subst h; exact .inr (.inl ⟨rfl, rfl⟩)
    · refine .inr (.inr ⟨c, h, rfl, ?_⟩)
      have : (c == 0x00#8) = false := by simpa using h
      simp [Run.ofStatus, this]

/-- A relation that holds across each frame holds across every run of frames. -/
theorem Run.andThen_rel {α β : Type} {R : State → State → Prop} (htrans : ∀ {a b c}, R a b → R b c → R a c)
    {s : State} {r : Run α} {k : α → State → Run β} (hr : R s r.state)
    (hk : ∀ a t, r = .done a t → R t (k a t).state) : R s (r.andThen k).state := by
  cases r with
  | done a t => exact htrans hr (hk a t rfl)
  | busError c t => exact hr
  | hung t => exact hr

/-! ## What frames leave alone -/

/-- The frames a run adds to the bus port: one answer of the environment used by each, whose status it has. -/
def State.Logged (s t : State) : Prop :=
  ∃ fs, t.bus = s.bus ++ fs ∧ t.transport = s.transport.drop fs.length ∧
    t.frameCount = s.frameCount + fs.length ∧
    ∀ (k : Nat) (r : FrameRecord), fs[k]? = some r → r.status = (s.answerAt k).status

theorem State.Logged.refl (s : State) : State.Logged s s := ⟨[], by simp, by simp, by simp, by simp⟩

theorem State.Logged.trans {a b c : State} (h : State.Logged a b) (g : State.Logged b c) : State.Logged a c := by
  obtain ⟨fs, hb, ht, hf, hs⟩ := h
  obtain ⟨gs, gb, gt, gf, gg⟩ := g
  refine ⟨fs ++ gs, by rw [gb, hb]; simp, by rw [gt, ht]; simp, by rw [gf, hf]; simp; omega, fun k r hk => ?_⟩
  rcases Nat.lt_or_ge k fs.length with hl | hl
  · exact hs k r (by rwa [List.getElem?_append_left hl] at hk)
  · rw [List.getElem?_append_right hl] at hk
    rw [gg _ _ hk, State.answerAt_shift ht hf, Nat.add_sub_cancel' hl]

/-- One frame. -/
theorem State.Logged.one {s t : State} {r : FrameRecord} (hb : t.bus = s.bus ++ [r])
    (ht : t.transport = s.transport.drop 1) (hf : t.frameCount = s.frameCount + 1)
    (hr : r.status = s.answer.status) : State.Logged s t := by
  refine ⟨[r], hb, ht, hf, fun k x hk => ?_⟩
  cases k with
  | zero => simp only [List.getElem?_cons_zero, Option.some.injEq] at hk; subst hk; exact hr
  | succ k => simp at hk

/-- What no frame changes, and what each adds: a record on the bus port for one answer used. -/
structure State.Trail (s t : State) : Prop where
  params   : t.params = s.params
  inbox    : t.inbox = s.inbox
  seq      : t.seq = s.seq
  lastErr  : t.lastErr = s.lastErr
  response : t.response = s.response
  reserved : t.reg.read Config.reservedCell = s.reg.read Config.reservedCell
  log      : State.Logged s t

theorem State.Trail.refl (s : State) : State.Trail s s := ⟨rfl, rfl, rfl, rfl, rfl, rfl, .refl s⟩

theorem State.Trail.trans {a b c : State} (h : State.Trail a b) (g : State.Trail b c) : State.Trail a c :=
  ⟨g.params.trans h.params, g.inbox.trans h.inbox, g.seq.trans h.seq, g.lastErr.trans h.lastErr,
   g.response.trans h.response, g.reserved.trans h.reserved, h.log.trans g.log⟩

theorem State.openFrame_reserved (s : State) :
    s.openFrame.reg.read Config.reservedCell = s.reg.read Config.reservedCell :=
  s.openFrame_unowned _ rfl

theorem State.regAfter_reserved (s : State) (bs : List Byte) :
    (s.regAfter bs).read Config.reservedCell = s.reg.read Config.reservedCell := by
  cases bs with
  | nil => exact s.openFrame_reserved
  | cons a data => exact (RegFile.storeAll_reserved _ _ _ _).trans s.openFrame_reserved

theorem State.trail_afterWrite (s : State) (dev : DevAddr) (bytes : List Byte) :
    State.Trail s (s.afterWrite dev bytes) := ⟨rfl, rfl, rfl, rfl, rfl, s.regAfter_reserved _, .one rfl rfl rfl rfl⟩

theorem State.trail_afterRead (s : State) (dev : DevAddr) (count : Nat) :
    State.Trail s (s.afterRead dev count) := ⟨rfl, rfl, rfl, rfl, rfl, s.openFrame_reserved, .one rfl rfl rfl rfl⟩

/-- Two register files that differ in engine-owned bits at most. -/
def State.SameUnowned (s t : State) : Prop :=
  ∀ a : Byte, t.reg.read a &&& ~~~(engineMask a) = s.reg.read a &&& ~~~(engineMask a)

theorem State.SameUnowned.refl (s : State) : State.SameUnowned s s := fun _ => rfl

theorem State.SameUnowned.trans {a b c : State} (h : State.SameUnowned a b) (g : State.SameUnowned b c) :
    State.SameUnowned a c := fun x => (g x).trans (h x)

theorem State.sameUnowned_afterRead (s : State) (dev : DevAddr) (count : Nat) :
    State.SameUnowned s (s.afterRead dev count) := s.openFrame_keeps

/-- A write frame of an address alone, or of no byte, stores nothing (R68, R130). -/
theorem State.sameUnowned_afterWrite (s : State) (dev : DevAddr) (bytes : List Byte)
    (h : bytes.length ≤ 1) : State.SameUnowned s (s.afterWrite dev bytes) := by
  have key : ∀ bs : List Byte, bs.length ≤ 1 → s.regAfter bs = s.openFrame.reg := by
    intro bs hb
    match bs, hb with
    | [], _ => rfl
    | [a], _ => rfl
  have hlen : (s.taken dev bytes).length ≤ 1 := by
    unfold State.taken
    split
    · simp; omega
    · simp
  intro a
  show (s.regAfter (s.taken dev bytes)).read a &&& _ = _
  rw [key _ hlen]
  exact s.openFrame_keeps a

/-! ## How a run ends -/

/-- How an operation of at most `n` frames, each within the transfer limits, ends: every frame answered 0 and
a value; a last frame with a nonzero status, the code raised; or a last frame that never returned. No frame
comes after one that did not end with 0 (R200, R206). -/
inductive Run.EndsAs {α : Type} (s : State) (n : Nat) : Run α → Prop
  | done (a : α) (t : State) (fs : List FrameRecord) (trail : State.Trail s t) (bus : t.bus = s.bus ++ fs)
      (few : fs.length ≤ n) (ok : ∀ r ∈ fs, r.status = some 0x00#8)
      (limits : ∀ r ∈ fs, r.frame.withinLimits = true)
      (calm : s.pending = none ∧ s.received = [] → t.pending = none ∧ t.received = []) :
      EndsAs s n (.done a t)
  | busError (c : Byte) (t : State) (fs : List FrameRecord) (last : FrameRecord) (trail : State.Trail s t)
      (bus : t.bus = s.bus ++ fs ++ [last]) (few : fs.length + 1 ≤ n) (ok : ∀ r ∈ fs, r.status = some 0x00#8)
      (limits : ∀ r ∈ fs, r.frame.withinLimits = true) (lastLimits : last.frame.withinLimits = true)
      (code : last.status = some c) (nonzero : c ≠ 0x00#8)
      (calm : s.pending = none ∧ s.received = [] → t.pending = none ∧ t.received = []) :
      EndsAs s n (.busError c t)
  | hung (t : State) (fs : List FrameRecord) (last : FrameRecord) (trail : State.Trail s t)
      (bus : t.bus = s.bus ++ fs ++ [last]) (few : fs.length + 1 ≤ n) (ok : ∀ r ∈ fs, r.status = some 0x00#8)
      (limits : ∀ r ∈ fs, r.frame.withinLimits = true) (lastLimits : last.frame.withinLimits = true)
      (never : last.status = none) : EndsAs s n (.hung t)

theorem Run.EndsAs.pure {α : Type} (s : State) (a : α) : Run.EndsAs s 0 (.done a s) :=
  .done a s [] (.refl s) (by simp) (by simp) (by simp) (by simp) id

theorem Run.EndsAs.mono {α : Type} {s : State} {n m : Nat} {r : Run α} (h : Run.EndsAs s n r) (hm : n ≤ m) :
    Run.EndsAs s m r := by
  cases h with
  | done a t fs tr b f o l c => exact .done a t fs tr b (f.trans hm) o l c
  | busError c t fs last tr b f o l ll co nz ca => exact .busError c t fs last tr b (f.trans hm) o l ll co nz ca
  | hung t fs last tr b f o l ll nv => exact .hung t fs last tr b (f.trans hm) o l ll nv

/-- One frame. -/
theorem Run.EndsAs.frame {α : Type} (s t : State) (a : α) (r : FrameRecord) (trail : State.Trail s t)
    (bus : t.bus = s.bus ++ [r]) (limits : r.frame.withinLimits = true)
    (calm : ∀ c, r.status = some c → s.pending = none ∧ s.received = [] → t.pending = none ∧ t.received = []) :
    Run.EndsAs s 1 (Run.ofStatus r.status a t) := by
  rcases Run.ofStatus_cases r.status a t with ⟨h, e⟩ | ⟨h, e⟩ | ⟨c, hc, h, e⟩
  · rw [e]; exact .hung t [] r trail (by simpa using bus) (by simp) (by simp) (by simp) limits h
  · rw [e]
    exact .done a t [r] trail bus (by simp) (by simpa using h) (by simpa using limits) (calm _ h)
  · rw [e]
    exact .busError c t [] r trail (by simpa using bus) (by simp) (by simp) (by simp) limits h hc (calm _ h)

/-- One operation after another. -/
theorem Run.EndsAs.andThen {α β : Type} {s : State} {n m : Nat} {r : Run α} {k : α → State → Run β}
    (h : Run.EndsAs s n r) (hk : ∀ a t, Run.EndsAs t m (k a t)) : Run.EndsAs s (n + m) (r.andThen k) := by
  cases h with
  | busError c t fs last tr b f o l ll co nz ca =>
    exact .busError c t fs last tr b (by omega) o l ll co nz ca
  | hung t fs last tr b f o l ll nv => exact .hung t fs last tr b (by omega) o l ll nv
  | done a t fs tr b f o l ca =>
    have h2 := hk a t
    simp only [Run.andThen_done]
    generalize k a t = r2 at h2
    have both : ∀ {P : FrameRecord → Prop} {gs : List FrameRecord}, (∀ r ∈ fs, P r) → (∀ r ∈ gs, P r) →
        ∀ r ∈ fs ++ gs, P r := fun p q r hr => (List.mem_append.mp hr).elim (p r) (q r)
    cases h2 with
    | done a2 t2 gs tr2 b2 f2 o2 l2 ca2 =>
      exact .done a2 t2 (fs ++ gs) (tr.trans tr2) (by rw [b2, b]; simp) (by simp; omega) (both o o2)
        (both l l2) (fun c => ca2 (ca c))
    | busError c2 t2 gs last tr2 b2 f2 o2 l2 ll co nz ca2 =>
      exact .busError c2 t2 (fs ++ gs) last (tr.trans tr2) (by rw [b2, b]; simp) (by simp; omega) (both o o2)
        (both l l2) ll co nz (fun c => ca2 (ca c))
    | hung t2 gs last tr2 b2 f2 o2 l2 ll nv =>
      exact .hung t2 (fs ++ gs) last (tr.trans tr2) (by rw [b2, b]; simp) (by simp; omega) (both o o2)
        (both l l2) ll nv

/-- A last step that touches no bus. -/
theorem Run.EndsAs.thenDone {α β : Type} {s : State} {n : Nat} {r : Run α} {f : α → State → β}
    (h : Run.EndsAs s n r) : Run.EndsAs s n (r.andThen fun a t => .done (f a t) t) :=
  h.andThen (m := 0) fun a t => Run.EndsAs.pure t (f a t)

/-! ## Frames, reads and writes -/

theorem State.busWrite_ends (s : State) (dev : DevAddr) (bytes : List Byte)
    (h : bytes.length ≤ Config.wrLimit + 1) : Run.EndsAs s 1 (s.busWrite dev bytes) := by
  rw [State.busWrite_eq]
  refine Run.EndsAs.frame s _ () ⟨.write dev bytes, s.answer.status, []⟩ (s.trail_afterWrite dev bytes) rfl
    (by simpa [Frame.withinLimits] using h) ?_
  intro c hc calm
  simp only at hc
  exact ⟨by simp [State.afterWrite, hc], calm.2⟩

theorem State.busRead_ends (s : State) (dev : DevAddr) (count : Nat) (h1 : 1 ≤ count)
    (h2 : count ≤ Config.rdLimit) : Run.EndsAs s 1 (s.busRead dev count) := by
  rw [State.busRead_eq]
  refine Run.EndsAs.frame s _ (s.readData dev count)
    ⟨.read dev count, s.answer.status, match s.answer.status with | none => [] | some _ => s.readData dev count⟩
    (s.trail_afterRead dev count) rfl (by simp [Frame.withinLimits, h1, h2]) ?_
  intro c hc calm
  simp only at hc
  exact ⟨calm.1, by simp [State.afterRead, hc]⟩

theorem State.memRead_ends (s : State) (addr : Byte) (n : Nat) (h1 : 1 ≤ n) (h2 : n ≤ Config.rdLimit) :
    Run.EndsAs s 2 (s.memRead addr n) :=
  (s.busWrite_ends _ [addr] (by simp)).andThen (m := 1) fun _ t => t.busRead_ends _ n h1 h2

theorem State.memReadByte_ends (s : State) (addr : Byte) : Run.EndsAs s 2 (s.memReadByte addr) :=
  (s.memRead_ends addr 1 (by simp) (by simp)).thenDone

theorem State.memWrite_ends (s : State) (addr : Byte) (data : List Byte) (h : data.length ≤ Config.wrLimit) :
    Run.EndsAs s 1 (s.memWrite addr data) :=
  s.busWrite_ends _ _ (by simp at h ⊢; omega)

end Sys2Proof.Machine
end

