-- ==== Sys2Proof/Laws/Operations.lean ====
section
/-! SUPPORT. Every instruction, whatever the environment answers: refused, or a next state made of a run of
at most four frames (spec/60_exceptions.md R202), and what a step can do. -/

namespace Sys2Proof.Machine

/-! ## Each operation is a short run of frames -/

theorem State.runReadBytes_ends (s : State) (addr : Byte) (n : Nat) (h1 : 1 ≤ n) (h2 : n ≤ Config.rdLimit) :
    Run.EndsAs s 2 (s.runReadBytes addr n) := (s.memRead_ends addr n h1 h2).thenDone

theorem State.runWriteBytes_ends (s : State) (addr : Byte) (data : List Byte)
    (h : data.length ≤ Config.wrLimit) : Run.EndsAs s 1 (s.runWriteBytes addr data) :=
  (s.memWrite_ends addr data h).thenDone

theorem State.runReadByte_ends (s : State) (addr : Byte) : Run.EndsAs s 2 (s.runReadByte addr) :=
  (s.memReadByte_ends addr).thenDone

theorem State.runProbe_ends (s : State) : Run.EndsAs s 1 s.runProbe := (s.busWrite_ends _ [] (by decide)).thenDone

theorem State.runGetTime_ends (s : State) : Run.EndsAs s 2 s.runGetTime :=
  (s.memRead_ends _ _ (by decide) (by decide)).thenDone

theorem State.runSetTime_ends (s : State) (t : CivilTime) : Run.EndsAs s 4 (s.runSetTime t) :=
  (s.memWrite_ends _ t.encode (by show 7 ≤ 31; decide)).andThen (m := 3) fun _ s1 =>
    (s1.memReadByte_ends _).andThen (m := 1) fun _ s2 => (s2.memWrite_ends _ _ (by simp)).thenDone

theorem alarmBytes_length (t : AlarmType) (seconds minutes hours dayOrDate : Byte) :
    (alarmBytes t seconds minutes hours dayOrDate).length = bif t.isAlarm1 then 4 else 3 := by
  cases t <;> rfl

theorem State.runSetAlarm_ends (s : State) (t : AlarmType) (seconds minutes hours dayOrDate : Byte) :
    Run.EndsAs s 1 (s.runSetAlarm t seconds minutes hours dayOrDate) :=
  (s.memWrite_ends _ _ (by rw [alarmBytes_length]; cases t.isAlarm1 <;> decide)).thenDone

theorem State.runSetAlarmInterrupt_ends (s : State) (channel : Byte) (enabled : Bool) :
    Run.EndsAs s 3 (s.runSetAlarmInterrupt channel enabled) :=
  (s.memReadByte_ends _).andThen (m := 1) fun _ s1 => (s1.memWrite_ends _ _ (by simp)).thenDone

theorem State.runPollAndClearAlarm_ends (s : State) (channel : Byte) :
    Run.EndsAs s 3 (s.runPollAndClearAlarm channel) := by
  refine (s.memReadByte_ends _).andThen (m := 1) fun st s1 => ?_
  cases flagSet channel st
  · exact (Run.EndsAs.pure s1 _).mono (by omega)
  · exact (s1.memWrite_ends _ _ (by simp)).thenDone

theorem State.runSetSquareWave_ends (s : State) (freq : Byte) : Run.EndsAs s 3 (s.runSetSquareWave freq) :=
  (s.memReadByte_ends _).andThen (m := 1) fun _ s1 => (s1.memWrite_ends _ _ (by simp)).thenDone

theorem State.runOscillatorStopped_ends (s : State) (clear : Bool) :
    Run.EndsAs s 3 (s.runOscillatorStopped clear) := by
  refine (s.memReadByte_ends _).andThen (m := 1) fun st s1 => ?_
  cases osfSet st && clear
  · exact (Run.EndsAs.pure s1 _).mono (by omega)
  · exact (s1.memWrite_ends _ _ (by simp)).thenDone

theorem State.runReadTemperature_ends (s : State) : Run.EndsAs s 4 s.runReadTemperature :=
  (s.memReadByte_ends _).andThen (m := 2) fun _ s1 => (s1.memReadByte_ends _).thenDone

/-! ## What an instruction can do -/

/-- Drawing a result draws, and no more (R204). -/
theorem State.drawResult_snd (s : State) (k : ResultKind) :
    ∃ d, (s.drawResult k).2 = { s with draws := d } := by
  cases k with
  | none => exact ⟨s.draws, rfl⟩
  | byte => exact ⟨_, rfl⟩
  | bytes n => exact ⟨_, s.drawBytes_snd n⟩
  | time => exact ⟨_, s.drawBytes_snd Config.clockLen⟩
  | bool => exact ⟨_, rfl⟩
  | temperature => exact ⟨_, rfl⟩

/-- The state an instruction takes up its work in. -/
abbrev State.start (s : State) : State := { s with bus := [] }

/-- What an instruction that is taken up does: a codec operation answers at once; a bare frame runs; an
operation is a run of at most four frames, then ends. -/
inductive Effect (s : State) : State → Prop
  | codec (v : Byte) : Effect s (concludeCodec v s.start)
  | frame {α : Type} (r : Run α) (ends : Run.EndsAs s.start 1 r) : Effect s (concludeFrame r)
  | operation (kind : ResultKind) (r : Run Result) (ends : Run.EndsAs s.start 4 r) : Effect s (conclude kind r)

theorem issue_hung (ok : Bool) (f : State → State) (s : State) (h : s.seq = .hung) :
    issue ok f s = .refused .commandWhileBusy := by simp [issue, h]

theorem issue_idle (ok : Bool) (f : State → State) (s : State) (h : s.seq = .idle) :
    issue ok f s = bif ok then .next (f s.start) else .refused .operandOutOfDomain := by
  cases s; simp only at h; subst h; rfl

theorem inRange_iff (lo hi : Nat) (v : Byte) : inRange lo hi v = true ↔ lo ≤ v.toNat ∧ v.toNat ≤ hi := by
  simp [inRange]

/-- An alarm type outside the closed set is outside its domain. -/
theorem alarmFieldsOk_none {type m h d : Byte} (e : AlarmType.ofCode? type = none) :
    alarmFieldsOk type m h d = false := by simp [alarmFieldsOk, e]

theorem exec_hung (i : Instr) (s : State) (h : s.seq = .hung) : exec i s = .refused .commandWhileBusy := by
  cases i
  case setAlarm type _ _ _ _ =>
    simp only [exec, execSetAlarm]; split <;> exact issue_hung _ _ s h
  case setAlarm3 type _ _ _ =>
    simp only [exec, execSetAlarm3]; split <;> exact issue_hung _ _ s h
  all_goals
    simp only [exec, execWframe, execRframe, execToBCD, execFromBCD, execReadBytes, execWriteBytes, execReadByte,
    execWriteByte, execGetTime, execSetTime, execSetAlarmInterrupt, execPollAndClearAlarm, execSetSquareWave,
    execOscillatorStopped, execReadTemperature, execReadMemory, execWriteMemory, execProbe]
    exact issue_hung _ _ s h

theorem exec_outOfDomain (i : Instr) (s : State) (h : s.seq = .idle) (hw : i.wf = false) :
    exec i s = .refused .operandOutOfDomain := by
  have key : ∀ f : State → State, issue i.wf f s = .refused .operandOutOfDomain := fun f => by
    rw [issue_idle _ _ _ h, hw]; rfl
  have key' : issue false id s = .refused .operandOutOfDomain := by rw [issue_idle _ _ _ h]; rfl
  cases i
  case setAlarm type _ _ _ _ =>
    simp only [exec, execSetAlarm]; split
    · exact key'
    · exact key _
  case setAlarm3 type _ _ _ =>
    simp only [exec, execSetAlarm3]; split
    · exact key'
    · exact key _
  all_goals
    simp only [exec, execWframe, execRframe, execToBCD, execFromBCD, execReadBytes, execWriteBytes, execReadByte,
    execWriteByte, execGetTime, execSetTime, execSetAlarmInterrupt, execPollAndClearAlarm, execSetSquareWave,
    execOscillatorStopped, execReadTemperature, execReadMemory, execWriteMemory, execProbe]
    exact key _

theorem issue_next {ok : Bool} {f : State → State} {s : State} (h : s.seq = .idle) (hok : ok = true) :
    issue ok f s = .next (f s.start) := by rw [issue_idle _ _ _ h, hok]; rfl

/-- An admitted instruction, taken up by an idle sequencer, has its effect. -/
theorem exec_effect (i : Instr) (s : State) (h : s.seq = .idle) (hw : i.wf = true) :
    ∃ t, exec i s = .next t ∧ Effect s t := by
  cases i
  case wframe dev bytes =>
    simp only [exec, execWframe]
    exact ⟨_, issue_next h hw, .frame _ (s.start.busWrite_ends dev bytes (by simpa [Instr.wf] using hw))⟩
  case rframe dev count =>
    simp only [exec, execRframe]
    have := (inRange_iff _ _ _).mp hw
    exact ⟨_, issue_next h hw, .frame _ (s.start.busRead_ends dev _ this.1 this.2)⟩
  case toBCD n =>
    simp only [exec, execToBCD]
    exact ⟨_, issue_next h hw, .codec _⟩
  case fromBCD b =>
    simp only [exec, execFromBCD]
    exact ⟨_, issue_next h hw, .codec _⟩
  case readBytes addr count =>
    simp only [exec, execReadBytes]
    have := (inRange_iff _ _ _).mp hw
    exact ⟨_, issue_next h hw, .operation _ _ ((s.start.runReadBytes_ends addr _ this.1 this.2).mono (by omega))⟩
  case writeBytes addr data =>
    simp only [exec, execWriteBytes]
    exact ⟨_, issue_next h hw, .operation _ _
      ((s.start.runWriteBytes_ends addr data (by simpa [Instr.wf, payloadOk] using hw)).mono (by omega))⟩
  case readByte addr =>
    simp only [exec, execReadByte]
    exact ⟨_, issue_next h hw, .operation _ _ ((s.start.runReadByte_ends addr).mono (by omega))⟩
  case writeByte addr value =>
    simp only [exec, execWriteByte]
    exact ⟨_, issue_next h hw, .operation _ _ ((s.start.runWriteBytes_ends addr [value] (by simp)).mono (by omega))⟩
  case getTime =>
    simp only [exec, execGetTime]
    exact ⟨_, issue_next h hw, .operation _ _ (s.start.runGetTime_ends.mono (by omega))⟩
  case setTime =>
    simp only [exec, execSetTime]
    exact ⟨_, issue_next h hw, .operation _ _ (s.start.runSetTime_ends _)⟩
  case setAlarm type sec mi hr dd =>
    have hf : alarmFieldsOk type mi hr dd = true := (Bool.and_eq_true _ _ ▸ hw :).2
    show ∃ t, execSetAlarm type sec mi hr dd s = .next t ∧ Effect s t
    unfold execSetAlarm
    cases e : AlarmType.ofCode? type with
    | none => rw [alarmFieldsOk_none e] at hf; cases hf
    | some t => exact ⟨_, issue_next h hw, .operation _ _ ((s.start.runSetAlarm_ends t _ _ _ _).mono (by omega))⟩
  case setAlarm3 type mi hr dd =>
    have hf : alarmFieldsOk type mi hr dd = true := hw
    show ∃ t, execSetAlarm3 type mi hr dd s = .next t ∧ Effect s t
    unfold execSetAlarm3
    cases e : AlarmType.ofCode? type with
    | none => rw [alarmFieldsOk_none e] at hf; cases hf
    | some t => exact ⟨_, issue_next h hw, .operation _ _ ((s.start.runSetAlarm_ends t _ _ _ _).mono (by omega))⟩
  case setAlarmInterrupt ch en =>
    simp only [exec, execSetAlarmInterrupt]
    exact ⟨_, issue_next h hw, .operation _ _ ((s.start.runSetAlarmInterrupt_ends ch _).mono (by omega))⟩
  case pollAndClearAlarm ch =>
    simp only [exec, execPollAndClearAlarm]
    exact ⟨_, issue_next h hw, .operation _ _ ((s.start.runPollAndClearAlarm_ends ch).mono (by omega))⟩
  case setSquareWave freq =>
    simp only [exec, execSetSquareWave]
    exact ⟨_, issue_next h hw, .operation _ _ ((s.start.runSetSquareWave_ends freq).mono (by omega))⟩
  case oscillatorStopped clear =>
    simp only [exec, execOscillatorStopped]
    exact ⟨_, issue_next h hw, .operation _ _ ((s.start.runOscillatorStopped_ends _).mono (by omega))⟩
  case readTemperature =>
    simp only [exec, execReadTemperature]
    exact ⟨_, issue_next h hw, .operation _ _ s.start.runReadTemperature_ends⟩
  case readMemory addr count =>
    simp only [exec, execReadMemory]
    have := (inRange_iff _ _ _).mp hw
    exact ⟨_, issue_next h hw, .operation _ _ ((s.start.runReadBytes_ends addr _ this.1 this.2).mono (by omega))⟩
  case writeMemory addr data =>
    simp only [exec, execWriteMemory]
    exact ⟨_, issue_next h hw, .operation _ _
      ((s.start.runWriteBytes_ends addr data (by simpa [Instr.wf, payloadOk] using hw)).mono (by omega))⟩
  case probe =>
    simp only [exec, execProbe]
    exact ⟨_, issue_next h hw, .operation _ _ (s.start.runProbe_ends.mono (by omega))⟩

/-- Everything `exec` can do: an instruction that answers a next state was admitted and taken up by an idle
sequencer. -/
theorem exec_next {i : Instr} {s t : State} (h : exec i s = .next t) :
    s.seq = .idle ∧ i.wf = true ∧ Effect s t := by
  cases hs : s.seq with
  | hung => rw [exec_hung i s hs] at h; cases h
  | idle =>
    cases hw : i.wf with
    | false => rw [exec_outOfDomain i s hs hw] at h; cases h
    | true =>
      obtain ⟨t', ht, he⟩ := exec_effect i s hs hw
      rw [ht] at h; cases h
      exact ⟨rfl, rfl, he⟩

/-! ## What a step can do -/

/-- Everything `step` can do when it answers a next state. -/
theorem step_next {s t : State} (h : step s = .next t) :
    (s.inbox = [] ∧ t = s) ∨
    (∃ ws rest, s.inbox = .engine ws :: rest ∧ t = { s with inbox := rest }.engineStep ws) ∨
    (∃ rest, s.inbox = .hostReset :: rest ∧ t = { s with inbox := rest }.hostReset) ∨
    (∃ p bytes rest i, s.inbox = .word p bytes :: rest ∧ decode p bytes = .ok i ∧
      exec i { s with inbox := rest } = .next t) := by
  cases hi : s.inbox with
  | nil => simp only [step, fetch, hi] at h; cases h; exact .inl ⟨rfl, rfl⟩
  | cons inp rest =>
    simp only [step, fetch, hi] at h
    cases inp with
    | engine ws => cases h; exact .inr (.inl ⟨ws, rest, rfl, rfl⟩)
    | hostReset => cases h; exact .inr (.inr (.inl ⟨rest, rfl, rfl⟩))
    | word p bytes =>
      simp only at h
      cases hd : decode p bytes with
      | error r => rw [hd] at h; cases h
      | ok i => rw [hd] at h; exact .inr (.inr (.inr ⟨p, bytes, rest, i, rfl, hd, h⟩))

end Sys2Proof.Machine
end

