-- ==== Sys2Proof/Laws/Success.lean ====
section
/-! SUPPORT. Reads and writes whose frames succeed while the engine is quiet: one closed form each
(spec/41_register_access.md R132, R133; the premises of R137 and R50). -/

namespace Sys2Proof.Machine

/-! ## The premises, frame by frame -/

theorem State.Answers.mono {s : State} {n m : Nat} (h : s.Answers n) (hm : m ≤ n) : s.Answers m :=
  fun k hk => h k (by omega)

theorem State.EngineQuiet.mono {s : State} {n m : Nat} (h : s.EngineQuiet n) (hm : m ≤ n) : s.EngineQuiet m :=
  h.imp id fun q k hk => q k (by omega)

theorem State.Answers.shift {s t : State} {n m : Nat} (h : s.Answers (n + m))
    (ht : t.transport = s.transport.drop n) (hf : t.frameCount = s.frameCount + n) : t.Answers m :=
  fun k hk => by rw [State.answerAt_shift ht hf]; exact h _ (by omega)

theorem State.EngineQuiet.shift {s t : State} {n m : Nat} (h : s.EngineQuiet (n + m))
    (hp : t.params = s.params) (ht : t.transport = s.transport.drop n)
    (hf : t.frameCount = s.frameCount + n) : t.EngineQuiet m :=
  h.imp (fun q => by rw [hp]; exact q) fun q k hk => by rw [State.answerAt_shift ht hf]; exact q _ (by omega)

/-- The premises carry over an operation of `n` frames. -/
theorem State.Ready.shift {s t : State} {n m : Nat} (h : s.Ready (n + m)) (ht : s.AfterFrames t n) :
    t.Ready m :=
  ⟨ht.seq.trans h.1, h.2.1.shift ht.transport ht.frameCount, h.2.2.shift ht.params ht.transport ht.frameCount⟩

theorem State.Ready.mono {s : State} {n m : Nat} (h : s.Ready n) (hm : m ≤ n) : s.Ready m :=
  ⟨h.1, h.2.1.mono hm, h.2.2.mono hm⟩

theorem State.EngineQuiet.first {s : State} {n : Nat} (h : s.EngineQuiet (n + 1)) :
    s.params.engine = .static ∨ s.answer.engine = [] := h.imp id fun q => q 0 (by omega)

theorem State.start_answers {s : State} {n : Nat} : s.start.Answers n ↔ s.Answers n := Iff.rfl

theorem State.start_quiet {s : State} {n : Nat} : s.start.EngineQuiet n ↔ s.EngineQuiet n := Iff.rfl

/-! ## A write frame -/

/-- The state after the write frame `W[a, data]` succeeds. -/
def State.wrote (s : State) (a : Byte) (data : List Byte) : State :=
  { s with
    reg        := RegFile.storeAll s.params s.reg a data
    ptr        := a + BitVec.ofNat 8 data.length
    pending    := none
    bus        := s.bus ++ [wroteFrame s.params.devAddr (a :: data)]
    transport  := s.transport.drop 1
    frameCount := s.frameCount + 1 }

theorem State.taken_ok {s : State} (h : s.answer.status = some 0x00#8) (bytes : List Byte) :
    s.taken s.params.devAddr bytes = bytes := by
  simp [State.taken, deliveredBytes, answerOk, h]

theorem State.busWrite_ok {s : State} (a : Byte) (data : List Byte) (h : s.answer.status = some 0x00#8)
    (q : s.params.engine = .static ∨ s.answer.engine = []) :
    s.busWrite s.params.devAddr (a :: data) = .done () (s.wrote a data) := by
  rw [State.busWrite_eq, h]
  have e : s.afterWrite s.params.devAddr (a :: data) = s.wrote a data := by
    simp only [State.afterWrite, State.taken_ok h, State.regAfter, State.ptrAfter, s.openFrame_reg_quiet q, h,
      State.wrote]
  rw [e]; rfl

theorem State.memWrite_ok {s : State} (a : Byte) (data : List Byte) (h : s.Answers 1) (q : s.EngineQuiet 1) :
    s.memWrite a data = .done () (s.wrote a data) :=
  State.busWrite_ok a data (h 0 (by omega)) q.first

theorem State.wrote_trail (s : State) (a : Byte) (data : List Byte) : s.AfterFrames (s.wrote a data) 1 :=
  ⟨rfl, rfl, rfl, fun _ => rfl, id, rfl, rfl⟩

/-! ## A read -/

/-- The state after the read `W[a]`, `R[n] -> data` succeeds. -/
def State.didRead (s : State) (a : Byte) (data : List Byte) (draws : Nat) : State :=
  { s with
    ptr        := a + BitVec.ofNat 8 data.length
    pending    := none
    received   := []
    bus        := s.bus ++ [wroteFrame s.params.devAddr [a], readFrame s.params.devAddr data]
    transport  := s.transport.drop 2
    frameCount := s.frameCount + 2
    draws      := draws }

theorem State.didRead_trail (s : State) (a : Byte) (data : List Byte) (d : Nat) :
    s.AfterFrames (s.didRead a data d) 2 :=
  ⟨rfl, rfl, rfl, fun _ => rfl, fun _ => rfl, rfl, rfl⟩

/-- A read frame that succeeds, from wherever `PTR` stands (R131). -/
theorem State.busRead_ok {s : State} (count : Nat) (h : s.answer.status = some 0x00#8)
    (q : s.params.engine = .static ∨ s.answer.engine = []) :
    ∃ data d, data.length = count ∧
      (∀ k, k < count → s.ptr + BitVec.ofNat 8 k ≠ Config.reservedCell →
        data[k]? = some (s.reg.read (s.ptr + BitVec.ofNat 8 k))) ∧
      ((∀ k, k < count → s.ptr + BitVec.ofNat 8 k ≠ Config.reservedCell) → d = s.draws) ∧
      s.busRead s.params.devAddr count = .done data
        { s with
          ptr        := s.ptr + BitVec.ofNat 8 count
          received   := []
          bus        := s.bus ++ [readFrame s.params.devAddr data]
          transport  := s.transport.drop 1
          frameCount := s.frameCount + 1
          draws      := d } := by
  have ok : answerOk s.answer = true := by simp [answerOk, h]
  have hd : s.delivered s.params.devAddr count = s.openFrame.slaveRead count := by
    simp [State.delivered, State.deliverRead, ok]
  obtain ⟨d, hs⟩ := s.openFrame.slaveRead_snd count
  have hlen : (s.readData s.params.devAddr count).length = count := s.readData_length _ _
  refine ⟨s.readData s.params.devAddr count, d, hlen, ?_, ?_, ?_⟩
  · intro k hk hr
    have := s.openFrame.slaveRead_getElem count k hk (by simpa using hr)
    rw [State.openFrame_ptr, s.openFrame_reg_quiet q] at this
    rw [← this, State.readData, hd]
  · intro hr
    have := s.openFrame.slaveRead_draws count (by simpa using hr)
    rw [hs] at this
    simpa using this
  · rw [State.busRead_eq, h]
    have e : s.afterRead s.params.devAddr count =
        { s with
          ptr        := s.ptr + BitVec.ofNat 8 count
          received   := []
          bus        := s.bus ++ [readFrame s.params.devAddr (s.readData s.params.devAddr count)]
          transport  := s.transport.drop 1
          frameCount := s.frameCount + 1
          draws      := d } := by
      simp only [State.afterRead, s.openFrame_reg_quiet q, h, hd, hs, State.openFrame_ptr, readFrame, hlen]
    rw [e]; rfl

/-- A read that succeeds returns the cells from `a` upward, but for the reserved cell (R132). -/
theorem State.memRead_ok {s : State} (a : Byte) (count : Nat) (h : s.Answers 2) (q : s.EngineQuiet 2) :
    ∃ data d, data.length = count ∧
      (∀ k, k < count → a + BitVec.ofNat 8 k ≠ Config.reservedCell →
        data[k]? = some (s.reg.read (a + BitVec.ofNat 8 k))) ∧
      ((∀ k, k < count → a + BitVec.ofNat 8 k ≠ Config.reservedCell) → d = s.draws) ∧
      s.memRead a count = .done data (s.didRead a data d) := by
  have hw := State.memWrite_ok a [] (h.mono (by omega)) (q.mono (by omega))
  have tr := s.wrote_trail a []
  have h1 : (s.wrote a []).Answers 1 := State.Answers.shift (n := 1) h tr.transport tr.frameCount
  have q1 : (s.wrote a []).EngineQuiet 1 := State.EngineQuiet.shift (n := 1) q tr.params tr.transport tr.frameCount
  have hp : (s.wrote a []).ptr = a := by simp [State.wrote]
  obtain ⟨data, d, hl, hv, hd, hr⟩ := State.busRead_ok (s := s.wrote a []) count (h1 0 (by omega)) q1.first
  refine ⟨data, d, hl, ?_, ?_, ?_⟩
  · simpa [hp, State.wrote, RegFile.storeAll] using hv
  · simpa [hp, State.wrote] using hd
  · have e : s.memRead a count = (s.memWrite a []).andThen fun _ s1 => s1.busRead s1.params.devAddr count := rfl
    rw [e, hw, Run.andThen_done, hr, hp]
    simp [State.wrote, State.didRead, RegFile.storeAll, hl, Nat.add_assoc]

/-- A single-byte read of a cell other than the reserved one (R134). -/
theorem State.memReadByte_ok {s : State} (a : Byte) (h : s.Answers 2) (q : s.EngineQuiet 2)
    (ha : a ≠ Config.reservedCell) :
    s.memReadByte a = .done (s.reg.read a) (s.didRead a [s.reg.read a] s.draws) := by
  obtain ⟨data, d, hl, hv, hd, hr⟩ := State.memRead_ok a 1 h q
  have h0 : ∀ k, k < 1 → a + BitVec.ofNat 8 k ≠ Config.reservedCell := by
    intro k hk; have : k = 0 := by omega
    subst this; simpa using ha
  have e0 := hv 0 (by omega) (h0 0 (by omega))
  have ed := hd h0
  obtain ⟨b, rfl⟩ := List.length_eq_one_iff.mp hl
  simp at e0
  subst e0 ed
  simp [State.memReadByte, hr]

end Sys2Proof.Machine
end

