-- ==== Sys2Proof/Laws/Meanings.lean ====
section
/-! SUPPORT. One equation per instruction: what an admitted one, taken up by an idle sequencer, is (the
operations of spec/41_register_access.md to spec/46_nv_memory.md). -/

namespace Sys2Proof.Machine

theorem exec_wframe {s : State} {dev : DevAddr} {bytes : List Byte} (h : s.seq = .idle)
    (hw : (Instr.wframe dev bytes).wf = true) :
    exec (.wframe dev bytes) s = .next (concludeFrame (s.start.busWrite dev bytes)) := by
  simp only [exec, execWframe]; exact issue_next h hw

theorem exec_rframe {s : State} {dev : DevAddr} {count : Byte} (h : s.seq = .idle)
    (hw : (Instr.rframe dev count).wf = true) :
    exec (.rframe dev count) s = .next (concludeFrame (s.start.busRead dev count.toNat)) := by
  simp only [exec, execRframe]; exact issue_next h hw

theorem exec_toBCD {s : State} {n : Byte} (h : s.seq = .idle) (hw : (Instr.toBCD n).wf = true) :
    exec (.toBCD n) s = .next (concludeCodec (toBcd n) s.start) := by
  simp only [exec, execToBCD]; exact issue_next h hw

theorem exec_fromBCD {s : State} {b : Byte} (h : s.seq = .idle) :
    exec (.fromBCD b) s = .next (concludeCodec (fromBcd b) s.start) := by
  simp only [exec, execFromBCD]; exact issue_next h rfl

theorem exec_readBytes {s : State} {addr count : Byte} (h : s.seq = .idle)
    (hw : (Instr.readBytes addr count).wf = true) :
    exec (.readBytes addr count) s =
      .next (conclude (.bytes count.toNat) (s.start.runReadBytes addr count.toNat)) := by
  simp only [exec, execReadBytes]; exact issue_next h hw

theorem exec_writeBytes {s : State} {addr : Byte} {data : List Byte} (h : s.seq = .idle)
    (hw : (Instr.writeBytes addr data).wf = true) :
    exec (.writeBytes addr data) s = .next (conclude .none (s.start.runWriteBytes addr data)) := by
  simp only [exec, execWriteBytes]; exact issue_next h hw

theorem exec_readByte {s : State} {addr : Byte} (h : s.seq = .idle) :
    exec (.readByte addr) s = .next (conclude .byte (s.start.runReadByte addr)) := by
  simp only [exec, execReadByte]; exact issue_next h rfl

theorem exec_writeByte {s : State} {addr value : Byte} (h : s.seq = .idle) :
    exec (.writeByte addr value) s = .next (conclude .none (s.start.runWriteBytes addr [value])) := by
  simp only [exec, execWriteByte]; exact issue_next h rfl

theorem exec_getTime {s : State} (h : s.seq = .idle) :
    exec .getTime s = .next (conclude .time s.start.runGetTime) := by
  simp only [exec, execGetTime]; exact issue_next h rfl

theorem exec_setTime {s : State} {seconds minutes hours weekday date month year : Byte} (h : s.seq = .idle)
    (hw : (Instr.setTime seconds minutes hours weekday date month year).wf = true) :
    exec (.setTime seconds minutes hours weekday date month year) s =
      .next (conclude .none (s.start.runSetTime ⟨seconds, minutes, hours, weekday, date, month, year⟩)) := by
  simp only [exec, execSetTime]; exact issue_next h hw

/-- The code of a variant stands for it, and for no other (R101). -/
theorem AlarmType.ofCode_code (t : AlarmType) : AlarmType.ofCode? t.code = some t := by cases t <;> rfl

theorem AlarmType.code_of_ofCode {c : Byte} {t : AlarmType} (h : AlarmType.ofCode? c = some t) :
    t.code = c := by
  have := List.find?_some h
  simpa using this

theorem exec_setAlarm {s : State} {t : AlarmType} {seconds minutes hours dayOrDate : Byte} (h : s.seq = .idle)
    (hw : (Instr.setAlarm t.code seconds minutes hours dayOrDate).wf = true) :
    exec (.setAlarm t.code seconds minutes hours dayOrDate) s =
      .next (conclude .none (s.start.runSetAlarm t seconds minutes hours dayOrDate)) := by
  simp only [exec, execSetAlarm, AlarmType.ofCode_code]
  exact issue_next h hw

theorem exec_setAlarm3 {s : State} {t : AlarmType} {minutes hours dayOrDate : Byte} (h : s.seq = .idle)
    (hw : (Instr.setAlarm3 t.code minutes hours dayOrDate).wf = true) :
    exec (.setAlarm3 t.code minutes hours dayOrDate) s =
      .next (conclude .none (s.start.runSetAlarm t 0x00#8 minutes hours dayOrDate)) := by
  simp only [exec, execSetAlarm3, AlarmType.ofCode_code]
  exact issue_next h hw

/-- An admitted alarm command names one of the eleven variants (R98, R101). -/
theorem alarmFieldsOk_type {type minutes hours dayOrDate : Byte}
    (h : alarmFieldsOk type minutes hours dayOrDate = true) : ∃ t : AlarmType, type = t.code := by
  cases e : AlarmType.ofCode? type with
  | none => rw [alarmFieldsOk_none e] at h; cases h
  | some t => exact ⟨t, (AlarmType.code_of_ofCode e).symm⟩

theorem exec_setAlarmInterrupt {s : State} {channel enabled : Byte} (h : s.seq = .idle)
    (hw : (Instr.setAlarmInterrupt channel enabled).wf = true) :
    exec (.setAlarmInterrupt channel enabled) s =
      .next (conclude .none (s.start.runSetAlarmInterrupt channel (enabled == 0x01#8))) := by
  simp only [exec, execSetAlarmInterrupt]; exact issue_next h hw

theorem exec_pollAndClearAlarm {s : State} {channel : Byte} (h : s.seq = .idle)
    (hw : (Instr.pollAndClearAlarm channel).wf = true) :
    exec (.pollAndClearAlarm channel) s =
      .next (conclude .bool (s.start.runPollAndClearAlarm channel)) := by
  simp only [exec, execPollAndClearAlarm]; exact issue_next h hw

theorem exec_setSquareWave {s : State} {freq : Byte} (h : s.seq = .idle)
    (hw : (Instr.setSquareWave freq).wf = true) :
    exec (.setSquareWave freq) s = .next (conclude .none (s.start.runSetSquareWave freq)) := by
  simp only [exec, execSetSquareWave]; exact issue_next h hw

theorem exec_oscillatorStopped {s : State} {clear : Byte} (h : s.seq = .idle)
    (hw : (Instr.oscillatorStopped clear).wf = true) :
    exec (.oscillatorStopped clear) s =
      .next (conclude .bool (s.start.runOscillatorStopped (clear == 0x01#8))) := by
  simp only [exec, execOscillatorStopped]; exact issue_next h hw

theorem exec_readTemperature {s : State} (h : s.seq = .idle) :
    exec .readTemperature s = .next (conclude .temperature s.start.runReadTemperature) := by
  simp only [exec, execReadTemperature]; exact issue_next h rfl

theorem exec_readMemory {s : State} {addr count : Byte} (h : s.seq = .idle)
    (hw : (Instr.readMemory addr count).wf = true) :
    exec (.readMemory addr count) s =
      .next (conclude (.bytes count.toNat) (s.start.runReadBytes addr count.toNat)) := by
  simp only [exec, execReadMemory]; exact issue_next h hw

theorem exec_writeMemory {s : State} {addr : Byte} {data : List Byte} (h : s.seq = .idle)
    (hw : (Instr.writeMemory addr data).wf = true) :
    exec (.writeMemory addr data) s = .next (conclude .none (s.start.runWriteBytes addr data)) := by
  simp only [exec, execWriteMemory]; exact issue_next h hw

theorem exec_probe {s : State} (h : s.seq = .idle) :
    exec .probe s = .next (conclude .none s.start.runProbe) := by
  simp only [exec, execProbe]; exact issue_next h rfl

/-! ## Stored payloads, cell by cell -/

/-- Byte `k` of the payload, at its cell (R21, R130). -/
theorem State.wrote_read (s : State) (addr : Byte) (data : List Byte) (h : data.length ≤ Config.nreg) (k : Nat)
    (hk : k < data.length) (hr : addr + BitVec.ofNat 8 k ≠ Config.reservedCell) :
    (s.wrote addr data).reg.read (addr + BitVec.ofNat 8 k) = s.stored (addr + BitVec.ofNat 8 k) data[k] := by
  simp only [State.wrote]
  rw [RegFile.read_storeAll _ _ _ _ _ h]
  have e : (addr + BitVec.ofNat 8 k - addr).toNat = k := by
    rw [show addr + BitVec.ofNat 8 k - addr = BitVec.ofNat 8 k by bv_omega]; simp [Config.nreg] at *; omega
  simp only [e, hk, dif_pos, Params.writeMask_other _ hr]; rfl

/-- Cells outside the payload stay. -/
theorem State.wrote_keeps (s : State) (addr : Byte) (data : List Byte) (h : data.length ≤ Config.nreg) :
    s.KeepsCellsBut (s.wrote addr data) ((List.range data.length).map fun k => addr + BitVec.ofNat 8 k) := by
  intro a ha
  simp only [State.wrote]
  rw [RegFile.read_storeAll _ _ _ _ _ h]
  split
  · next hl =>
    refine absurd (List.mem_map.mpr ⟨(a - addr).toNat, List.mem_range.mpr hl, by bv_omega⟩) ha
  · rfl

/-- The reserved cell stays (R46). -/
theorem State.wrote_reserved (s : State) (addr : Byte) (data : List Byte) :
    (s.wrote addr data).reg.read Config.reservedCell = s.reg.read Config.reservedCell :=
  RegFile.storeAll_reserved _ _ _ _

/-- A payload of one byte. -/
theorem State.wrote_one (s : State) (a v : Byte) (ha : a ≠ Config.reservedCell) :
    (s.wrote a [v]).reg.read a = s.stored a v := by
  simpa using s.wrote_read a [v] (by simp) 0 (by simp) (by simpa using ha)

theorem State.wrote_one_keeps (s : State) (a v : Byte) : s.KeepsCellsBut (s.wrote a [v]) [a] := by
  simpa using s.wrote_keeps a [v] (by simp)

/-- Under the default `WMASK` a bus write stores the byte (R21). -/
theorem State.stored_plain {s : State} (hp : s.PlainStorage) {a : Byte} (v : Byte)
    (h : a ≠ Config.reservedCell) : s.stored a v = v := by
  unfold State.stored
  rw [hp a h]
  exact mergeBits_all (s.reg.read a) v

/-- The two steps of a read-modify-write whose three frames succeed. -/
theorem State.readThenWrite_ok {s : State} (a : Byte) (h : s.Answers 3) (q : s.EngineQuiet 3)
    (ha : a ≠ Config.reservedCell) (v : Byte) :
    s.memReadByte a = .done (s.reg.read a) (s.didRead a [s.reg.read a] s.draws) ∧
    (s.didRead a [s.reg.read a] s.draws).memWrite a [v] =
      .done () ((s.didRead a [s.reg.read a] s.draws).wrote a [v]) :=
  ⟨State.memReadByte_ok a (h.mono (by omega)) (q.mono (by omega)) ha,
   State.memWrite_ok _ _ (State.Answers.shift (s := s) (n := 2) h rfl rfl)
    (State.EngineQuiet.shift (s := s) (n := 2) q rfl rfl rfl)⟩

/-! ## The codec's formulas in digits -/

theorem toBcd_packed (n : Byte) : n.toNat ≤ 99 → toBcd n = packed n := by revert n; decide

theorem fromBcd_unpacked (b : Byte) : fromBcd b = unpacked b := by revert b; decide

end Sys2Proof.Machine
end

