-- ==== Sys2Proof/Laws/Failure.lean ====
section
/-! SUPPORT. Frames that end with a nonzero status: what a write frame leaves, and how an operation ends
(spec/41_register_access.md R138, spec/60_exceptions.md R200, R204). -/

namespace Sys2Proof.Machine

/-- Whatever ends a run of frames, it keeps the trail. -/
theorem Run.EndsAs.trail {α : Type} {s : State} {n : Nat} {r : Run α} (h : Run.EndsAs s n r) :
    State.Trail s r.state := by
  cases h <;> assumption

/-- An error ends the operation: the code on the result port and in `LASTERR`, the result drawn (R200, R204). -/
theorem conclude_busError (kind : ResultKind) (c : Byte) (t : State) :
    ∃ d, conclude kind (.busError c t) =
      { t with draws := d, lastErr := c, response := some ⟨c, (t.drawResult kind).1⟩ } := by
  obtain ⟨d, hd⟩ := t.drawResult_snd kind
  exact ⟨d, by simp only [conclude, hd]⟩

/-- A write that fails leaves the first bytes of its payload stored, as many as the environment says beside the
address byte, which may not have reached the slave either (R138). -/
theorem State.memWrite_failed {s : State} {c : Byte} (addr : Byte) (data : List Byte) (hq : s.EngineQuiet 1)
    (hc : c ≠ 0x00#8) (h : (s.answerAt 0).status = some c) :
    let k := min (s.answerAt 0).applied (data.length + 1)
    ∃ t, s.memWrite addr data = .busError c t ∧ t.reg = (s.wrote addr (data.take (k - 1))).reg ∧
      (k = 0 → t.ptr = s.ptr) ∧ (0 < k → t.ptr = addr + BitVec.ofNat 8 (k - 1)) ∧
      t.bus = s.bus ++ [⟨.write s.params.devAddr (addr :: data), some c, []⟩] ∧ s.AfterFrames t 1 := by
  intro k
  have hc' : (c == 0x00#8) = false := by simpa using hc
  have h0 : s.answer.status = some c := h
  have ok : answerOk s.answer = false := by simp [answerOk, h0, hc]
  have hopen := s.openFrame_reg_quiet hq.first
  have hb : s.taken s.params.devAddr (addr :: data) = (addr :: data).take k := by
    unfold State.taken; rw [if_pos rfl, deliveredBytes, ok]; rfl
  have hk : k ≤ data.length + 1 := Nat.min_le_right _ _
  generalize k = k at hb hk
  refine ⟨s.afterWrite s.params.devAddr (addr :: data), ?_, ?_, ?_, ?_, by simp [State.afterWrite, h0],
    ⟨rfl, rfl, rfl, fun _ => by simp [State.afterWrite, h0], id, rfl, rfl⟩⟩
  · rw [State.memWrite, State.busWrite_eq, h0]; simp only [Run.ofStatus, hc', cond_false]
  · show s.regAfter (s.taken s.params.devAddr (addr :: data)) = _
    rw [hb]
    cases k with
    | zero => simp only [List.take_zero, State.regAfter, State.wrote]; rw [hopen]; simp [RegFile.storeAll]
    | succ k => simp only [List.take_succ_cons, State.regAfter, State.wrote, hopen]; simp
  · rintro rfl
    show s.ptrAfter (s.taken s.params.devAddr (addr :: data)) = _
    rw [hb]; rfl
  · intro hp
    show s.ptrAfter (s.taken s.params.devAddr (addr :: data)) = _
    rw [hb]
    cases k with
    | zero => omega
    | succ k => simp [State.ptrAfter, show min k data.length = k by omega]

end Sys2Proof.Machine
end

