-- ==== Sys2Proof/Laws/Frame.lean ====
section
/-! SUPPORT. What an operation does to the register file and to the bus port in every environment: the cells it can
store to (spec/10_state.md R50, spec/20_memory.md R62), how many frames it issues while they succeed and of which
shape (spec/20_memory.md R69, spec/60_exceptions.md R202). -/

namespace Sys2Proof.Machine

/-! ## The end of an operation changes neither -/

@[simp] theorem conclude_reg (k : ResultKind) (r : Run Result) : (conclude k r).reg = r.state.reg := by
  cases r with
  | busError c t => obtain ⟨d, h⟩ := conclude_busError k c t; rw [h]; rfl
  | _ => rfl

@[simp] theorem conclude_bus (k : ResultKind) (r : Run Result) : (conclude k r).bus = r.state.bus := by
  cases r with
  | busError c t => obtain ⟨d, h⟩ := conclude_busError k c t; rw [h]; rfl
  | _ => rfl

@[simp] theorem concludeFrame_reg {α : Type} (r : Run α) : (concludeFrame r).reg = r.state.reg := by cases r <;> rfl

@[simp] theorem concludeFrame_bus {α : Type} (r : Run α) : (concludeFrame r).bus = r.state.bus := by cases r <;> rfl

/-! ## Cells outside the ones stored to -/

/-- Outside `cells` only engine-owned bits change, and none while the engine is static (R50). -/
structure State.KeepsOutside (cells : List Byte) (s t : State) : Prop where
  params  : t.params = s.params
  unowned : ∀ a, a ∉ cells → t.reg.read a &&& ~~~(engineMask a) = s.reg.read a &&& ~~~(engineMask a)
  static  : s.params.engine = .static → ∀ a, a ∉ cells → t.reg.read a = s.reg.read a

theorem State.KeepsOutside.refl (l : List Byte) (s : State) : State.KeepsOutside l s s :=
  ⟨rfl, fun _ _ => rfl, fun _ _ _ => rfl⟩

theorem State.KeepsOutside.trans {l : List Byte} {a b c : State} (h : State.KeepsOutside l a b)
    (g : State.KeepsOutside l b c) : State.KeepsOutside l a c :=
  ⟨g.params.trans h.params, fun x hx => (g.unowned x hx).trans (h.unowned x hx),
   fun e x hx => (g.static (by rw [h.params]; exact e) x hx).trans (h.static e x hx)⟩

theorem State.KeepsOutside.mono {l m : List Byte} {s t : State} (h : State.KeepsOutside l s t)
    (hm : ∀ a ∈ l, a ∈ m) : State.KeepsOutside m s t :=
  ⟨h.params, fun a ha => h.unowned a fun hl => ha (hm a hl), fun e a ha => h.static e a fun hl => ha (hm a hl)⟩

/-- Any relation of the cells that holds where registers and parameters are equal. -/
theorem State.KeepsOutside.of_reg {l : List Byte} {s t u : State} (h : State.KeepsOutside l s t)
    (hr : u.reg = t.reg) (hp : u.params = t.params) : State.KeepsOutside l s u :=
  ⟨hp.trans h.params, by rw [hr]; exact h.unowned, by rw [hr]; exact h.static⟩

theorem State.openFrame_keepsOutside (s : State) : State.KeepsOutside [] s s.openFrame :=
  ⟨s.openFrame_params, fun a _ => s.openFrame_keeps a, fun e _ _ => by rw [s.openFrame_reg_quiet (.inl e)]⟩

theorem RegFile.storeAll_outside (p : Params) (r : RegFile) (addr a : Byte) (data : List Byte)
    (h : data.length ≤ Config.nreg) (ha : a ∉ cellsFrom addr data.length) :
    (RegFile.storeAll p r addr data).read a = r.read a := by
  rw [RegFile.read_storeAll _ _ _ _ _ h, dif_neg]
  exact fun hl => ha (List.mem_map.mpr ⟨(a - addr).toNat, List.mem_range.mpr hl, by bv_omega⟩)

theorem cellsFrom_mono (addr : Byte) {n m : Nat} (h : n ≤ m) : ∀ a ∈ cellsFrom addr n, a ∈ cellsFrom addr m := by
  intro a ha
  obtain ⟨k, hk, e⟩ := List.mem_map.mp ha
  exact List.mem_map.mpr ⟨k, List.mem_range.mpr (by have := List.mem_range.mp hk; omega), e⟩

/-- The cells a write frame's bytes may reach. -/
def frameCells : List Byte → List Byte
  | [] => []
  | addr :: data => cellsFrom addr data.length

/-- A write frame, whatever becomes of it, stores to the cells its bytes address alone. -/
theorem State.busWrite_outside (s : State) (dev : DevAddr) (bytes : List Byte)
    (h : bytes.length ≤ Config.wrLimit + 1) :
    State.KeepsOutside (frameCells bytes) s (s.busWrite dev bytes).state := by
  rw [State.busWrite_eq, Run.state_ofStatus]
  have key : ∀ bs : List Byte, bs <+: bytes → ∀ a, a ∉ frameCells bytes →
      (s.regAfter bs).read a = s.openFrame.reg.read a := by
    intro bs hb a ha
    cases bs with
    | nil => rfl
    | cons x xs =>
      obtain ⟨r, rfl⟩ := hb
      exact RegFile.storeAll_outside _ _ _ _ _ (by simp [Config.wrLimit, Config.nreg] at h ⊢; omega)
        fun hx => ha (cellsFrom_mono x (by simp) a hx)
  have hp : s.taken dev bytes <+: bytes := by
    unfold State.taken; split
    · exact List.take_prefix _ _
    · exact List.nil_prefix
  have o := s.openFrame_keepsOutside
  refine ⟨rfl, fun a ha => ?_, fun e a ha => ?_⟩
  · show (s.regAfter _).read a &&& _ = _
    rw [key _ hp a ha]; exact o.unowned a (by simp)
  · show (s.regAfter _).read a = _
    rw [key _ hp a ha]; exact o.static e a (by simp)

theorem State.busRead_outside (s : State) (dev : DevAddr) (count : Nat) (l : List Byte) :
    State.KeepsOutside l s (s.busRead dev count).state := by
  rw [State.busRead_eq, Run.state_ofStatus]
  exact (s.openFrame_keepsOutside.mono (by simp)).of_reg rfl s.openFrame_params.symm

/-- Across one micro-step and the rest. -/
theorem Run.andThen_outside {α β : Type} {l : List Byte} {s : State} {r : Run α} {k : α → State → Run β}
    (hr : State.KeepsOutside l s r.state) (hk : ∀ a t, State.KeepsOutside l t (k a t).state) :
    State.KeepsOutside l s (r.andThen k).state :=
  Run.andThen_rel (R := State.KeepsOutside l) State.KeepsOutside.trans hr fun a t _ => hk a t

theorem State.memRead_outside (s : State) (addr : Byte) (n : Nat) (l : List Byte) :
    State.KeepsOutside l s (s.memRead addr n).state :=
  Run.andThen_outside ((s.busWrite_outside _ [addr] (by simp)).mono (by simp [frameCells]))
    fun _ t => t.busRead_outside _ n l

theorem State.memReadByte_outside (s : State) (addr : Byte) (l : List Byte) :
    State.KeepsOutside l s (s.memReadByte addr).state :=
  Run.andThen_outside (s.memRead_outside addr 1 l) fun _ t => .refl l t

theorem State.memWrite_outside (s : State) (addr : Byte) (data : List Byte) (h : data.length ≤ Config.wrLimit)
    {l : List Byte} (hl : ∀ a ∈ cellsFrom addr data.length, a ∈ l) :
    State.KeepsOutside l s (s.memWrite addr data).state :=
  (s.busWrite_outside _ (addr :: data) (by simpa using h)).mono hl

/-- A bit the engine does not own, of a cell outside the ones stored to, stays. -/
theorem State.KeepsOutside.bit {l : List Byte} {s t : State} (h : State.KeepsOutside l s t) {a : Byte}
    (ha : a ∉ l) {k : Nat} (hk : (engineMask a).getLsbD k = false) (h8 : k < 8) :
    (t.reg.read a).getLsbD k = (s.reg.read a).getLsbD k := by
  have := congrArg (fun v : Byte => v.getLsbD k) (h.unowned a ha)
  simp only [BitVec.getLsbD_and, BitVec.getLsbD_not, hk, h8, decide_true, Bool.not_false, Bool.and_true] at this
  exact this

/-! ## What a one-byte read returns -/

/-- The byte a successful one-byte read returns is the cell's as the read leaves it, the engine's changes before
its frames among it (R134). -/
theorem State.memReadByte_value {s t : State} {a v : Byte} (ha : a ≠ Config.reservedCell)
    (h : s.memReadByte a = .done v t) : v = t.reg.read a := by
  unfold State.memReadByte State.memRead at h
  rw [State.busWrite_eq] at h
  rcases Run.ofStatus_cases s.answer.status () (s.afterWrite s.params.devAddr [a]) with
    ⟨_, e⟩ | ⟨hok, e⟩ | ⟨c, _, _, e⟩
  · rw [e] at h; cases h
  · rw [e] at h
    simp only [Run.andThen_done] at h
    have hp : (s.afterWrite s.params.devAddr [a]).ptr = a := by
      show s.ptrAfter (s.taken s.params.devAddr [a]) = a
      rw [State.taken_ok hok]; simp [State.ptrAfter]
    generalize s.afterWrite s.params.devAddr [a] = q at h hp
    rw [State.busRead_eq] at h
    rcases Run.ofStatus_cases q.answer.status (q.readData q.params.devAddr 1) (q.afterRead q.params.devAddr 1) with
      ⟨_, e⟩ | ⟨hok, e⟩ | ⟨c, _, _, e⟩
    · rw [e] at h; cases h
    · rw [e] at h
      simp only [Run.andThen_done] at h
      cases h
      have hd : q.readData q.params.devAddr 1 = (q.openFrame.slaveRead 1).1 := by
        simp [State.readData, State.delivered, State.deliverRead, answerOk, hok]
      have := q.openFrame.slaveRead_getElem 1 0 (by omega) (by simpa [hp] using ha)
      show (q.readData q.params.devAddr 1).headD 0x00#8 = q.openFrame.reg.read a
      rw [hd]
      simp only [State.openFrame_ptr, hp, BitVec.add_zero] at this
      cases hl : (q.openFrame.slaveRead 1).1 with
      | nil => rw [hl] at this; simp at this
      | cons b bs => rw [hl] at this; simpa using this
    · rw [e] at h; cases h
  · rw [e] at h; cases h

/-! ## How many frames, of which shape -/

/-- A run that goes on has issued at least `n` frames. -/
def Run.AtLeast {α : Type} (s : State) (n : Nat) (r : Run α) : Prop :=
  ∀ a t, r = .done a t → s.bus.length + n ≤ t.bus.length

/-- Frames shaped as the first ones of `l`, each within the limits, all of `l` if the run goes on. -/
def Run.Issues {α : Type} (s : State) (l : List FrameShape) (r : Run α) : Prop :=
  ∃ fs, r.state.bus = s.bus ++ fs ∧ (fs.map fun x => x.frame.shape) <+: l ∧
    ∀ a t, r = .done a t → (fs.map fun x => x.frame.shape) = l

/-- The same, but a run that goes on may have issued fewer. -/
def Run.IssuesSome {α : Type} (s : State) (l : List FrameShape) (r : Run α) : Prop :=
  ∃ fs, r.state.bus = s.bus ++ fs ∧ (fs.map fun x => x.frame.shape) <+: l

theorem Run.Issues.toSome {α : Type} {s : State} {l : List FrameShape} {r : Run α} (h : Run.Issues s l r) :
    Run.IssuesSome s l r := by obtain ⟨fs, hb, hp, _⟩ := h; exact ⟨fs, hb, hp⟩

theorem Run.Issues.atLeast {α : Type} {s : State} {l : List FrameShape} {r : Run α} (h : Run.Issues s l r) :
    Run.AtLeast s l.length r := by
  rintro a t rfl
  obtain ⟨fs, hb, _, hd⟩ := h
  have := congrArg List.length (hd a t rfl)
  simp only [Run.state] at hb
  rw [hb]; simp at this ⊢; omega

theorem Run.Issues.pure {α : Type} (s : State) (a : α) : Run.Issues s [] (.done a s) :=
  ⟨[], by simp [Run.state], by simp, fun _ _ _ => rfl⟩

theorem Run.IssuesSome.pure {α : Type} (s : State) (a : α) (l : List FrameShape) :
    Run.IssuesSome s l (.done a s) := ⟨[], by simp [Run.state], by simp⟩

theorem Run.Issues.thenSome {α β : Type} {s : State} {l m : List FrameShape} {r : Run α} {k : α → State → Run β}
    (h : Run.Issues s l r) (hk : ∀ a t, Run.IssuesSome t m (k a t)) :
    Run.IssuesSome s (l ++ m) (r.andThen k) := by
  obtain ⟨fs, hb, hp, hd⟩ := h
  cases r with
  | done a t =>
    obtain ⟨gs, gb, gp⟩ := hk a t
    refine ⟨fs ++ gs, by simp only [Run.andThen_done]; rw [gb, show t.bus = _ from hb]; simp, ?_⟩
    rw [List.map_append, hd a t rfl]; exact (List.prefix_append_right_inj l).mpr gp
  | busError c t => exact ⟨fs, hb, hp.trans (List.prefix_append l m)⟩
  | hung t => exact ⟨fs, hb, hp.trans (List.prefix_append l m)⟩

theorem Run.Issues.andThen {α β : Type} {s : State} {l m : List FrameShape} {r : Run α} {k : α → State → Run β}
    (h : Run.Issues s l r) (hk : ∀ a t, Run.Issues t m (k a t)) : Run.Issues s (l ++ m) (r.andThen k) := by
  obtain ⟨fs, hb, hp, hd⟩ := h
  cases r with
  | done a t =>
    obtain ⟨gs, gb, gp, gd⟩ := hk a t
    refine ⟨fs ++ gs, by simp only [Run.andThen_done]; rw [gb, show t.bus = _ from hb]; simp, ?_, ?_⟩
    · rw [List.map_append, hd a t rfl]; exact (List.prefix_append_right_inj l).mpr gp
    · intro b u e; rw [List.map_append, hd a t rfl, gd b u e]
  | busError c t => exact ⟨fs, hb, hp.trans (List.prefix_append l m), fun _ _ e => nomatch e⟩
  | hung t => exact ⟨fs, hb, hp.trans (List.prefix_append l m), fun _ _ e => nomatch e⟩

theorem Run.Issues.thenDone {α β : Type} {s : State} {l : List FrameShape} {r : Run α} {f : α → State → β}
    (h : Run.Issues s l r) : Run.Issues s l (r.andThen fun a t => .done (f a t) t) := by
  simpa using h.andThen (m := []) fun a t => Run.Issues.pure t (f a t)

theorem State.busWrite_issues (s : State) (dev : DevAddr) (bytes : List Byte) :
    Run.Issues s [(Frame.write dev bytes).shape] (s.busWrite dev bytes) :=
  ⟨[⟨.write dev bytes, s.answer.status, []⟩], by rw [State.busWrite_eq, Run.state_ofStatus]; rfl, by simp,
    fun _ _ _ => rfl⟩

theorem State.busRead_issues (s : State) (dev : DevAddr) (count : Nat) :
    Run.Issues s [.read count] (s.busRead dev count) :=
  ⟨[⟨.read dev count, s.answer.status, match s.answer.status with | none => [] | some _ => s.readData dev count⟩],
    by rw [State.busRead_eq, Run.state_ofStatus]; rfl, by simp [Frame.shape], fun _ _ _ => rfl⟩

theorem State.memRead_issues (s : State) (addr : Byte) (n : Nat) :
    Run.Issues s [.write addr 0, .read n] (s.memRead addr n) :=
  (s.busWrite_issues _ [addr]).andThen fun _ t => t.busRead_issues _ n

theorem State.memReadByte_issues (s : State) (addr : Byte) :
    Run.Issues s [.write addr 0, .read 1] (s.memReadByte addr) := (s.memRead_issues addr 1).thenDone

theorem State.memWrite_issues (s : State) (addr : Byte) (data : List Byte) :
    Run.Issues s [.write addr data.length] (s.memWrite addr data) := s.busWrite_issues _ (addr :: data)

/-! ## The composite operations -/

/-- A last write frame with its answer. -/
theorem State.memWrite_thenIssues {α : Type} (s : State) (addr : Byte) (data : List Byte) (v : α) :
    Run.Issues s [.write addr data.length] ((s.memWrite addr data).andThen fun _ t => .done v t) :=
  (s.memWrite_issues addr data).thenDone (f := fun _ _ => v)

theorem State.memWrite_thenOutside {α : Type} (s : State) (addr : Byte) (data : List Byte) (v : α)
    (h : data.length ≤ Config.wrLimit) {l : List Byte} (hl : ∀ a ∈ cellsFrom addr data.length, a ∈ l) :
    State.KeepsOutside l s ((s.memWrite addr data).andThen fun _ t => .done v t).state :=
  Run.andThen_outside (s.memWrite_outside addr data h hl) fun _ t => .refl l t

theorem State.runSetTime_issues (s : State) (t : CivilTime) : Run.Issues s
    [.write 0x00#8 7, .write 0x0F#8 0, .read 1, .write 0x0F#8 1] (s.runSetTime t) :=
  (s.memWrite_issues Config.clockBase t.encode).andThen (m := [.write 0x0F#8 0, .read 1, .write 0x0F#8 1])
    fun _ s1 => (s1.memReadByte_issues Config.status).andThen (m := [.write 0x0F#8 1])
      fun st s2 => s2.memWrite_thenIssues Config.status [clearOsf st] _

theorem State.runSetTime_outside (s : State) (t : CivilTime) : State.KeepsOutside
    [0x00#8, 0x01#8, 0x02#8, 0x03#8, 0x04#8, 0x05#8, 0x06#8, 0x0F#8] s (s.runSetTime t).state := by
  refine Run.andThen_outside (s.memWrite_outside Config.clockBase t.encode (by show 7 ≤ 31; omega) ?_) fun _ s1 =>
    Run.andThen_outside (s1.memReadByte_outside Config.status _) fun st s2 =>
      s2.memWrite_thenOutside Config.status [clearOsf st] _ (by simp) ?_
  · show ∀ a ∈ cellsFrom 0x00#8 7, _; decide
  · show ∀ a ∈ cellsFrom 0x0F#8 1, _; decide

theorem State.runSetAlarm_issues (s : State) (t : AlarmType) (seconds minutes hours dayOrDate : Byte) : Run.Issues s
    (if t.code.getLsbD 7 then [.write 0x0B#8 3] else [.write 0x07#8 4])
    (s.runSetAlarm t seconds minutes hours dayOrDate) := by
  have h := s.memWrite_thenIssues (alarmBase t) (alarmBytes t seconds minutes hours dayOrDate) Result.none
  rw [alarmBytes_length] at h
  cases t <;> exact h

theorem State.runSetAlarm_outside (s : State) (t : AlarmType) (seconds minutes hours dayOrDate : Byte) :
    State.KeepsOutside (Instr.setAlarm3 t.code minutes hours dayOrDate).targets s
      (s.runSetAlarm t seconds minutes hours dayOrDate).state := by
  refine s.memWrite_thenOutside _ _ _ (by rw [alarmBytes_length]; cases t <;> decide) ?_
  rw [alarmBytes_length]
  show ∀ a ∈ _, a ∈ (if t.code.getLsbD 7 then _ else _)
  cases t <;> decide

theorem State.runSetAlarmInterrupt_issues (s : State) (channel : Byte) (enabled : Bool) :
    Run.Issues s [.write 0x0E#8 0, .read 1, .write 0x0E#8 1] (s.runSetAlarmInterrupt channel enabled) :=
  (s.memReadByte_issues Config.control).andThen (m := [.write 0x0E#8 1]) fun _ s1 => s1.memWrite_thenIssues _ [_] _

theorem State.runSetAlarmInterrupt_outside (s : State) (channel : Byte) (enabled : Bool) :
    State.KeepsOutside [0x0E#8] s (s.runSetAlarmInterrupt channel enabled).state :=
  Run.andThen_outside (s.memReadByte_outside Config.control _) fun _ s1 =>
    s1.memWrite_thenOutside Config.control [_] _ (by simp) (by simp)

theorem State.runSetSquareWave_issues (s : State) (freq : Byte) :
    Run.Issues s [.write 0x0E#8 0, .read 1, .write 0x0E#8 1] (s.runSetSquareWave freq) :=
  (s.memReadByte_issues Config.control).andThen (m := [.write 0x0E#8 1]) fun _ s1 => s1.memWrite_thenIssues _ [_] _

theorem State.runSetSquareWave_outside (s : State) (freq : Byte) :
    State.KeepsOutside [0x0E#8] s (s.runSetSquareWave freq).state :=
  Run.andThen_outside (s.memReadByte_outside Config.control _) fun _ s1 =>
    s1.memWrite_thenOutside Config.control [_] _ (by simp) (by simp)

theorem State.runReadTemperature_issues (s : State) :
    Run.Issues s [.write 0x12#8 0, .read 1, .write 0x11#8 0, .read 1] s.runReadTemperature :=
  (s.memReadByte_issues Config.tempLsb).andThen (m := [.write 0x11#8 0, .read 1]) fun _ s1 =>
    (s1.memReadByte_issues Config.tempMsb).thenDone

/-- A read of a byte, then a write of it on a condition: how `pollAndClearAlarm` and `oscillatorStopped` go on. -/
theorem State.conditionalWrite (s : State) (b : Bool) (addr v : Byte) (x y : Result) :
    let r : Run Result :=
      bif b then (s.memWrite addr [v]).andThen fun _ t => .done x t else .done y s
    Run.IssuesSome s [.write addr 1] r ∧ Run.AtLeast s 0 r ∧ (b = true → Run.AtLeast s 1 r) ∧
      State.KeepsOutside [addr] s r.state := by
  have hi := s.memWrite_thenIssues addr [v] x
  cases b with
  | false =>
    exact ⟨.pure s y _, fun a t e => (by cases e; exact Nat.le_refl _), fun e => (nomatch e), .refl _ s⟩
  | true =>
    exact ⟨hi.toSome, fun a t e => (by have := hi.atLeast a t e; omega), fun _ => hi.atLeast,
      s.memWrite_thenOutside addr [v] x (by simp) (by simp)⟩

theorem Run.AtLeast.andThen {α β : Type} {s : State} {n m : Nat} {r : Run α} {k : α → State → Run β}
    (h : Run.AtLeast s n r) (hk : ∀ a t, r = .done a t → Run.AtLeast t m (k a t)) :
    Run.AtLeast s (n + m) (r.andThen k) := by
  intro b u e
  cases r with
  | done a t => have := h a t rfl; have := hk a t rfl b u e; omega
  | busError c t => cases e
  | hung t => cases e

end Sys2Proof.Machine
end

