-- ==== Sys2Proof/Laws/PerInstr.lean ====
section
/-! SUPPORT. Families of facts stated for every instruction, one lemma per constructor. -/

namespace Sys2Proof.Laws

/-- The word of an admitted instruction, as spec/30_encoding.md lays it out: a command word opens with one of
the eighteen opcodes and has the length R97 and R99 give it; a frame's head byte is followed by at most 32 bytes,
a read frame's by one (R91, R92, R93). -/
def OpcodeTable.Statement (i : Instr) : Prop :=
  i.wf = true → ∃ head rest, (encode i).2 = head :: rest ∧
    match (encode i).1 with
    | .command => head.toNat ≤ 0x11 ∧
        commandLength head.toNat (rest.getD 1 0x00#8).toNat = some (encode i).2.length
    | .bus => rest.length ≤ Config.rdLimit ∧ (head.getLsbD 0 = true → rest.length = 1)

/-- A command word of fixed length. -/
theorem OpcodeTable.fixed {i : Instr} {head : Byte} {rest : List Byte} (he : encode i = (.command, head :: rest))
    (ho : head.toNat ≤ 0x11)
    (hl : commandLength head.toNat (rest.getD 1 0x00#8).toNat = some (rest.length + 1)) :
    OpcodeTable.Statement i := by
  intro _
  rw [he]
  exact ⟨head, rest, rfl, ho, hl⟩

/-- A burst write's word: three bytes and the payload its count byte announces (R99). -/
theorem OpcodeTable.burst {i : Instr} {head addr : Byte} {data : List Byte}
    (he : encode i = (.command, head :: encodePayload addr data))
    (hw : i.wf = true → data.length ≤ Config.wrLimit) (ho : head = 0x03#8 ∨ head = 0x10#8) :
    OpcodeTable.Statement i := by
  intro h
  have hd : data.length ≤ 31 := hw h
  rw [he]
  refine ⟨head, _, rfl, by rcases ho with rfl | rfl <;> decide, ?_⟩
  have hn : (BitVec.ofNat 8 data.length).toNat = data.length := by simp; omega
  have : commandLength head.toNat data.length = some (3 + data.length) := by rcases ho with rfl | rfl <;> rfl
  simp only [encodePayload, List.getD_cons_succ, List.getD_cons_zero, hn, this, List.length_cons]
  congr 1
  omega

theorem OpcodeTable.wframe (dev : DevAddr) (bytes : List Byte) :
    OpcodeTable.Statement (.wframe dev bytes) := by
  intro h
  refine ⟨_, _, rfl, by simpa [Instr.wf] using h, fun hb => ?_⟩
  rw [frameHead_rw] at hb
  exact absurd hb (by decide)

theorem OpcodeTable.rframe (dev : DevAddr) (count : Byte) :
    OpcodeTable.Statement (.rframe dev count) := fun _ => ⟨_, _, rfl, Nat.le_of_ble_eq_true rfl, fun _ => rfl⟩

theorem OpcodeTable.toBCD (n : Byte) :
    OpcodeTable.Statement (.toBCD n) :=
  OpcodeTable.fixed rfl (by decide) rfl

theorem OpcodeTable.fromBCD (b : Byte) :
    OpcodeTable.Statement (.fromBCD b) :=
  OpcodeTable.fixed rfl (by decide) rfl

theorem OpcodeTable.readBytes (addr count : Byte) :
    OpcodeTable.Statement (.readBytes addr count) :=
  OpcodeTable.fixed rfl (by decide) rfl

theorem OpcodeTable.writeBytes (addr : Byte) (data : List Byte) :
    OpcodeTable.Statement (.writeBytes addr data) :=
  OpcodeTable.burst rfl (fun h => by simpa [Instr.wf, payloadOk] using h) (.inl rfl)

theorem OpcodeTable.readByte (addr : Byte) :
    OpcodeTable.Statement (.readByte addr) :=
  OpcodeTable.fixed rfl (by decide) rfl

theorem OpcodeTable.writeByte (addr value : Byte) :
    OpcodeTable.Statement (.writeByte addr value) :=
  OpcodeTable.fixed rfl (by decide) rfl

theorem OpcodeTable.getTime :
    OpcodeTable.Statement .getTime :=
  OpcodeTable.fixed rfl (by decide) rfl

theorem OpcodeTable.setTime (seconds minutes hours weekday date month year : Byte) :
    OpcodeTable.Statement (.setTime seconds minutes hours weekday date month year) :=
  OpcodeTable.fixed rfl (by decide) rfl

theorem OpcodeTable.setAlarm (type seconds minutes hours dayOrDate : Byte) :
    OpcodeTable.Statement (.setAlarm type seconds minutes hours dayOrDate) :=
  OpcodeTable.fixed rfl (by decide) rfl

theorem OpcodeTable.setAlarm3 (type minutes hours dayOrDate : Byte) :
    OpcodeTable.Statement (.setAlarm3 type minutes hours dayOrDate) :=
  OpcodeTable.fixed rfl (by decide) rfl

theorem OpcodeTable.setAlarmInterrupt (channel enabled : Byte) :
    OpcodeTable.Statement (.setAlarmInterrupt channel enabled) :=
  OpcodeTable.fixed rfl (by decide) rfl

theorem OpcodeTable.pollAndClearAlarm (channel : Byte) :
    OpcodeTable.Statement (.pollAndClearAlarm channel) :=
  OpcodeTable.fixed rfl (by decide) rfl

theorem OpcodeTable.setSquareWave (freq : Byte) :
    OpcodeTable.Statement (.setSquareWave freq) :=
  OpcodeTable.fixed rfl (by decide) rfl

theorem OpcodeTable.oscillatorStopped (clear : Byte) :
    OpcodeTable.Statement (.oscillatorStopped clear) :=
  OpcodeTable.fixed rfl (by decide) rfl

theorem OpcodeTable.readTemperature :
    OpcodeTable.Statement .readTemperature :=
  OpcodeTable.fixed rfl (by decide) rfl

theorem OpcodeTable.readMemory (addr count : Byte) :
    OpcodeTable.Statement (.readMemory addr count) :=
  OpcodeTable.fixed rfl (by decide) rfl

theorem OpcodeTable.writeMemory (addr : Byte) (data : List Byte) :
    OpcodeTable.Statement (.writeMemory addr data) :=
  OpcodeTable.burst rfl (fun h => by simpa [Instr.wf, payloadOk] using h) (.inr rfl)

theorem OpcodeTable.probe :
    OpcodeTable.Statement .probe :=
  OpcodeTable.fixed rfl (by decide) rfl

end Sys2Proof.Laws
end

