-- ==== Sys2Proof/Tests/Slice0.lean ====
section
/-! SUPPORT. Checks of the model on small states. Expected values are those of the spec: its worked examples
and vectors (spec/95_test_vectors.md V1 to V13, P1 to P4, and the examples of the rules). -/

open Sys2Proof Sys2Proof.Machine

namespace Sys2Proof.Tests

/-! ## A small device -/

/-- A frame that ends with status 0 while the engine is quiet. -/
def ok : FrameAnswer := ⟨[], some 0x00#8, 0⟩

/-- A frame that ends with status `c` after `k` of its bytes were applied. -/
def failing (c : Byte) (k : Nat) : FrameAnswer := ⟨[], some c, k⟩

/-- A frame that never returns. -/
def never : FrameAnswer := ⟨[], none, 0⟩

/-- The device at 0x68 with these cells, the others 0, `PTR = 0x55`, the engine static, and these answers. -/
def device (cells : List (Byte × Byte)) (answers : List FrameAnswer) : State :=
  { State.reset with
    reg       := cells.foldl (fun r c => r.write c.1 c.2) (RegFile.ofFun fun _ => 0x00#8)
    ptr       := 0x55#8
    transport := answers
    params    := ⟨0x68#7, .static, RegFile.ofFun fun _ => 0xFF#8⟩ }

/-- The same device with an engine that acts. -/
def liveDevice (cells : List (Byte × Byte)) (answers : List FrameAnswer) : State :=
  { device cells answers with params := { (device cells answers).params with engine := .free } }

/-- The device with its sequencer stuck. -/
def stuck : State := { device [] [] with seq := .hung }

/-- What `f` says of the state the instruction leaves. -/
def after {α : Type} (i : Instr) (s : State) (f : State → α) : Option α :=
  match exec i s with
  | .next t => some (f t)
  | .fault _ => none
  | .refused _ => none

/-- The cells at these addresses. -/
def cellsAt (t : State) (addrs : List Byte) : List Byte := addrs.map t.reg.read

/-- The frame `W[bytes]`. -/
def w (bytes : List Byte) : FrameRecord := wroteFrame 0x68#7 bytes

/-- The frame `R[n] -> data`. -/
def r (data : List Byte) : FrameRecord := readFrame 0x68#7 data

/-! ## WellFormed: an ill-formed term for each check, beside the nearest admitted one (V13, R98) -/

theorem test_wf_frames :
    (Instr.wframe 0x68#7 (List.replicate 33 0x00#8)).wf = false ∧
    (Instr.wframe 0x68#7 (List.replicate 32 0x00#8)).wf = true ∧
    (Instr.rframe 0x68#7 0#8).wf = false ∧ (Instr.rframe 0x68#7 33#8).wf = false ∧
    (Instr.rframe 0x68#7 1#8).wf = true ∧ (Instr.rframe 0x68#7 32#8).wf = true := by decide

theorem test_wf_codec : (Instr.toBCD 100#8).wf = false ∧ (Instr.toBCD 99#8).wf = true ∧
    (Instr.fromBCD 0xFF#8).wf = true := by decide

theorem test_wf_reads :
    (Instr.readBytes 0x00#8 0#8).wf = false ∧ (Instr.readBytes 0x00#8 33#8).wf = false ∧
    (Instr.readBytes 0x00#8 1#8).wf = true ∧ (Instr.readBytes 0x00#8 32#8).wf = true ∧
    (Instr.readMemory 0x14#8 0#8).wf = false ∧ (Instr.readMemory 0x14#8 33#8).wf = false ∧
    (Instr.readMemory 0x14#8 32#8).wf = true := by decide

theorem test_wf_writes :
    (Instr.writeBytes 0x14#8 (List.replicate 32 0x00#8)).wf = false ∧
    (Instr.writeBytes 0x14#8 (List.replicate 31 0x00#8)).wf = true ∧ (Instr.writeBytes 0x14#8 []).wf = true ∧
    (Instr.writeMemory 0x14#8 (List.replicate 32 0x00#8)).wf = false ∧
    (Instr.writeMemory 0x14#8 (List.replicate 31 0x00#8)).wf = true := by decide

theorem test_wf_setTime :
    (Instr.setTime 60#8 0#8 0#8 1#8 1#8 1#8 0#8).wf = false ∧ (Instr.setTime 0#8 60#8 0#8 1#8 1#8 1#8 0#8).wf = false ∧
    (Instr.setTime 0#8 0#8 24#8 1#8 1#8 1#8 0#8).wf = false ∧ (Instr.setTime 0#8 0#8 0#8 0#8 1#8 1#8 0#8).wf = false ∧
    (Instr.setTime 0#8 0#8 0#8 8#8 1#8 1#8 0#8).wf = false ∧ (Instr.setTime 0#8 0#8 0#8 1#8 0#8 1#8 0#8).wf = false ∧
    (Instr.setTime 0#8 0#8 0#8 1#8 32#8 1#8 0#8).wf = false ∧ (Instr.setTime 0#8 0#8 0#8 1#8 1#8 0#8 0#8).wf = false ∧
    (Instr.setTime 0#8 0#8 0#8 1#8 1#8 13#8 0#8).wf = false ∧ (Instr.setTime 0#8 0#8 0#8 1#8 1#8 1#8 100#8).wf = false ∧
    (Instr.setTime 0#8 0#8 0#8 1#8 1#8 1#8 0#8).wf = true ∧
    (Instr.setTime 59#8 59#8 23#8 7#8 31#8 12#8 99#8).wf = true := by decide

theorem test_wf_alarms :
    (Instr.setAlarm 0x0D#8 0#8 0#8 0#8 1#8).wf = false ∧ (Instr.setAlarm 0x0C#8 0#8 0#8 0#8 1#8).wf = true ∧
    (Instr.setAlarm 0x10#8 0#8 0#8 0#8 8#8).wf = false ∧ (Instr.setAlarm 0x10#8 0#8 0#8 0#8 7#8).wf = true ∧
    (Instr.setAlarm 0x0E#8 60#8 0#8 0#8 1#8).wf = false ∧ (Instr.setAlarm 0x8C#8 60#8 0#8 0#8 1#8).wf = true ∧
    (Instr.setAlarm 0x00#8 0#8 60#8 0#8 1#8).wf = false ∧ (Instr.setAlarm 0x00#8 0#8 0#8 24#8 1#8).wf = false ∧
    (Instr.setAlarm 0x00#8 0#8 0#8 0#8 0#8).wf = false ∧ (Instr.setAlarm 0x00#8 0#8 0#8 0#8 32#8).wf = false ∧
    (Instr.setAlarm3 0x0D#8 0#8 0#8 1#8).wf = false ∧ (Instr.setAlarm3 0x90#8 0#8 0#8 8#8).wf = false ∧
    (Instr.setAlarm3 0x80#8 59#8 23#8 31#8).wf = true := by decide

theorem test_wf_channels_and_flags :
    (Instr.pollAndClearAlarm 0#8).wf = false ∧ (Instr.pollAndClearAlarm 3#8).wf = false ∧
    (Instr.pollAndClearAlarm 1#8).wf = true ∧ (Instr.pollAndClearAlarm 2#8).wf = true ∧
    (Instr.setAlarmInterrupt 3#8 1#8).wf = false ∧ (Instr.setAlarmInterrupt 1#8 2#8).wf = false ∧
    (Instr.setSquareWave 5#8).wf = false ∧ (Instr.setSquareWave 4#8).wf = true ∧
    (Instr.oscillatorStopped 2#8).wf = false ∧ (Instr.oscillatorStopped 1#8).wf = true := by decide

/-! ## Decoding: each constructor by a word written out from R91 to R93, R97, R99, R101 -/

/-- The wire bytes `D0 14 DE AD`: head `1101000` and `rw = 0`, then address and payload (V3, R93). -/
theorem test_decode_wframe :
    decode .bus [0b11010000#8, 0x14#8, 0xDE#8, 0xAD#8] = .ok (.wframe 0x68#7 [0x14#8, 0xDE#8, 0xAD#8]) ∧
    decode .bus [0xD0#8] = .ok (.wframe 0x68#7 []) := by decide

theorem test_decode_rframe : decode .bus [0b11010001#8, 0x07#8] = .ok (.rframe 0x68#7 7#8) := by decide
theorem test_decode_toBCD : decode .command [0x00#8, 0x3B#8] = .ok (.toBCD 59#8) := by decide
theorem test_decode_fromBCD : decode .command [0x01#8, 0x59#8] = .ok (.fromBCD 0x59#8) := by decide
theorem test_decode_readBytes : decode .command [0x02#8, 0x0F#8, 0x01#8] = .ok (.readBytes 0x0F#8 1#8) := by decide
theorem test_decode_writeBytes :
    decode .command [0x03#8, 0x14#8, 0x02#8, 0xDE#8, 0xAD#8] = .ok (.writeBytes 0x14#8 [0xDE#8, 0xAD#8]) ∧
    decode .command [0x03#8, 0x14#8, 0x02#8, 0xDE#8] = .error .wrongLength := by decide
theorem test_decode_readByte : decode .command [0x04#8, 0x0E#8] = .ok (.readByte 0x0E#8) := by decide
theorem test_decode_writeByte : decode .command [0x05#8, 0x02#8, 0x48#8] = .ok (.writeByte 0x02#8 0x48#8) := by decide
theorem test_decode_getTime : decode .command [0x06#8] = .ok .getTime := by decide
/-- P1, step 1. -/
theorem test_decode_setTime : decode .command [0x07#8, 0x1E#8, 0x0F#8, 0x08#8, 0x02#8, 0x1D#8, 0x02#8, 0x18#8]
    = .ok (.setTime 30#8 15#8 8#8 2#8 29#8 2#8 24#8) := by decide
/-- P2, step 1: `A1_MATCH_HOURS`. -/
theorem test_decode_setAlarm : decode .command [0x08#8, 0x08#8, 0x00#8, 0x1E#8, 0x07#8, 0x01#8]
    = .ok (.setAlarm AlarmType.a1MatchHours.code 0#8 30#8 7#8 1#8) := by decide
/-- V6. -/
theorem test_decode_setAlarm3 : decode .command [0x09#8, 0x88#8, 0x05#8, 0x06#8, 0x01#8]
    = .ok (.setAlarm3 AlarmType.a2MatchHours.code 5#8 6#8 1#8) := by decide
theorem test_decode_setAlarmInterrupt :
    decode .command [0x0A#8, 0x01#8, 0x01#8] = .ok (.setAlarmInterrupt 1#8 1#8) := by decide
theorem test_decode_pollAndClearAlarm : decode .command [0x0B#8, 0x02#8] = .ok (.pollAndClearAlarm 2#8) := by decide
theorem test_decode_setSquareWave : decode .command [0x0C#8, 0x04#8] = .ok (.setSquareWave 4#8) := by decide
theorem test_decode_oscillatorStopped : decode .command [0x0D#8, 0x01#8] = .ok (.oscillatorStopped 1#8) := by decide
theorem test_decode_readTemperature : decode .command [0x0E#8] = .ok .readTemperature := by decide
theorem test_decode_readMemory : decode .command [0x0F#8, 0xFE#8, 0x03#8] = .ok (.readMemory 0xFE#8 3#8) := by decide
/-- P4, step 1. -/
theorem test_decode_writeMemory : decode .command [0x10#8, 0xFE#8, 0x03#8, 0x11#8, 0x22#8, 0x33#8]
    = .ok (.writeMemory 0xFE#8 [0x11#8, 0x22#8, 0x33#8]) := by decide
theorem test_decode_probe : decode .command [0x11#8] = .ok .probe ∧
    decode .command [0x12#8] = .error (.reservedOpcode 0x12#8) ∧ decode .command [] = .error .emptyWord := by decide

/-- Every code of R101 stands for its variant, and 0x0D for none. -/
theorem test_alarm_codes :
    ([0x0F#8, 0x0E#8, 0x0C#8, 0x08#8, 0x00#8, 0x10#8, 0x8E#8, 0x8C#8, 0x88#8, 0x80#8, 0x90#8, 0x0D#8] : List Byte).map
        AlarmType.ofCode?
      = AlarmType.all.map some ++ [none] := by decide

/-- Table words, byte 0 in bits 7 to 0: `setAlarmInterrupt(2, true)` and the frame `W[0x0E]` at 0x68. -/
theorem test_table_words :
    decodeTableWord 24 0x01020A = some (.setAlarmInterrupt 2#8 1#8) ∧
    decodeTableWord 16 0x0ED0 = some (.wframe 0x68#7 [0x0E#8]) := by decide

/-- A placed table word is what the next step takes. -/
theorem test_withFetchWord : (State.reset.withFetchWord 16 0x040C).inbox = [.word .command [0x0C#8, 0x04#8]] := by decide

/-! ## One step each -/

/-- V3, rows 1 and 4: the byte for 0x13 is discarded, and a burst wraps past 0xFF. -/
theorem test_wframe_stores :
    after (.wframe 0x68#7 [0x12#8, 0x01#8, 0x02#8, 0x03#8])
        (device [(0x12#8, 0x40#8), (0x13#8, 0x77#8), (0x14#8, 0xA1#8), (0x15#8, 0xA2#8)] [ok])
        (fun t => (cellsAt t [0x12#8, 0x13#8, 0x14#8, 0x15#8], t.ptr))
      = some ([0x01#8, 0x77#8, 0x03#8, 0xA2#8], 0x15#8) ∧
    after (.wframe 0x68#7 [0xFE#8, 0x11#8, 0x22#8, 0x33#8]) (device [] [ok])
        (fun t => (cellsAt t [0xFE#8, 0xFF#8, 0x00#8], t.ptr))
      = some ([0x11#8, 0x22#8, 0x33#8], 0x01#8) := by decide

/-- V3, row 3. -/
theorem test_wframe_empty :
    after (.wframe 0x68#7 []) (device [] [ok]) (fun t => (t.bus, t.ptr)) = some ([w []], 0x55#8) := by decide

/-- R131, example. -/
theorem test_rframe_reads :
    after (.rframe 0x68#7 2#8) { device [(0x11#8, 0x19#8)] [ok] with ptr := 0x11#8 } (fun t => (t.bus, t.ptr))
      = some ([r [0x19#8, 0x00#8]], 0x13#8) := by decide

/-- V1. -/
theorem test_toBCD :
    after (.toBCD 59#8) (device [] []) (·.response) = some (some ⟨0#8, .byte 0x59#8⟩) ∧
    after (.toBCD 80#8) (device [] []) (·.response) = some (some ⟨0#8, .byte 0x80#8⟩) := by decide

/-- V13: a two-digit packing of 100 does not exist. -/
theorem test_toBCD_refuses : exec (.toBCD 100#8) (device [] []) = .refused .operandOutOfDomain := rfl

/-- V2. -/
theorem test_fromBCD :
    after (.fromBCD 0x1A#8) (device [] []) (·.response) = some (some ⟨0#8, .byte 20#8⟩) ∧
    after (.fromBCD 0xFF#8) (device [] []) (·.response) = some (some ⟨0#8, .byte 165#8⟩) := by decide

/-- R132, example. -/
theorem test_readBytes :
    after (.readBytes 0x0F#8 1#8) (device [(0x0F#8, 0x88#8)] [ok, ok]) (fun t => (t.bus, t.response, t.ptr))
      = some ([w [0x0F#8], r [0x88#8]], some ⟨0#8, .bytes [0x88#8]⟩, 0x10#8) := by decide

/-- V11, row 2. -/
theorem test_readBytes_read_fails :
    after (.readBytes 0x00#8 7#8) (device [] [ok, failing 5#8 3])
        (fun t => (t.bus.length, t.response.map (·.status), t.lastErr, t.ptr))
      = some (2, some 5#8, 5#8, 0x03#8) := by decide

/-- R133, example. -/
theorem test_writeBytes :
    after (.writeBytes 0x14#8 [0xDE#8, 0xAD#8]) (device [] [ok])
        (fun t => (t.bus, cellsAt t [0x14#8, 0x15#8], t.ptr))
      = some ([w [0x14#8, 0xDE#8, 0xAD#8]], [0xDE#8, 0xAD#8], 0x16#8) := by decide

/-- R134, example. -/
theorem test_readByte :
    after (.readByte 0x0E#8) (device [(0x0E#8, 0x1C#8)] [ok, ok]) (fun t => (t.bus, t.response))
      = some ([w [0x0E#8], r [0x1C#8]], some ⟨0#8, .byte 0x1C#8⟩) := by decide

/-- V11, row 1: the address frame fails, so no read frame is issued. -/
theorem test_readByte_address_fails :
    after (.readByte 0x0F#8) (device [] [failing 2#8 1]) (fun t => (t.bus.length, t.response.map (·.status), t.ptr))
      = some (1, some 2#8, 0x0F#8) := by decide

/-- R135, example, and V11, row 3, with the byte applied. -/
theorem test_writeByte :
    after (.writeByte 0x0F#8 0x08#8) (device [] [ok]) (fun t => (t.bus, t.reg.read 0x0F#8))
      = some ([w [0x0F#8, 0x08#8]], 0x08#8) ∧
    after (.writeByte 0x0E#8 0x1D#8) (device [] [failing 3#8 2]) (fun t => (t.response, t.reg.read 0x0E#8))
      = some (some ⟨3#8, .none⟩, 0x1D#8) := by decide

/-- V4, row 3: clock-halt, 12/24 and century bits set and masked. -/
theorem test_getTime_masks :
    after .getTime (device [(0x00#8, 0xD9#8), (0x01#8, 0x59#8), (0x02#8, 0x63#8), (0x03#8, 0x07#8), (0x04#8, 0x31#8),
        (0x05#8, 0x92#8), (0x06#8, 0x99#8)] [ok, ok]) (·.response)
      = some (some ⟨0#8, .time ⟨59#8, 59#8, 23#8, 7#8, 31#8, 12#8, 99#8⟩⟩) := by decide

/-- V4, row 5: content that is no BCD. -/
theorem test_getTime_not_bcd :
    after .getTime (device [(0x00#8, 0x7F#8), (0x01#8, 0x1A#8), (0x02#8, 0x3F#8), (0x03#8, 0x09#8), (0x04#8, 0x00#8),
        (0x05#8, 0x13#8), (0x06#8, 0xAA#8)] [ok, ok]) (·.response)
      = some (some ⟨0#8, .time ⟨85#8, 20#8, 45#8, 9#8, 0#8, 13#8, 110#8⟩⟩) := by decide

/-- P1, step 1. -/
theorem test_setTime :
    after (.setTime 30#8 15#8 8#8 2#8 29#8 2#8 24#8) (device [(0x0F#8, 0xCB#8)] [ok, ok, ok, ok])
        (fun t => (t.bus, t.reg.read 0x0F#8, t.ptr))
      = some ([w [0x00#8, 0x30#8, 0x15#8, 0x08#8, 0x02#8, 0x29#8, 0x02#8, 0x24#8], w [0x0F#8], r [0xCB#8],
          w [0x0F#8, 0x4B#8]], 0x4B#8, 0x10#8) := by decide

/-- V11, row 4, with three bytes of the frame applied: the address and two clock bytes. -/
theorem test_setTime_clock_write_fails :
    after (.setTime 30#8 15#8 8#8 2#8 29#8 2#8 24#8) (device [(0x0F#8, 0xCB#8)] [failing 3#8 3])
        (fun t => (t.bus.length, t.lastErr, cellsAt t [0x00#8, 0x01#8, 0x02#8, 0x0F#8]))
      = some (1, 3#8, [0x30#8, 0x15#8, 0x00#8, 0xCB#8]) := by decide

/-- V5, row 6. -/
theorem test_setAlarm_alarm1 :
    after (.setAlarm 0x10#8 45#8 30#8 12#8 5#8) (device [] [ok]) (fun t => (t.bus, t.ptr))
      = some ([w [0x07#8, 0x45#8, 0x30#8, 0x12#8, 0x45#8]], 0x0B#8) := by decide

/-- R163, second example: the seconds of an Alarm2 type are discarded. -/
theorem test_setAlarm_alarm2 :
    after (.setAlarm 0x90#8 99#8 15#8 18#8 5#8) (device [] [ok])
        (fun t => (t.bus, cellsAt t [0x0A#8, 0x0B#8, 0x0C#8, 0x0D#8], t.ptr))
      = some ([w [0x0B#8, 0x15#8, 0x18#8, 0x45#8]], [0x00#8, 0x15#8, 0x18#8, 0x45#8], 0x0E#8) := by decide

/-- V6. -/
theorem test_setAlarm3 :
    after (.setAlarm3 0x0F#8 0#8 0#8 1#8) (device [] [ok]) (·.bus)
      = some [w [0x07#8, 0x80#8, 0x80#8, 0x80#8, 0x81#8]] ∧
    after (.setAlarm3 0x88#8 5#8 6#8 1#8) (device [] [ok]) (·.bus) = some [w [0x0B#8, 0x05#8, 0x06#8, 0x81#8]] := by decide

/-- V7. -/
theorem test_setAlarmInterrupt :
    after (.setAlarmInterrupt 2#8 1#8) (device [(0x0E#8, 0x1C#8)] [ok, ok, ok]) (·.bus)
      = some [w [0x0E#8], r [0x1C#8], w [0x0E#8, 0x1E#8]] ∧
    after (.setAlarmInterrupt 2#8 0#8) (device [(0x0E#8, 0xFF#8)] [ok, ok, ok]) (·.reg.read 0x0E#8)
      = some 0xFD#8 := by decide

/-- V9. -/
theorem test_pollAndClearAlarm :
    after (.pollAndClearAlarm 1#8) (device [(0x0F#8, 0x8B#8)] [ok, ok, ok]) (fun t => (t.response, t.reg.read 0x0F#8))
      = some (some ⟨0#8, .bool 0x01#8⟩, 0x8A#8) ∧
    after (.pollAndClearAlarm 2#8) (device [(0x0F#8, 0x01#8)] [ok, ok]) (fun t => (t.response, t.bus, t.ptr))
      = some (some ⟨0#8, .bool 0x00#8⟩, [w [0x0F#8], r [0x01#8]], 0x10#8) := by decide

/-- V12: the engine sets A2F between the read frame and the write frame, and the write-back loses it. -/
theorem test_pollAndClearAlarm_race :
    after (.pollAndClearAlarm 1#8) (liveDevice [(0x0F#8, 0x01#8)] [ok, ok, ⟨[⟨0x0F#8, 0x03#8⟩], some 0x00#8, 0⟩])
        (fun t => (t.response, t.reg.read 0x0F#8))
      = some (some ⟨0#8, .bool 0x01#8⟩, 0x00#8) := by decide

/-- V8. -/
theorem test_setSquareWave :
    after (.setSquareWave 1#8) (device [(0x0E#8, 0x1C#8)] [ok, ok, ok]) (fun t => (t.bus, t.reg.read 0x0E#8))
      = some ([w [0x0E#8], r [0x1C#8], w [0x0E#8, 0x08#8]], 0x08#8) ∧
    after (.setSquareWave 3#8) (device [(0x0E#8, 0xE7#8)] [ok, ok, ok]) (·.reg.read 0x0E#8) = some 0xFB#8 ∧
    after (.setSquareWave 4#8) (device [(0x0E#8, 0x08#8)] [ok, ok, ok]) (·.reg.read 0x0E#8) = some 0x0C#8 := by decide

/-- V9. -/
theorem test_oscillatorStopped :
    after (.oscillatorStopped 1#8) (device [(0x0F#8, 0x88#8)] [ok, ok, ok]) (fun t => (t.response, t.reg.read 0x0F#8))
      = some (some ⟨0#8, .bool 0x01#8⟩, 0x08#8) ∧
    after (.oscillatorStopped 0#8) (device [(0x0F#8, 0x88#8)] [ok, ok]) (fun t => (t.response, t.bus))
      = some (some ⟨0#8, .bool 0x01#8⟩, [w [0x0F#8], r [0x88#8]]) := by decide

/-- V10: the source's second example, and a row whose low six bits are discarded. -/
theorem test_readTemperature :
    after .readTemperature (device [(0x11#8, 0xFF#8), (0x12#8, 0xC0#8)] [ok, ok, ok, ok])
        (fun t => (t.bus, t.response))
      = some ([w [0x12#8], r [0xC0#8], w [0x11#8], r [0xFF#8]], some ⟨0#8, .temperature (BitVec.ofInt 16 (-1))⟩) ∧
    after .readTemperature (device [(0x11#8, 0x19#8), (0x12#8, 0x7F#8)] [ok, ok, ok, ok]) (·.response)
      = some (some ⟨0#8, .temperature 101#16⟩) := by decide

/-- R195, example. -/
theorem test_readMemory_wraps :
    after (.readMemory 0xFE#8 3#8) (device [(0xFE#8, 0xAA#8), (0xFF#8, 0xBB#8), (0x00#8, 0x30#8)] [ok, ok])
        (fun t => (t.response, t.ptr))
      = some (some ⟨0#8, .bytes [0xAA#8, 0xBB#8, 0x30#8]⟩, 0x01#8) := by decide

/-- P4, step 1. -/
theorem test_writeMemory_wraps :
    after (.writeMemory 0xFE#8 [0x11#8, 0x22#8, 0x33#8]) (device [(0x00#8, 0x59#8)] [ok])
        (fun t => (t.bus, cellsAt t [0xFE#8, 0xFF#8, 0x00#8]))
      = some ([w [0xFE#8, 0x11#8, 0x22#8, 0x33#8]], [0x11#8, 0x22#8, 0x33#8]) := by decide

/-- V11, last row. -/
theorem test_probe :
    after .probe (device [] [failing 2#8 0]) (fun t => (t.bus.length, t.response, t.lastErr, t.ptr))
      = some (1, some ⟨2#8, .none⟩, 2#8, 0x55#8) ∧
    after .probe (device [] [never]) (fun t => (t.seq, t.response, t.lastErr)) = some (.hung, none, 0x00#8) := by decide

theorem device_plainStorage (cells : List (Byte × Byte)) (answers : List FrameAnswer) :
    (device cells answers).PlainStorage := fun a _ => RegFile.read_ofFun _ a

/-! ## Witnesses: a state and operands that meet the hypotheses of each statement -/

theorem witness_DecodeOfEncodeIsIdentity :
    (Instr.writeBytes 0xFF#8 (List.replicate 31 0xFF#8)).wf = true ∧ (Instr.rframe 0x7F#7 32#8).wf = true := by decide

theorem witness_EncodeOfDecodeIsIdentity :
    decode .bus [0xFF#8, 0x20#8] = .ok (.rframe 0x7F#7 32#8) ∧ decode .command [0x11#8] = .ok .probe := by decide

/-- The lowest and highest reserved opcode, and words one byte short and one byte long. -/
theorem witness_ReservedOpcodeOrLengthRefused :
    ((device [] []).placeWord .command [0x12#8]).inbox = [.word .command [0x12#8]] ∧
    0x12 ≤ (0x12#8 : Byte).toNat ∧ 0x12 ≤ (0xFF#8 : Byte).toNat ∧
    commandLength (0x07#8 : Byte).toNat 0 = some 8 ∧ commandLength (0x11#8 : Byte).toNat 0 = some 1 := by decide

theorem witness_StepRunsDecodedInstruction :
    ((device [] []).placeWord .command [0x0C#8, 0x04#8]).inbox = [.word .command [0x0C#8, 0x04#8]] ∧
    decode .command [0x0C#8, 0x04#8] = .ok (.setSquareWave 4#8) := by decide

theorem witness_HostResetKeepsTheDevice : ({ stuck with inbox := [.hostReset] } : State).inbox = .hostReset :: [] := rfl

/-- A state that meets the invariant and takes a step that is no wait. -/
theorem witness_EveryStepKeepsTheInvariant :
    ((device [] [ok]).placeWord .command [0x11#8]).Inv ∧
    ∃ t, step ((device [] [ok]).placeWord .command [0x11#8]) = .next t ∧ t.bus = [w []] :=
  ⟨⟨fun _ => ⟨rfl, rfl⟩, by decide, fun _ h => (nomatch h), fun _ h => (nomatch h), fun _ h => (nomatch h)⟩, _, rfl, by decide⟩

theorem witness_EveryStepKeepsReservedCellAndParameters :
    ∃ t, step ((device [] [ok]).placeWord .command [0x05#8, 0x13#8, 0xFF#8]) = .next t ∧ t.lastErr = 0x00#8 :=
  ⟨_, rfl, by decide⟩

/-- A read with an engine that acts, and a store whose second gap the engine uses and whose last frame hangs. -/
theorem witness_OnlyStoresChangeUnownedBits :
    Instr.readTemperature.storesNothing = true ∧
    (∃ t, exec .readTemperature (liveDevice [] [⟨[⟨0x11#8, 0x19#8⟩], some 0x00#8, 0⟩, ok, ok, ok]) = .next t ∧
      t.reg.read 0x11#8 = 0x19#8) ∧
    (device [] []).params.engine = .static ∧
    (∃ t, exec (.setSquareWave 4#8) (liveDevice [] [ok, ⟨[⟨0x0F#8, 0x83#8⟩], some 0x00#8, 0⟩, never]) = .next t ∧
      t.seq = .hung ∧ t.reg.read 0x0F#8 = 0x83#8) ∧
    0x0F#8 ∉ (Instr.setSquareWave 4#8).targets ∧ 0x13#8 ∉ (Instr.writeBytes 0xFF#8 [0#8, 0#8]).targets ∧
    0x01#8 ∉ (Instr.writeBytes 0xFF#8 [0#8, 0#8]).targets ∧ 0x00#8 ∈ (Instr.writeBytes 0xFF#8 [0#8, 0#8]).targets := by
  refine ⟨rfl, ⟨_, rfl, by decide⟩, rfl, ⟨_, rfl, by decide⟩, ?_⟩; decide

theorem witness_CommandsDoNotRelyOnPtr : Instr.getTime.isCommand = true ∧ (Instr.writeByte 0#8 0#8).isCommand = true := by decide

theorem witness_AdmittedInstructionsAreTakenUp :
    (device [] []).seq = .idle ∧ (Instr.toBCD 99#8).wf = true ∧ (Instr.toBCD 100#8).wf = false ∧ stuck.seq = .hung := by decide

/-- An engine's change of every bit of the status byte it owns. -/
theorem witness_EngineChangesExactlyItsOwnBits :
    (∀ a : Byte, ((liveDevice [] []).reg.write 0x0F#8 0x87#8).read a &&& ~~~(engineMask a)
      = (liveDevice [] []).reg.read a &&& ~~~(engineMask a)) ∧
    ({ liveDevice [] [] with inbox := [.engine [⟨0x0F#8, 0x87#8⟩]] } : State).inbox = [.engine [⟨0x0F#8, 0x87#8⟩]] ∧
    (liveDevice [] []).params.engine = .free ∧ (device [] []).params.engine = .static := by
  refine ⟨fun a => ?_, rfl, rfl, rfl⟩
  by_cases h : a = 0x0F#8
  · subst h; decide
  · rw [RegFile.read_write, if_neg (Ne.symm h)]

theorem witness_WriteFrameLoadsPtrAndStores :
    (device [] [ok]).Ready 1 ∧ (List.replicate 31 (0xFF#8 : Byte)).length ≤ 31 := by decide

theorem witness_ReadFrameReturnsCellsFromPtr :
    (device [] [ok]).Ready 1 ∧ 1 ≤ (1#8 : Byte).toNat ∧ (32#8 : Byte).toNat ≤ 32 := by decide

theorem witness_FailedWriteFrameAppliesSomePart :
    (device [] [failing 0xFF#8 32]).seq = .idle ∧ (device [] [failing 0xFF#8 32]).EngineQuiet 1 ∧
    (0xFF#8 : Byte) ≠ 0x00#8 ∧ ((device [] [failing 0xFF#8 32]).answerAt 0).status = some 0xFF#8 ∧
    (List.replicate 31 (0xAA#8 : Byte)).length ≤ 31 := by decide

theorem witness_FailedReadFrameMovesPtrInPart :
    (device [] [failing 1#8 0]).seq = .idle ∧ (device [] [failing 1#8 0]).EngineQuiet 1 ∧ (1#8 : Byte) ≠ 0x00#8 ∧
    ((device [] [failing 1#8 0]).answerAt 0).status = some 1#8 ∧ 1 ≤ (32#8 : Byte).toNat ∧ (32#8 : Byte).toNat ≤ 32 := by decide

theorem witness_FramesForOtherDevicesAreIgnored :
    (device [] [ok]).seq = .idle ∧ (device [] [ok]).EngineQuiet 1 ∧ 0x69#7 ≠ (device [] [ok]).params.devAddr ∧
    (Instr.wframe 0x69#7 [0x0E#8, 0xFF#8]).wf = true ∧ (Instr.rframe 0x69#7 1#8).wf = true := by decide

theorem witness_ToBcdPacksTwoDigits :
    (device [] []).seq = .idle ∧ (99#8 : Byte).toNat ≤ 99 ∧ 99 < (100#8 : Byte).toNat := by decide

theorem witness_FromBcdUnpacksEveryByte : (device [] []).seq = .idle := rfl

theorem witness_BcdRoundTrip : (99#8 : Byte).toNat ≤ 99 ∧ (0x99#8 : Byte).toNat / 16 ≤ 9 ∧
    (0x99#8 : Byte).toNat % 16 ≤ 9 ∧ ¬ (0x9A#8 : Byte).toNat % 16 ≤ 9 := by decide

theorem witness_ReadBytesReturnsCells :
    (device [] [ok, ok]).Ready 2 ∧ 1 ≤ (1#8 : Byte).toNat ∧ (32#8 : Byte).toNat ≤ 32 ∧
    (∀ k, k < (32#8 : Byte).toNat → (0x14#8 : Byte) + BitVec.ofNat 8 k ≠ 0x13#8) := by decide

theorem witness_ReadByteReturnsTheCell : (device [] [ok, ok]).Ready 2 ∧ (0x12#8 : Byte) ≠ 0x13#8 := by decide

theorem witness_WriteBytesStoresThePayload :
    (device [] [ok]).Ready 1 ∧ (List.replicate 31 (0x00#8 : Byte)).length ≤ 31 ∧ ([] : List Byte).length ≤ 31 ∧
    (0x12#8 : Byte) + BitVec.ofNat 8 0 ≠ 0x13#8 := by decide

theorem witness_WrittenBytesReadBack :
    (device [] [ok, ok, ok]).PlainStorage ∧ (device [] [ok, ok, ok]).Ready 3 ∧ (0x14#8 : Byte) ≠ 0x13#8 :=
  ⟨device_plainStorage _ _, by decide⟩

theorem witness_ProbeChangesNoRegister :
    (device [] [failing 2#8 0]).seq = .idle ∧ (device [] [failing 2#8 0]).EngineQuiet 1 ∧
    ((device [] [failing 2#8 0]).answerAt 0).status = some 2#8 ∧ (device [] [never]).EngineQuiet 1 ∧
    ((device [] [never]).answerAt 0).status = none := by decide

theorem witness_PseudoOperationsExpand : stuck.seq = .hung ∧ (device [] []).seq = .idle ∧
    (List.replicate 31 (0x00#8 : Byte)).length ≤ 31 := by decide

theorem witness_GetTimeDecodesTheClock : (device [] [ok, ok]).Ready 2 := by decide

theorem witness_SetTimeWritesClockAndClearsOsf :
    (device [] [ok, ok, ok, ok]).Ready 4 ∧ (Instr.setTime 59#8 59#8 23#8 7#8 31#8 12#8 99#8).wf = true ∧
    (Instr.setTime 0#8 0#8 0#8 1#8 1#8 1#8 0#8).wf = true := by decide

theorem witness_TimeRoundTrip :
    (device [] (List.replicate 7 ok)).PlainStorage ∧ (device [] (List.replicate 7 ok)).Ready 7 ∧
    (Instr.setTime 59#8 59#8 23#8 7#8 31#8 12#8 99#8).wf = true :=
  ⟨device_plainStorage _ _, by decide⟩

theorem witness_SetAlarm1WritesItsBlock :
    (device [] [ok]).Ready 1 ∧ AlarmType.a1MatchDay.code.getLsbD 7 = false ∧
    (Instr.setAlarm AlarmType.a1MatchDay.code 59#8 59#8 23#8 7#8).wf = true ∧
    (Instr.setAlarm3 AlarmType.a1EverySecond.code 0#8 0#8 1#8).wf = true := by decide

theorem witness_SetAlarm2WritesItsBlock :
    (device [] [ok]).Ready 1 ∧ AlarmType.a2MatchDate.code.getLsbD 7 = true ∧
    (Instr.setAlarm AlarmType.a2MatchDate.code 0xFF#8 59#8 23#8 31#8).wf = true ∧
    (Instr.setAlarm3 AlarmType.a2MatchDay.code 0#8 0#8 1#8).wf = true := by decide

/-- The first row and the last, one of each channel. -/
theorem witness_AlarmMaskBitsFollowTheTable :
    (device [] [ok]).PlainStorage ∧ (AlarmType.a1EverySecond, true, true, true, true, false) ∈ alarmRows ∧
    (AlarmType.a2MatchDay, false, false, false, false, true) ∈ alarmRows ∧
    (Instr.setAlarm AlarmType.a1EverySecond.code 0#8 0#8 0#8 1#8).wf = true ∧
    (Instr.setAlarm AlarmType.a2MatchDay.code 0xFF#8 59#8 23#8 7#8).wf = true ∧
    AlarmType.a1EverySecond.isAlarm1 = true ∧ AlarmType.a2MatchDay.isAlarm1 = false ∧ (device [] [ok]).Ready 1 :=
  ⟨device_plainStorage _ _, by decide⟩

theorem witness_SetAlarmInterruptWritesEnableBit :
    ((2#8 : Byte) = 1#8 ∨ (2#8 : Byte) = 2#8) ∧ ((1#8 : Byte) = 0#8 ∨ (1#8 : Byte) = 1#8) ∧
    (device [] [ok, ok, ok]).Ready 3 := by decide

theorem witness_PollAndClearAlarmClearsOneFlag :
    (device [(0x0F#8, 0x02#8)] [ok, ok, ok]).Ready 3 ∧
    (device [(0x0F#8, 0x02#8)] [ok, ok, ok]).reg.read 0x0F#8 &&& 0x02#8 ≠ 0#8 ∧
    (device [(0x0F#8, 0x02#8)] [ok, ok]).Ready 2 ∧
    (device [(0x0F#8, 0x02#8)] [ok, ok]).reg.read 0x0F#8 &&& 0x01#8 = 0#8 := by decide

theorem witness_PollIsIdempotent :
    (device [(0x0F#8, 0xFF#8)] (List.replicate 5 ok)).PlainStorage ∧
    (device [(0x0F#8, 0xFF#8)] (List.replicate 5 ok)).Ready 5 ∧
    (device [(0x0F#8, 0xFF#8)] (List.replicate 5 ok)).reg.read 0x0F#8 &&& 0x01#8 ≠ 0#8 :=
  ⟨device_plainStorage _ _, by decide⟩

/-- The run of V12. -/
def racing : State := liveDevice [(0x0F#8, 0x01#8)] [ok, ok, ⟨[⟨0x0F#8, 0x03#8⟩], some 0x00#8, 0⟩]

theorem witness_EngineChangeInTheWindowIsLost :
    racing.PlainStorage ∧ racing.seq = .idle ∧ racing.params.engine = .free ∧ racing.Answers 3 ∧
    (racing.answerAt 0).engine = [] ∧ (racing.answerAt 1).engine = [] ∧ racing.reg.read 0x0F#8 &&& 0x01#8 ≠ 0#8 :=
  ⟨fun a _ => RegFile.read_ofFun _ a, by decide⟩

theorem witness_SetSquareWaveWritesControl :
    (device [] [ok, ok, ok]).Ready 3 ∧ (0#8 : Byte).toNat ≤ 4 ∧ (4#8 : Byte).toNat ≤ 4 := by decide

theorem witness_ControlBitsArePreserved :
    (device [(0x0E#8, 0xFF#8)] [ok, ok, ok]).PlainStorage ∧ (device [(0x0E#8, 0xFF#8)] [ok, ok, ok]).Ready 3 ∧
    (3#8 : Byte).toNat ≤ 3 :=
  ⟨device_plainStorage _ _, by decide⟩

theorem witness_OscillatorStoppedReportsAndClears :
    (device [(0x0F#8, 0x80#8)] [ok, ok, ok]).Ready 3 ∧
    ((device [(0x0F#8, 0x80#8)] [ok, ok, ok]).reg.read 0x0F#8).getLsbD 7 = true ∧
    (device [(0x0F#8, 0x7F#8)] [ok, ok]).Ready 2 ∧
    ((device [(0x0F#8, 0x7F#8)] [ok, ok]).reg.read 0x0F#8).getLsbD 7 = false := by decide

/-- The alarm clause in an environment that fails, with an engine that acts. -/
theorem witness_SquareWaveRoutesThePin :
    (device [] [ok, ok, ok]).PlainStorage ∧ (device [] [ok, ok, ok]).Ready 3 ∧
    (Instr.setAlarm 0x90#8 0xFF#8 59#8 23#8 7#8).isAlarmOperation = true ∧
    (Instr.setAlarm 0x90#8 0xFF#8 59#8 23#8 7#8).wf = true ∧ (3#8 : Byte).toNat ≤ 3 ∧
    (Instr.setAlarmInterrupt 2#8 1#8).isAlarmOperation = true ∧ (Instr.setAlarmInterrupt 2#8 1#8).wf = true ∧
    after (.setAlarmInterrupt 2#8 1#8) (liveDevice [(0x0E#8, 0x04#8)] [ok, ok, ⟨[⟨0x0E#8, 0xFF#8⟩], some 3#8, 2⟩])
      (·.reg.read 0x0E#8) = some 0x06#8 :=
  ⟨device_plainStorage _ _, by decide⟩

theorem witness_ReadTemperatureAnswersQuarterDegrees :
    (device [(0x11#8, 0x80#8)] [ok, ok, ok, ok]).Ready 4 := by decide

/-- Every outcome: all frames succeed, a last frame that fails, and one that never returns. -/
theorem witness_FirstFailureEndsTheOperation :
    Instr.getTime.isCommand = true ∧ Instr.getTime.isCodec = false ∧ Instr.getTime.wf = true ∧
    (device [] [ok, failing 5#8 0]).seq = .idle ∧ 1 < Instr.getTime.frames ∧ (device [] [ok, failing 5#8 0]).Answers 1 ∧
    after .getTime (device [] [ok, ok]) (fun t => (t.bus.length, t.lastErr)) = some (2, 0#8) ∧
    after .getTime (device [] [ok, failing 5#8 0]) (·.lastErr) = some 5#8 ∧
    after .getTime (device [] [ok, never]) (·.seq) = some .hung := by decide

theorem witness_AddressPhaseFailureIssuesNoRead :
    (Instr.readMemory 0xFF#8 32#8).firstRead? = some 0xFF#8 ∧ (Instr.readMemory 0xFF#8 32#8).wf = true ∧
    (device [] [failing 2#8 0]).seq = .idle ∧ (device [] [failing 2#8 0]).EngineQuiet 1 ∧
    ((device [] [failing 2#8 0]).answerAt 0).status = some 2#8 := by decide

theorem witness_ReadFrameFailureIsSurfaced :
    Instr.readTemperature.firstRead? = some 0x12#8 ∧ Instr.readTemperature.wf = true ∧
    (device [] [ok, failing 5#8 0]).seq = .idle ∧ (device [] [ok, failing 5#8 0]).EngineQuiet 2 ∧
    ((device [] [ok, failing 5#8 0]).answerAt 0).status = some 0x00#8 ∧
    ((device [] [ok, failing 5#8 0]).answerAt 1).status = some 5#8 := by decide

/-- Each of the four frames as the one that fails. -/
theorem witness_FailedSetTimeIsNotUndone :
    (Instr.setTime 59#8 59#8 23#8 7#8 31#8 12#8 99#8).wf = true ∧
    ∀ n, n < 4 → let s := device [] (List.replicate n ok ++ [failing 3#8 2])
      s.seq = .idle ∧ s.EngineQuiet 4 ∧ (∀ k, k < n → (s.answerAt k).status = some 0x00#8) ∧
      (s.answerAt n).status = some 3#8 := by decide

/-- One type of each block; a frame of which nothing, some and all was applied. -/
theorem witness_FailedSetAlarmWritesSomePart :
    (Instr.setAlarm AlarmType.a1MatchDate.code 59#8 59#8 23#8 31#8).wf = true ∧
    (Instr.setAlarm3 AlarmType.a2MatchDay.code 0#8 0#8 1#8).wf = true ∧
    ∀ k, k ≤ 5 → let s := device [] [failing 3#8 k]
      s.seq = .idle ∧ s.EngineQuiet 1 ∧ (3#8 : Byte) ≠ 0x00#8 ∧ (s.answerAt 0).status = some 3#8 := by decide

/-- Once for each operation, the flag it needs set; the write applied in part, and in full. -/
theorem witness_FailedReadModifyWriteIsOldOrNew :
    (Instr.setAlarmInterrupt 2#8 0#8).wf = true ∧ (Instr.setSquareWave 4#8).wf = true ∧
    (Instr.pollAndClearAlarm 1#8).wf = true ∧ (Instr.pollAndClearAlarm 2#8).wf = true ∧
    (Instr.oscillatorStopped 1#8).wf = true ∧
    ∀ k, k ≤ 2 → let s := device [(0x0F#8, 0x83#8)] [ok, ok, failing 3#8 k]
      s.seq = .idle ∧ s.EngineQuiet 3 ∧ s.Answers 2 ∧ (3#8 : Byte) ≠ 0x00#8 ∧ (s.answerAt 2).status = some 3#8 ∧
      flagSet 1#8 (s.reg.read 0x0F#8) = true ∧ flagSet 2#8 (s.reg.read 0x0F#8) = true ∧
      osfSet (s.reg.read 0x0F#8) = true := by decide

/-- Each frame of an operation as the one that hangs, the conditional third one among them. -/
theorem witness_HangLeavesTheSequencerStuck :
    (∀ n, n < 4 →
      let s := device [] (List.replicate n ok ++ [never])
      s.seq = .idle ∧ s.Answers n ∧ (s.answerAt n).status = none ∧ n < Instr.readTemperature.frames) ∧
    (let s := device [(0x0F#8, 0x82#8)] [ok, ok, never]
     s.seq = .idle ∧ s.Answers 2 ∧ (s.answerAt 2).status = none ∧ s.EngineQuiet 2 ∧
      flagSet 2#8 (s.reg.read 0x0F#8) = true ∧ osfSet (s.reg.read 0x0F#8) = true) ∧
    (Instr.pollAndClearAlarm 2#8).wf = true ∧ (Instr.oscillatorStopped 1#8).wf = true ∧
    stuck.seq = .hung ∧ stuck.inbox = [] := by decide

/-- The longest payload and the empty one; a frame of which nothing and all was applied. -/
theorem witness_FailedWriteStoresSomePart :
    (List.replicate 31 (0xAA#8 : Byte)).length ≤ 31 ∧
    ∀ k, k = 0 ∨ k = 32 → let s := device [] [failing 0xFF#8 k]
      s.seq = .idle ∧ s.EngineQuiet 1 ∧ (0xFF#8 : Byte) ≠ 0x00#8 ∧ (s.answerAt 0).status = some 0xFF#8 := by
  refine ⟨by decide, ?_⟩; rintro k (rfl | rfl) <;> decide

theorem witness_FailedReadTemperatureIsSurfaced :
    ∀ n, n < 4 → let s := device [] (List.replicate n ok ++ [failing 5#8 0])
      s.seq = .idle ∧ s.EngineQuiet 4 ∧ s.Answers n ∧ (5#8 : Byte) ≠ 0x00#8 ∧ (s.answerAt n).status = some 5#8 := by
  decide

/-- Both ends: a flag that is set, and a call that never returns. -/
theorem witness_BooleanResultsAreOneByte :
    (Instr.pollAndClearAlarm 2#8).wf = true ∧ (Instr.oscillatorStopped 0#8).wf = true ∧
    (device [(0x0F#8, 0x82#8)] [ok, ok, ok]).seq = .idle ∧
    after (.pollAndClearAlarm 2#8) (device [(0x0F#8, 0x82#8)] [ok, ok, ok]) (·.response)
      = some (some ⟨0#8, .bool 0x01#8⟩) ∧
    after (.oscillatorStopped 0#8) (device [] [ok, never]) (·.seq) = some .hung := by decide

/-- An operation that fails at its second frame, and one whose frames all succeed. -/
theorem witness_BusErrorEndsTheOperation :
    Instr.getTime.isCommand = true ∧ Instr.getTime.isCodec = false ∧ Instr.getTime.wf = true ∧
    (device [] [ok, failing 5#8 0]).seq = .idle ∧ ((device [] [ok, failing 5#8 0]).answerAt 1).status = some 5#8 ∧
    after .getTime (device [] [ok, failing 5#8 0]) (·.bus.length) = some 2 ∧
    after .getTime (device [] [ok, ok]) (·.bus.length) = some 2 ∧ (device [] [ok, ok]).Answers 2 := by decide

theorem witness_RaiseEndsTheOperation :
    (device [] []).seq = .idle ∧ (Instr.setSquareWave 4#8).wf = true ∧
    (conclude .time (.busError 0xFF#8 (device [] []))).lastErr = 0xFF#8 := by decide

/-- The smallest and the largest number of two digits, and their bytes. -/
theorem witness_BcdByteHoldsTensHighOnesLow :
    (device [] []).seq = .idle ∧ (0#8 : Byte).toNat ≤ 99 ∧ (99#8 : Byte).toNat ≤ 99 ∧
    ((0x00#8 : Byte).extractLsb' 4 4).toNat ≤ 9 ∧ ((0x00#8 : Byte).extractLsb' 0 4).toNat ≤ 9 ∧
    ((0x99#8 : Byte).extractLsb' 4 4).toNat ≤ 9 ∧ ((0x99#8 : Byte).extractLsb' 0 4).toNat ≤ 9 := by decide

/-- The lowest and the highest storage cell; steps that do not store to it, a restart and a store beside it. -/
theorem witness_StorageHoldsTheLastByteWritten :
    0x14 ≤ (0x14#8 : Byte).toNat ∧ 0x14 ≤ (0xFF#8 : Byte).toNat ∧
    step { stuck with inbox := [.hostReset] } = .next { device [] [] with lastErr := 0x00#8 } ∧
    decode .command [0x05#8, 0x15#8, 0xFF#8] = .ok (.writeByte 0x15#8 0xFF#8) ∧
    0x14#8 ∉ (Instr.writeByte 0x15#8 0xFF#8).targets ∧
    (0xFF#8 : Byte) = 0xE1#8 + BitVec.ofNat 8 30 ∧ (0x14#8 : Byte) = 0x14#8 + BitVec.ofNat 8 0 ∧
    (List.replicate 31 (0xAA#8 : Byte)).length ≤ 31 ∧ (0xFF#8 : Byte) = 0xE0#8 + BitVec.ofNat 8 31 ∧
    (32#8 : Byte).toNat ≤ 32 ∧ (device [] [ok]).Ready 1 ∧ (device [] [ok]).PlainStorage ∧
    (device [] [ok, ok]).Ready 2 := by
  refine ⟨by decide, by decide, rfl, by decide, by decide, by decide, by decide, by decide, by decide, by decide,
    by decide, device_plainStorage _ _, by decide⟩

theorem witness_CompositeOperationsKeepTheirWidths :
    (Instr.setAlarm3 AlarmType.a2MatchDay.code 0#8 0#8 1#8).widths? = some [.write 0x0B#8 3] ∧
    (Instr.setAlarm3 AlarmType.a2MatchDay.code 0#8 0#8 1#8).wf = true ∧ Instr.readTemperature.wf = true ∧
    (device [] [ok, ok, ok, never]).seq = .idle ∧ 3 < Instr.readTemperature.frames ∧
    (device [] [ok, ok, ok, never]).Answers 3 := by decide

end Sys2Proof.Tests
end

section
/-! PROOFS. The family of spec/00_scope.md: what no step changes (R11, R46), and the transport call that never
returns (R10, R104, R213, R220). -/

namespace Sys2Proof.Machine

/-! ## The reserved cell and the open parameters -/

@[simp] theorem conclude_params (k : ResultKind) (r : Run Result) : (conclude k r).params = r.state.params := by
  cases r with
  | busError c t => obtain ⟨d, h⟩ := conclude_busError k c t; rw [h]; rfl
  | _ => rfl

@[simp] theorem concludeFrame_params {α : Type} (r : Run α) : (concludeFrame r).params = r.state.params := by
  cases r <;> rfl

/-- The reserved cell and the open parameters stand in `t` as in `s` (R11, R46). -/
def State.KeepsFixed (s t : State) : Prop :=
  t.reg.read Config.reservedCell = s.reg.read Config.reservedCell ∧ t.params = s.params

/-- Registers and parameters alone decide it. -/
theorem State.KeepsFixed.of_eq {s t u : State} (h : State.KeepsFixed s t) (hr : u.reg = t.reg)
    (hp : u.params = t.params) : State.KeepsFixed s u := ⟨by rw [hr]; exact h.1, hp.trans h.2⟩

/-- No instruction changes them: its frames do not (`Trail`), and neither does its end. -/
theorem Effect.keepsFixed {s t : State} (h : Effect s t) : State.KeepsFixed s t := by
  cases h with
  | codec v => exact ⟨rfl, rfl⟩
  | frame r ends =>
    exact State.KeepsFixed.of_eq ⟨ends.trail.reserved, ends.trail.params⟩ (concludeFrame_reg r)
      (concludeFrame_params r)
  | operation kind r ends =>
    exact State.KeepsFixed.of_eq ⟨ends.trail.reserved, ends.trail.params⟩ (conclude_reg kind r)
      (conclude_params kind r)

theorem State.engineStep_keepsFixed (s : State) (ws : List EngineWrite) : State.KeepsFixed s (s.engineStep ws) :=
  ⟨s.engineStep_unowned ws Config.reservedCell rfl, s.engineStep_params ws⟩

theorem step_keepsFixed {s t : State} (h : step s = .next t) : State.KeepsFixed s t := by
  rcases step_next h with ⟨_, rfl⟩ | ⟨ws, rest, _, rfl⟩ | ⟨rest, _, rfl⟩ | ⟨p, bytes, rest, i, _, _, hx⟩
  · exact ⟨rfl, rfl⟩
  · exact State.engineStep_keepsFixed { s with inbox := rest } ws
  · exact ⟨rfl, rfl⟩
  · obtain ⟨_, _, effect⟩ := exec_next hx
    exact effect.keepsFixed

/-- Settles O10, by the cases of a step: `WMASK[0x13] = 0` shields the cell from frames, and none of its bits
is the engine's. -/
theorem everyStepKeepsReservedCellAndParameters : Obligations.EveryStepKeepsReservedCellAndParameters :=
  fun _ _ h => step_keepsFixed h

/-! ## A run in which a transport call never returns -/

/-- The `k`-th frame a run adds to the bus port has the status of the `k`-th answer. -/
theorem State.Logged.status_eq {s t : State} (h : State.Logged s t) {fs : List FrameRecord}
    (bus : t.bus = s.bus ++ fs) {k : Nat} {r : FrameRecord} (hk : fs[k]? = some r) :
    r.status = (s.answerAt k).status := by
  obtain ⟨gs, hb, _, _, hs⟩ := h
  obtain rfl : fs = gs := List.append_cancel_left (bus.symm.trans hb)
  exact hs k r hk

/-- Frames that all ended with status 0 stop short of the call that never returns. -/
theorem State.Logged.length_le_of_never {s t : State} (h : State.Logged s t) {fs gs : List FrameRecord}
    (bus : t.bus = s.bus ++ (fs ++ gs)) (ok : ∀ r ∈ fs, r.status = some 0x00#8) {n : Nat}
    (never : (s.answerAt n).status = none) : fs.length ≤ n := by
  by_contra hlt
  have hn : fs[n]? = some fs[n] := List.getElem?_eq_getElem (by omega)
  have hs := h.status_eq bus ((List.getElem?_append_left (by omega)).trans hn)
  rw [never, ok _ (List.getElem_mem _)] at hs
  cases hs

/-- With the first `n` frames answered 0, a last frame that did not end with 0 is the one numbered `n`, the call
that never returns. -/
theorem State.Logged.last_of_never {s t : State} (h : State.Logged s t) {fs : List FrameRecord}
    {last : FrameRecord} (bus : t.bus = s.bus ++ fs ++ [last]) (ok : ∀ r ∈ fs, r.status = some 0x00#8)
    (bad : last.status ≠ some 0x00#8) {n : Nat} (answers : s.Answers n) (never : (s.answerAt n).status = none) :
    fs.length = n ∧ last.status = none := by
  rw [List.append_assoc] at bus
  have hs : last.status = (s.answerAt fs.length).status := h.status_eq bus (by simp)
  have hle := h.length_le_of_never bus ok never
  have hge : n ≤ fs.length := by
    by_contra hlt
    exact bad (hs.trans (answers _ (by omega)))
  obtain rfl : fs.length = n := by omega
  exact ⟨rfl, hs.trans never⟩

/-- Frame `n` of the instruction taken up in `s` never returned and left `t`: the sequencer stuck, no status, no
frame after it (R220). -/
structure State.HungAt (s : State) (n : Nat) (t : State) : Prop where
  seq      : t.seq = .hung
  lastErr  : t.lastErr = s.lastErr
  response : t.response = s.response
  frames   : t.bus.length = n + 1
  never    : (t.bus[n]?).map (·.status) = some none

/-- A run that goes on only after more than `n` frames hangs at frame `n`: it cannot have gone on, nor raised an
error, since its earlier frames end with status 0. -/
theorem Run.EndsAs.hungAt {α : Type} {s : State} {m n : Nat} {r : Run α} (ends : Run.EndsAs s.start m r)
    (least : Run.AtLeast s.start (n + 1) r) (answers : s.Answers n) (never : (s.answerAt n).status = none) :
    ∃ t, r = .hung t ∧ State.HungAt s n { t with seq := .hung } := by
  cases ends with
  | done a t fs trail bus few ok limits calm =>
    have hle := trail.log.length_le_of_never (gs := []) (by simpa using bus) ok never
    have hge := least a t rfl
    rw [bus, List.length_append] at hge
    omega
  | busError c t fs last trail bus few ok limits lastLimits code nonzero calm =>
    obtain ⟨_, hn⟩ := trail.log.last_of_never bus ok (by simpa [code] using nonzero) answers never
    rw [code] at hn
    cases hn
  | hung t fs last trail bus few ok limits lastLimits hn =>
    obtain ⟨rfl, _⟩ := trail.log.last_of_never bus ok (by simp [hn]) answers never
    exact ⟨t, rfl, rfl, trail.lastErr, trail.response, by simp [bus], by simp [bus, hn]⟩

/-! ## How many frames each instruction issues before it ends with success -/

/-- `Effect` with a count: a run that succeeds has issued at least `n` frames (R202). -/
inductive EffectAtLeast (s : State) : Nat → State → Prop
  | codec (v : Byte) : EffectAtLeast s 0 (concludeCodec v s.start)
  | frame {α : Type} {m n : Nat} {r : Run α} (ends : Run.EndsAs s.start m r) (least : Run.AtLeast s.start n r) :
      EffectAtLeast s n (concludeFrame r)
  | operation (kind : ResultKind) {m n : Nat} {r : Run Result} (ends : Run.EndsAs s.start m r)
      (least : Run.AtLeast s.start n r) : EffectAtLeast s n (conclude kind r)

theorem Run.AtLeast.mono {α : Type} {s : State} {n m : Nat} {r : Run α} (h : Run.AtLeast s n r) (hm : m ≤ n) :
    Run.AtLeast s m r := fun a t e => by have := h a t e; omega

/-- A transport call that never returns, before the instruction has issued all its frames, hangs it. -/
theorem EffectAtLeast.hungAt {s t : State} {n m : Nat} (h : EffectAtLeast s m t) (hn : n < m)
    (answers : s.Answers n) (never : (s.answerAt n).status = none) : State.HungAt s n t := by
  cases h with
  | codec v => omega
  | frame ends least =>
    obtain ⟨t, rfl, hung⟩ := ends.hungAt (least.mono hn) answers never
    exact hung
  | operation kind ends least =>
    obtain ⟨t, rfl, hung⟩ := ends.hungAt (least.mono hn) answers never
    exact hung

theorem State.runReadBytes_atLeast (s : State) (addr : Byte) (n : Nat) :
    Run.AtLeast s 2 (s.runReadBytes addr n) := (s.memRead_issues addr n).thenDone.atLeast

theorem State.runWriteBytes_atLeast (s : State) (addr : Byte) (data : List Byte) :
    Run.AtLeast s 1 (s.runWriteBytes addr data) := (s.memWrite_issues addr data).thenDone.atLeast

theorem State.runReadByte_atLeast (s : State) (addr : Byte) : Run.AtLeast s 2 (s.runReadByte addr) :=
  (s.memReadByte_issues addr).thenDone.atLeast

theorem State.runProbe_atLeast (s : State) : Run.AtLeast s 1 s.runProbe := (s.busWrite_issues _ []).thenDone.atLeast

theorem State.runGetTime_atLeast (s : State) : Run.AtLeast s 2 s.runGetTime :=
  (s.memRead_issues Config.clockBase Config.clockLen).thenDone.atLeast

theorem State.runSetAlarm_atLeast (s : State) (t : AlarmType) (seconds minutes hours dayOrDate : Byte) :
    Run.AtLeast s 1 (s.runSetAlarm t seconds minutes hours dayOrDate) := (s.memWrite_issues _ _).thenDone.atLeast

/-- A poll reads the status byte, whatever it then does. -/
theorem State.runPollAndClearAlarm_atLeast (s : State) (channel : Byte) :
    Run.AtLeast s 2 (s.runPollAndClearAlarm channel) :=
  (s.memReadByte_issues Config.status).atLeast.andThen (m := 0) fun st t _ =>
    (t.conditionalWrite (flagSet channel st) _ _ _ _).2.1

/-- A poll that finds its flag set writes the status byte back (R166). -/
theorem State.runPollAndClearAlarm_atLeast_of_flagSet {s : State} {channel : Byte} (answers : s.Answers 2)
    (quiet : s.EngineQuiet 2) (hf : flagSet channel (s.reg.read Config.status) = true) :
    Run.AtLeast s 3 (s.runPollAndClearAlarm channel) :=
  (s.memReadByte_issues Config.status).atLeast.andThen (m := 1) fun st t e => by
    rw [State.memReadByte_ok Config.status answers quiet (by decide)] at e
    cases e
    exact (State.conditionalWrite _ (flagSet channel (s.reg.read Config.status)) _ _ _ _).2.2.1 hf

/-- `oscillatorStopped` reads the status byte, whatever it then does. -/
theorem State.runOscillatorStopped_atLeast (s : State) (clear : Bool) :
    Run.AtLeast s 2 (s.runOscillatorStopped clear) :=
  (s.memReadByte_issues Config.status).atLeast.andThen (m := 0) fun st t _ =>
    (t.conditionalWrite (osfSet st && clear) _ _ _ _).2.1

/-- `oscillatorStopped` that finds OSF set, and is to clear it, writes the status byte back (R181). -/
theorem State.runOscillatorStopped_atLeast_of_osfSet {s : State} (answers : s.Answers 2)
    (quiet : s.EngineQuiet 2) (ho : osfSet (s.reg.read Config.status) = true) :
    Run.AtLeast s 3 (s.runOscillatorStopped true) :=
  (s.memReadByte_issues Config.status).atLeast.andThen (m := 1) fun st t e => by
    rw [State.memReadByte_ok Config.status answers quiet (by decide)] at e
    cases e
    exact (State.conditionalWrite _ (osfSet (s.reg.read Config.status) && true) _ _ _ _).2.2.1 (by simp [ho])

/-- An admitted instruction, taken up by an idle sequencer, issues the frames of R202 before it succeeds. -/
theorem exec_effectAtLeast (i : Instr) (s : State) (h : s.seq = .idle) (hw : i.wf = true) :
    ∃ t, exec i s = .next t ∧ EffectAtLeast s i.frames t := by
  cases i with
  | wframe dev bytes =>
    exact ⟨_, exec_wframe h hw, .frame (s.start.busWrite_ends dev bytes (by simpa [Instr.wf] using hw))
      (s.start.busWrite_issues dev bytes).atLeast⟩
  | rframe dev count =>
    obtain ⟨h1, h2⟩ := (inRange_iff _ _ _).mp hw
    exact ⟨_, exec_rframe h hw, .frame (s.start.busRead_ends dev _ h1 h2)
      (s.start.busRead_issues dev _).atLeast⟩
  | toBCD n => exact ⟨_, exec_toBCD h hw, .codec _⟩
  | fromBCD b => exact ⟨_, exec_fromBCD h, .codec _⟩
  | readBytes addr count =>
    obtain ⟨h1, h2⟩ := (inRange_iff _ _ _).mp hw
    exact ⟨_, exec_readBytes h hw, .operation _ (s.start.runReadBytes_ends addr _ h1 h2)
      (s.start.runReadBytes_atLeast addr _)⟩
  | writeBytes addr data =>
    exact ⟨_, exec_writeBytes h hw, .operation _
      (s.start.runWriteBytes_ends addr data (by simpa [Instr.wf, payloadOk] using hw))
      (s.start.runWriteBytes_atLeast addr data)⟩
  | readByte addr =>
    exact ⟨_, exec_readByte h, .operation _ (s.start.runReadByte_ends addr) (s.start.runReadByte_atLeast addr)⟩
  | writeByte addr value =>
    exact ⟨_, exec_writeByte h, .operation _ (s.start.runWriteBytes_ends addr [value] (by simp))
      (s.start.runWriteBytes_atLeast addr [value])⟩
  | getTime => exact ⟨_, exec_getTime h, .operation _ s.start.runGetTime_ends s.start.runGetTime_atLeast⟩
  | setTime =>
    exact ⟨_, exec_setTime h hw, .operation _ (s.start.runSetTime_ends _) (s.start.runSetTime_issues _).atLeast⟩
  | setAlarm type seconds minutes hours dayOrDate =>
    obtain ⟨_, fieldsOk⟩ := (Bool.and_eq_true _ _).mp hw
    obtain ⟨t, rfl⟩ := alarmFieldsOk_type fieldsOk
    exact ⟨_, exec_setAlarm h hw, .operation _ (s.start.runSetAlarm_ends t _ _ _ _)
      (s.start.runSetAlarm_atLeast t _ _ _ _)⟩
  | setAlarm3 type minutes hours dayOrDate =>
    obtain ⟨t, rfl⟩ := alarmFieldsOk_type hw
    exact ⟨_, exec_setAlarm3 h hw, .operation _ (s.start.runSetAlarm_ends t _ _ _ _)
      (s.start.runSetAlarm_atLeast t _ _ _ _)⟩
  | setAlarmInterrupt channel enabled =>
    exact ⟨_, exec_setAlarmInterrupt h hw, .operation _ (s.start.runSetAlarmInterrupt_ends channel _)
      (s.start.runSetAlarmInterrupt_issues channel _).atLeast⟩
  | pollAndClearAlarm channel =>
    exact ⟨_, exec_pollAndClearAlarm h hw, .operation _ (s.start.runPollAndClearAlarm_ends channel)
      (s.start.runPollAndClearAlarm_atLeast channel)⟩
  | setSquareWave freq =>
    exact ⟨_, exec_setSquareWave h hw, .operation _ (s.start.runSetSquareWave_ends freq)
      (s.start.runSetSquareWave_issues freq).atLeast⟩
  | oscillatorStopped clear =>
    exact ⟨_, exec_oscillatorStopped h hw, .operation _ (s.start.runOscillatorStopped_ends _)
      (s.start.runOscillatorStopped_atLeast _)⟩
  | readTemperature =>
    exact ⟨_, exec_readTemperature h, .operation _ s.start.runReadTemperature_ends
      s.start.runReadTemperature_issues.atLeast⟩
  | readMemory addr count =>
    obtain ⟨h1, h2⟩ := (inRange_iff _ _ _).mp hw
    exact ⟨_, exec_readMemory h hw, .operation _ (s.start.runReadBytes_ends addr _ h1 h2)
      (s.start.runReadBytes_atLeast addr _)⟩
  | writeMemory addr data =>
    exact ⟨_, exec_writeMemory h hw, .operation _
      (s.start.runWriteBytes_ends addr data (by simpa [Instr.wf, payloadOk] using hw))
      (s.start.runWriteBytes_atLeast addr data)⟩
  | probe => exact ⟨_, exec_probe h, .operation _ s.start.runProbe_ends s.start.runProbe_atLeast⟩

/-- The two operations whose third frame depends on the status byte issue it where the byte asks for it. -/
theorem exec_effectAtLeast_three {i : Instr} {s : State} (h : s.seq = .idle) (hw : i.wf = true)
    (answers : s.Answers 2) (quiet : s.EngineQuiet 2)
    (hi : (∃ ch, i = .pollAndClearAlarm ch ∧ flagSet ch (s.reg.read Config.status) = true) ∨
      (i = .oscillatorStopped 1#8 ∧ osfSet (s.reg.read Config.status) = true)) :
    ∃ t, exec i s = .next t ∧ EffectAtLeast s 3 t := by
  rcases hi with ⟨ch, rfl, hf⟩ | ⟨rfl, ho⟩
  · exact ⟨_, exec_pollAndClearAlarm h hw, .operation _ (s.start.runPollAndClearAlarm_ends ch)
      (State.runPollAndClearAlarm_atLeast_of_flagSet answers quiet hf)⟩
  · exact ⟨_, exec_oscillatorStopped h hw, .operation _ (s.start.runOscillatorStopped_ends true)
      (State.runOscillatorStopped_atLeast_of_osfSet answers quiet ho)⟩

/-- With nothing in the inbox a step changes nothing (R10, R213). -/
theorem step_of_inbox_nil {s : State} (h : s.inbox = []) : step s = .next s := by
  simp only [step, fetch, h]

/-- Settles O51: the log gives each frame its answer's status, so the frame that never returns is the last one,
and the counts of R202 say the operation reaches it. -/
theorem hangLeavesTheSequencerStuck : Obligations.HangLeavesTheSequencerStuck := by
  refine ⟨fun i s n hw idle answers never reached => ?_, exec_hung, fun s _ => step_of_inbox_nil⟩
  have effect : ∃ t m, exec i s = .next t ∧ EffectAtLeast s m t ∧ n < m := by
    rcases reached with hn | ⟨rfl, quiet, hi⟩
    · obtain ⟨t, ht, effect⟩ := exec_effectAtLeast i s idle hw
      exact ⟨t, _, ht, effect, hn⟩
    · obtain ⟨t, ht, effect⟩ := exec_effectAtLeast_three idle hw answers quiet hi
      exact ⟨t, _, ht, effect, by omega⟩
  obtain ⟨t, m, ht, effect, hn⟩ := effect
  obtain ⟨seq, lastErr, response, frames, last⟩ := effect.hungAt hn answers never
  exact ⟨t, ht, seq, lastErr, response, frames, last⟩

end Sys2Proof.Machine
end

section
/-! PROOFS. Facts the families of statements share: each command as its result type and its run of frames, what it
is for a run to go alike from two states, and what of the state the transport depends on. -/

namespace Sys2Proof

/-- The type of a command's result (R100). -/
def Instr.resultKind : Instr → Machine.ResultKind
  | .readBytes _ count | .readMemory _ count => .bytes count.toNat
  | .readByte _ => .byte
  | .getTime => .time
  | .pollAndClearAlarm _ | .oscillatorStopped _ => .bool
  | .readTemperature => .temperature
  | .wframe _ _ | .rframe _ _ | .toBCD _ | .fromBCD _ | .writeBytes _ _ | .writeByte _ _
  | .setTime _ _ _ _ _ _ _ | .setAlarm _ _ _ _ _ | .setAlarm3 _ _ _ _ | .setAlarmInterrupt _ _
  | .setSquareWave _ | .writeMemory _ _ | .probe => .none

/-- The run of frames of an alarm's setting; a code outside the closed set has none. -/
def Machine.State.runAlarmCode (s : Machine.State) (type seconds minutes hours dayOrDate : Byte) :
    Machine.Run Machine.Result :=
  match AlarmType.ofCode? type with
  | none => .done .none s
  | some t => s.runSetAlarm t seconds minutes hours dayOrDate

/-- The run of frames of a command that touches the bus; the other instructions have none. -/
def Instr.run (s : Machine.State) : Instr → Machine.Run Machine.Result
  | .readBytes addr count | .readMemory addr count => s.runReadBytes addr count.toNat
  | .writeBytes addr data | .writeMemory addr data => s.runWriteBytes addr data
  | .readByte addr => s.runReadByte addr
  | .writeByte addr value => s.runWriteBytes addr [value]
  | .getTime => s.runGetTime
  | .setTime seconds minutes hours weekday date month year =>
    s.runSetTime ⟨seconds, minutes, hours, weekday, date, month, year⟩
  | .setAlarm type seconds minutes hours dayOrDate => s.runAlarmCode type seconds minutes hours dayOrDate
  | .setAlarm3 type minutes hours dayOrDate => s.runAlarmCode type 0x00#8 minutes hours dayOrDate
  | .setAlarmInterrupt channel enabled => s.runSetAlarmInterrupt channel (enabled == 0x01#8)
  | .pollAndClearAlarm channel => s.runPollAndClearAlarm channel
  | .setSquareWave freq => s.runSetSquareWave freq
  | .oscillatorStopped clear => s.runOscillatorStopped (clear == 0x01#8)
  | .readTemperature => s.runReadTemperature
  | .probe => s.runProbe
  | .wframe _ _ | .rframe _ _ | .toBCD _ | .fromBCD _ => .done .none s

end Sys2Proof

namespace Sys2Proof.Machine

/-! ## A command is its run of frames, ended -/

theorem State.runAlarmCode_code (s : State) (t : AlarmType) (seconds minutes hours dayOrDate : Byte) :
    s.runAlarmCode t.code seconds minutes hours dayOrDate = s.runSetAlarm t seconds minutes hours dayOrDate := by
  rw [State.runAlarmCode, AlarmType.ofCode_code]

theorem alarmType_of_setAlarm_wf {type seconds minutes hours dayOrDate : Byte}
    (hw : (Instr.setAlarm type seconds minutes hours dayOrDate).wf = true) : ∃ t : AlarmType, type = t.code := by
  obtain ⟨_, fieldsOk⟩ := (Bool.and_eq_true _ _).mp hw
  exact alarmFieldsOk_type fieldsOk

/-- The meaning of a command that touches the bus: its run of frames, then its end (R200, R202). -/
theorem exec_command {i : Instr} {s : State} (hc : i.isCommand = true) (hb : i.isCodec = false)
    (hw : i.wf = true) (h : s.seq = .idle) : exec i s = .next (conclude i.resultKind (i.run s.start)) := by
  cases i with
  | wframe | rframe => cases hc
  | toBCD | fromBCD => cases hb
  | readBytes => exact exec_readBytes h hw
  | writeBytes => exact exec_writeBytes h hw
  | readByte => exact exec_readByte h
  | writeByte => exact exec_writeByte h
  | getTime => exact exec_getTime h
  | setTime => exact exec_setTime h hw
  | setAlarm =>
    obtain ⟨t, rfl⟩ := alarmType_of_setAlarm_wf hw
    rw [exec_setAlarm h hw]
    simp only [Instr.run, State.runAlarmCode_code, Instr.resultKind]
  | setAlarm3 =>
    obtain ⟨t, rfl⟩ := alarmFieldsOk_type hw
    rw [exec_setAlarm3 h hw]
    simp only [Instr.run, State.runAlarmCode_code, Instr.resultKind]
  | setAlarmInterrupt => exact exec_setAlarmInterrupt h hw
  | pollAndClearAlarm => exact exec_pollAndClearAlarm h hw
  | setSquareWave => exact exec_setSquareWave h hw
  | oscillatorStopped => exact exec_oscillatorStopped h hw
  | readTemperature => exact exec_readTemperature h
  | readMemory => exact exec_readMemory h hw
  | writeMemory => exact exec_writeMemory h hw
  | probe => exact exec_probe h

/-- A codec operation answers its byte at once (R120, R121). -/
theorem exec_codec {i : Instr} (hb : i.isCodec = true) (hw : i.wf = true) :
    ∃ v, ∀ s : State, s.seq = .idle → exec i s = .next (concludeCodec v s.start) := by
  cases i with
  | toBCD n => exact ⟨toBcd n, fun _ h => exec_toBCD h hw⟩
  | fromBCD b => exact ⟨fromBcd b, fun _ h => exec_fromBCD h⟩
  | _ => cases hb

/-! ## Two runs that go alike -/

/-- Two runs end in the same way, with the same value or code, in states related by `R`. -/
inductive Run.Agree {α : Type} (R : State → State → Prop) : Run α → Run α → Prop
  | done (a : α) {s u : State} (h : R s u) : Agree R (.done a s) (.done a u)
  | busError (c : Byte) {s u : State} (h : R s u) : Agree R (.busError c s) (.busError c u)
  | hung {s u : State} (h : R s u) : Agree R (.hung s) (.hung u)

theorem Run.Agree.refl {α : Type} {R : State → State → Prop} (hR : ∀ s, R s s) (r : Run α) :
    Run.Agree R r r := by
  cases r with
  | done a s => exact .done a (hR s)
  | busError c s => exact .busError c (hR s)
  | hung s => exact .hung (hR s)

theorem Run.Agree.ofStatus {α : Type} {R : State → State → Prop} (status : Option Byte) (a : α) {s u : State}
    (h : R s u) : Run.Agree R (Run.ofStatus status a s) (Run.ofStatus status a u) := by
  cases status with
  | none => exact .hung h
  | some c =>
    simp only [Run.ofStatus]
    cases c == 0x00#8
    · exact .busError c h
    · exact .done a h

/-- One run after another, the second compared where the first goes on. -/
theorem Run.Agree.andThen_of_done {α β : Type} {R : State → State → Prop} {r q : Run α}
    {k l : α → State → Run β} (h : Run.Agree R r q)
    (hk : ∀ a s u, r = .done a s → q = .done a u → R s u → Run.Agree R (k a s) (l a u)) :
    Run.Agree R (r.andThen k) (q.andThen l) := by
  cases h with
  | done a h => exact hk a _ _ rfl rfl h
  | busError c h => exact .busError c h
  | hung h => exact .hung h

theorem Run.Agree.andThen {α β : Type} {R : State → State → Prop} {r q : Run α} {k l : α → State → Run β}
    (h : Run.Agree R r q) (hk : ∀ a s u, R s u → Run.Agree R (k a s) (l a u)) :
    Run.Agree R (r.andThen k) (q.andThen l) := h.andThen_of_done fun a s u _ _ hs => hk a s u hs

/-- A run goes on past a frame that ended with status 0 alone. -/
theorem Run.ofStatus_done {α : Type} {status : Option Byte} {a b : α} {s t : State}
    (h : Run.ofStatus status a s = .done b t) : status = some 0x00#8 ∧ b = a ∧ t = s := by
  rcases Run.ofStatus_cases status a s with ⟨_, e⟩ | ⟨ok, e⟩ | ⟨c, _, _, e⟩
  · rw [e] at h; cases h
  · rw [e] at h; cases h; exact ⟨ok, rfl, rfl⟩
  · rw [e] at h; cases h

/-- A last step that touches no bus. -/
theorem Run.Agree.thenDone {α β : Type} {R : State → State → Prop} {r q : Run α} {f : α → β}
    (h : Run.Agree R r q) :
    Run.Agree R (r.andThen fun a s => .done (f a) s) (q.andThen fun a s => .done (f a) s) :=
  h.andThen fun a _ _ hs => .done (f a) hs

/-- `R` relates states whose difference no command looks at: the transfers commands are made of, their end and
their taking up carry `R` on and answer alike. -/
structure Unseen (R : State → State → Prop) : Prop where
  seq      : ∀ {s u}, R s u → u.seq = s.seq
  start    : ∀ {s u}, R s u → R s.start u.start
  memRead  : ∀ {s u}, R s u → ∀ addr n, Run.Agree R (s.memRead addr n) (u.memRead addr n)
  memWrite : ∀ {s u}, R s u → ∀ addr data, Run.Agree R (s.memWrite addr data) (u.memWrite addr data)
  probe    : ∀ {s u}, R s u → Run.Agree R s.runProbe u.runProbe
  codec    : ∀ {s u}, R s u → ∀ v, R (concludeCodec v s) (concludeCodec v u)
  conclude : ∀ {r q}, Run.Agree R r q → ∀ kind, R (Machine.conclude kind r) (Machine.conclude kind q)

section Unseen

variable {R : State → State → Prop} {s u : State}

theorem Unseen.memReadByte (hR : Unseen R) (h : R s u) (addr : Byte) :
    Run.Agree R (s.memReadByte addr) (u.memReadByte addr) := (hR.memRead h addr 1).thenDone

/-- A write, then the operation's answer. -/
theorem Unseen.memWriteDone (hR : Unseen R) (h : R s u) (addr : Byte) (data : List Byte) (v : Result) :
    Run.Agree R ((s.memWrite addr data).andThen fun _ t => .done v t)
      ((u.memWrite addr data).andThen fun _ t => .done v t) := (hR.memWrite h addr data).thenDone

/-- A read of a byte, then a write of one made from it: the form of R106. -/
theorem Unseen.readThenWrite (hR : Unseen R) (h : R s u) (addr : Byte) (f : Byte → Byte) (v : Result) :
    Run.Agree R
      ((s.memReadByte addr).andThen fun b t => (t.memWrite addr [f b]).andThen fun _ t' => .done v t')
      ((u.memReadByte addr).andThen fun b t => (t.memWrite addr [f b]).andThen fun _ t' => .done v t') :=
  (hR.memReadByte h addr).andThen fun b _ _ ht => hR.memWriteDone ht addr [f b] v

theorem Unseen.runSetTime (hR : Unseen R) (h : R s u) (t : CivilTime) :
    Run.Agree R (s.runSetTime t) (u.runSetTime t) :=
  (hR.memWrite h _ _).andThen fun _ _ _ h1 => hR.readThenWrite h1 Config.status clearOsf .none

theorem Unseen.runAlarmCode (hR : Unseen R) (h : R s u) (type seconds minutes hours dayOrDate : Byte) :
    Run.Agree R (s.runAlarmCode type seconds minutes hours dayOrDate)
      (u.runAlarmCode type seconds minutes hours dayOrDate) := by
  unfold State.runAlarmCode
  cases AlarmType.ofCode? type with
  | none => exact .done _ h
  | some t => exact hR.memWriteDone h _ _ _

theorem Unseen.runPollAndClearAlarm (hR : Unseen R) (h : R s u) (channel : Byte) :
    Run.Agree R (s.runPollAndClearAlarm channel) (u.runPollAndClearAlarm channel) := by
  refine (hR.memReadByte h _).andThen fun st _ _ h1 => ?_
  cases flagSet channel st
  · exact .done _ h1
  · exact hR.memWriteDone h1 _ _ _

theorem Unseen.runOscillatorStopped (hR : Unseen R) (h : R s u) (clear : Bool) :
    Run.Agree R (s.runOscillatorStopped clear) (u.runOscillatorStopped clear) := by
  refine (hR.memReadByte h _).andThen fun st _ _ h1 => ?_
  cases osfSet st && clear
  · exact .done _ h1
  · exact hR.memWriteDone h1 _ _ _

theorem Unseen.runReadTemperature (hR : Unseen R) (h : R s u) :
    Run.Agree R s.runReadTemperature u.runReadTemperature :=
  (hR.memReadByte h _).andThen fun _ _ _ h1 => (hR.memReadByte h1 _).thenDone

/-- Every command's run goes alike from both states. -/
theorem Unseen.run (hR : Unseen R) (h : R s u) (i : Instr) : Run.Agree R (i.run s) (i.run u) := by
  cases i with
  | wframe | rframe | toBCD | fromBCD => exact .done _ h
  | readBytes addr count | readMemory addr count => exact (hR.memRead h addr _).thenDone
  | writeBytes addr data | writeMemory addr data => exact hR.memWriteDone h addr data _
  | readByte addr => exact (hR.memReadByte h addr).thenDone
  | writeByte addr value => exact hR.memWriteDone h addr [value] _
  | getTime => exact (hR.memRead h _ _).thenDone
  | setTime => exact hR.runSetTime h _
  | setAlarm | setAlarm3 => exact hR.runAlarmCode h _ _ _ _ _
  | setAlarmInterrupt channel enabled => exact hR.readThenWrite h Config.control _ _
  | pollAndClearAlarm channel => exact hR.runPollAndClearAlarm h channel
  | setSquareWave freq => exact hR.readThenWrite h Config.control _ _
  | oscillatorStopped clear => exact hR.runOscillatorStopped h _
  | readTemperature => exact hR.runReadTemperature h
  | probe => exact hR.probe h

/-- Next states, related by `R`. -/
def NextAlike (R : State → State → Prop) (i : Instr) (s u : State) : Prop :=
  ∃ t v, exec i s = .next t ∧ exec i u = .next v ∧ R t v

/-- Refused alike, or next states related by `R`. -/
def ExecAlike (R : State → State → Prop) (i : Instr) (s u : State) : Prop :=
  (∃ r, exec i s = .refused r ∧ exec i u = .refused r) ∨ NextAlike R i s u

/-- Refusals depend on the instruction and the sequencer alone, so only admitted instructions at an idle
sequencer are left to compare. -/
theorem ExecAlike.of_admitted {i : Instr} (hs : u.seq = s.seq)
    (h : s.seq = .idle → u.seq = .idle → i.wf = true → NextAlike R i s u) : ExecAlike R i s u := by
  cases hq : s.seq with
  | hung => exact .inl ⟨_, exec_hung i s hq, exec_hung i u (hs.trans hq)⟩
  | idle =>
    cases hw : i.wf with
    | false => exact .inl ⟨_, exec_outOfDomain i s hq hw, exec_outOfDomain i u (hs.trans hq) hw⟩
    | true => exact .inr (h hq (hs.trans hq) hw)

/-- A difference no command looks at stays one over every command. -/
theorem Unseen.exec_command (hR : Unseen R) (h : R s u) {i : Instr} (hc : i.isCommand = true) :
    ExecAlike R i s u := by
  refine .of_admitted (hR.seq h) fun hs hu hw => ?_
  cases hb : i.isCodec with
  | false =>
    exact ⟨_, _, Machine.exec_command hc hb hw hs, Machine.exec_command hc hb hw hu,
      hR.conclude (hR.run (hR.start h) i) _⟩
  | true =>
    obtain ⟨v, hv⟩ := exec_codec hb hw
    exact ⟨_, _, hv s hs, hv u hu, hR.codec (hR.start h) v⟩

end Unseen

/-! ## What the transport depends on -/

/-- Opening a frame makes the same cells from the same cells, parameters and answer. -/
theorem State.openFrame_reg_congr {s u : State} (hr : u.reg = s.reg) (hp : u.params = s.params)
    (ha : u.answer = s.answer) : u.openFrame.reg = s.openFrame.reg := by
  simp only [State.openFrame, State.takeAnswer_reg, State.engineStep, hp, ha]
  cases s.params.engine <;> simp [hr]

/-- The draws depend on their number alone. -/
theorem State.drawBytes_fst_congr {s u : State} (h : u.draws = s.draws) (n : Nat) :
    (u.drawBytes n).1 = (s.drawBytes n).1 := by
  induction n generalizing s u with
  | zero => rfl
  | succ n ih => simp only [State.drawBytes, State.drawByte, h]; congr 1; exact ih rfl

/-- An unspecified result depends on the number of draws alone, and so does their number after it (R204). -/
theorem State.drawResult_congr {s u : State} (h : u.draws = s.draws) (kind : ResultKind) :
    u.drawResult kind = ((s.drawResult kind).1, { u with draws := (s.drawResult kind).2.draws }) := by
  cases kind with
  | none => simp only [State.drawResult, ← h]
  | byte | bool | temperature =>
    simp only [State.drawResult, State.drawByte, State.drawBool, State.drawHalf, h]
  | bytes | time =>
    simp only [State.drawResult, State.drawBytes_snd, State.drawBytes_fst_congr h, h]

end Sys2Proof.Machine
end

section
/-! PROOFS. The family of spec/10_state.md: `LASTERR` (R24) and `PTR` (R23) as what no command reads. -/

namespace Sys2Proof.Machine

/-! ## States that differ in LASTERR -/

/-- The state with `x` in `LASTERR`. -/
def State.setLastErr (s : State) (x : Byte) : State := { s with lastErr := x }

/-- `u` is `s` but for `LASTERR`. -/
def State.SameButLastErr (s u : State) : Prop := ∃ x, u = s.setLastErr x

theorem State.sameButLastErr_setLastErr (s : State) (x : Byte) : s.SameButLastErr (s.setLastErr x) := ⟨x, rfl⟩

theorem State.openFrame_setLastErr (s : State) (x : Byte) :
    (s.setLastErr x).openFrame = s.openFrame.setLastErr x := by
  rw [State.openFrame_eq, s.openFrame_eq, State.openFrame_reg_congr (s := s) (u := s.setLastErr x) rfl rfl rfl]
  rfl

theorem State.afterWrite_setLastErr (s : State) (x : Byte) (dev : DevAddr) (bytes : List Byte) :
    (s.setLastErr x).afterWrite dev bytes = (s.afterWrite dev bytes).setLastErr x := by
  have hreg : ∀ bs, (s.setLastErr x).regAfter bs = s.regAfter bs := fun bs => by
    cases bs <;> simp only [State.regAfter, State.openFrame_setLastErr] <;> rfl
  have hptr : ∀ bs, (s.setLastErr x).ptrAfter bs = s.ptrAfter bs := fun bs => by cases bs <;> rfl
  simp only [State.afterWrite, hreg, hptr]
  rfl

theorem State.drawBytes_setLastErr (s : State) (x : Byte) (n : Nat) :
    (s.setLastErr x).drawBytes n = ((s.drawBytes n).1, (s.drawBytes n).2.setLastErr x) := by
  refine Prod.ext (State.drawBytes_fst_congr (s := s) (u := s.setLastErr x) rfl n) ?_
  simp only [State.drawBytes_snd]
  rfl

theorem State.slaveLoad_setLastErr (s : State) (x : Byte) :
    (s.setLastErr x).slaveLoad = (s.slaveLoad.1, s.slaveLoad.2.setLastErr x) := by
  show (bif s.ptr == Config.reservedCell then _ else _) = _
  unfold State.slaveLoad
  cases s.ptr == Config.reservedCell <;> rfl

theorem State.slaveRead_setLastErr (s : State) (x : Byte) (n : Nat) :
    (s.setLastErr x).slaveRead n = ((s.slaveRead n).1, (s.slaveRead n).2.setLastErr x) := by
  induction n generalizing s with
  | zero => rfl
  | succ n ih => simp only [State.slaveRead, State.slaveLoad_setLastErr, ih]

theorem State.deliverRead_setLastErr (s : State) (x : Byte) (dev : DevAddr) (count : Nat) (a : FrameAnswer) :
    (s.setLastErr x).deliverRead dev count a =
      ((s.deliverRead dev count a).1, (s.deliverRead dev count a).2.setLastErr x) := by
  unfold State.deliverRead
  show (if dev = s.params.devAddr then _ else _) = _
  by_cases hd : dev = s.params.devAddr
  · rw [if_pos hd, if_pos hd]
    cases answerOk a
    · exact State.drawBytes_setLastErr { s with ptr := _ } x count
    · exact s.slaveRead_setLastErr x count
  · rw [if_neg hd, if_neg hd]
    exact s.drawBytes_setLastErr x count

theorem State.delivered_setLastErr (s : State) (x : Byte) (dev : DevAddr) (count : Nat) :
    (s.setLastErr x).delivered dev count =
      ((s.delivered dev count).1, (s.delivered dev count).2.setLastErr x) := by
  unfold State.delivered
  rw [State.openFrame_setLastErr]
  exact s.openFrame.deliverRead_setLastErr x dev count s.answer

theorem State.afterRead_setLastErr (s : State) (x : Byte) (dev : DevAddr) (count : Nat) :
    (s.setLastErr x).afterRead dev count = (s.afterRead dev count).setLastErr x := by
  simp only [State.afterRead, State.readData, State.delivered_setLastErr, State.openFrame_setLastErr]
  rfl

theorem State.busWrite_setLastErr (s : State) (x : Byte) (dev : DevAddr) (bytes : List Byte) :
    Run.Agree State.SameButLastErr (s.busWrite dev bytes) ((s.setLastErr x).busWrite dev bytes) := by
  rw [State.busWrite_eq, State.busWrite_eq, State.afterWrite_setLastErr]
  exact .ofStatus _ _ (State.sameButLastErr_setLastErr _ x)

theorem State.busRead_setLastErr (s : State) (x : Byte) (dev : DevAddr) (count : Nat) :
    Run.Agree State.SameButLastErr (s.busRead dev count) ((s.setLastErr x).busRead dev count) := by
  have data : (s.setLastErr x).readData dev count = s.readData dev count := by
    rw [State.readData, State.delivered_setLastErr, State.readData]
  rw [State.busRead_eq, State.busRead_eq, State.afterRead_setLastErr, data]
  exact .ofStatus _ _ (State.sameButLastErr_setLastErr _ x)

theorem State.SameButLastErr.conclude {r q : Run Result} (h : Run.Agree State.SameButLastErr r q)
    (kind : ResultKind) : (conclude kind r).SameButLastErr (conclude kind q) := by
  cases h with
  | done a h => obtain ⟨x, rfl⟩ := h; exact ⟨0x00#8, rfl⟩
  | @busError c s _ h =>
    obtain ⟨x, rfl⟩ := h
    obtain ⟨d, hd⟩ := s.drawResult_snd kind
    refine ⟨c, ?_⟩
    simp only [Machine.conclude, State.drawResult_congr (s := s) (u := s.setLastErr x) rfl kind, hd]
    rfl
  | hung h => obtain ⟨x, rfl⟩ := h; exact ⟨x, rfl⟩

theorem State.SameButLastErr.concludeFrame {α : Type} {r q : Run α} (h : Run.Agree State.SameButLastErr r q) :
    (concludeFrame r).SameButLastErr (concludeFrame q) := by
  cases h with
  | done a h | busError c h => exact h
  | hung h => obtain ⟨x, rfl⟩ := h; exact ⟨x, rfl⟩

/-- No command looks at `LASTERR` (R24). -/
theorem unseen_lastErr : Unseen State.SameButLastErr where
  seq := by rintro s _ ⟨x, rfl⟩; rfl
  start := by rintro s _ ⟨x, rfl⟩; exact ⟨x, rfl⟩
  memRead := by
    rintro s _ ⟨x, rfl⟩ addr n
    refine (s.busWrite_setLastErr x s.params.devAddr [addr]).andThen ?_
    rintro _ s1 _ ⟨y, rfl⟩
    exact s1.busRead_setLastErr y s1.params.devAddr n
  memWrite := by rintro s _ ⟨x, rfl⟩ addr data; exact s.busWrite_setLastErr x s.params.devAddr (addr :: data)
  probe := by rintro s _ ⟨x, rfl⟩; exact (s.busWrite_setLastErr x s.params.devAddr []).thenDone
  codec := by rintro s _ ⟨x, rfl⟩ v; exact ⟨x, rfl⟩
  conclude h kind := State.SameButLastErr.conclude h kind

/-- No bare frame looks at `LASTERR` either. -/
theorem exec_frame_setLastErr (s : State) (x : Byte) {i : Instr} (hc : i.isCommand = false) :
    ExecAlike State.SameButLastErr i s (s.setLastErr x) := by
  refine .of_admitted rfl fun hs hu hw => ?_
  cases i with
  | wframe dev bytes =>
    exact ⟨_, _, exec_wframe hs hw, exec_wframe hu hw, .concludeFrame (s.start.busWrite_setLastErr x dev bytes)⟩
  | rframe dev count =>
    exact ⟨_, _, exec_rframe hs hw, exec_rframe hu hw,
      .concludeFrame (s.start.busRead_setLastErr x dev count.toNat)⟩
  | _ => cases hc

/-- Settles O12: commands do not look at `LASTERR`, and neither do the two bare frames. -/
theorem lastErrIsReadByNothing : Obligations.LastErrIsReadByNothing := by
  intro i s x
  have alike : ExecAlike State.SameButLastErr i s (s.setLastErr x) := by
    cases hc : i.isCommand with
    | true => exact unseen_lastErr.exec_command (s.sameButLastErr_setLastErr x) hc
    | false => exact exec_frame_setLastErr s x hc
  refine alike.imp_right ?_
  rintro ⟨t, _, ht, hu, y, rfl⟩
  exact ⟨t, _, ht, hu, rfl⟩

/-! ## States that differ in PTR -/

/-- The state with `PTR` at `p`. -/
def State.setPtr (s : State) (p : Byte) : State := { s with ptr := p }

/-- `u` is `s` but for `PTR`. -/
def State.SameButPtr (s u : State) : Prop := ∃ p, u = s.setPtr p

theorem State.sameButPtr_refl (s : State) : s.SameButPtr s := ⟨s.ptr, rfl⟩

/-- A write frame leaves the same state wherever `PTR` stood, but for `PTR` itself where no byte arrived. -/
theorem State.afterWrite_setPtr (s : State) (p : Byte) (dev : DevAddr) (bytes : List Byte) :
    (s.setPtr p).afterWrite dev bytes =
      (s.afterWrite dev bytes).setPtr ((s.setPtr p).ptrAfter (s.taken dev bytes)) := by
  have hopen : (s.setPtr p).openFrame.reg = s.openFrame.reg := State.openFrame_reg_congr rfl rfl rfl
  have hreg : ∀ bs, (s.setPtr p).regAfter bs = s.regAfter bs := fun bs => by
    cases bs with
    | nil => exact hopen
    | cons a data => simp only [State.regAfter, hopen]; rfl
  simp only [State.afterWrite, hreg]
  rfl

theorem State.busWrite_setPtr (s : State) (p : Byte) (dev : DevAddr) (bytes : List Byte) :
    Run.Agree State.SameButPtr (s.busWrite dev bytes) ((s.setPtr p).busWrite dev bytes) := by
  rw [State.busWrite_eq, State.busWrite_eq, State.afterWrite_setPtr]
  exact .ofStatus _ _ ⟨_, rfl⟩

/-- An address frame that succeeds loads `PTR`, so where it stood is forgotten (R130). -/
theorem State.afterWrite_address_setPtr {s : State} (ok : s.answer.status = some 0x00#8) (p addr : Byte) :
    (s.setPtr p).afterWrite s.params.devAddr [addr] = s.afterWrite s.params.devAddr [addr] := by
  rw [State.afterWrite_setPtr, State.afterWrite, State.taken_ok ok]
  rfl

/-- A read loads `PTR` with its first frame, so that its read frame starts from one place (R132). -/
theorem State.memRead_setPtr (s : State) (p addr : Byte) (n : Nat) :
    Run.Agree State.SameButPtr (s.memRead addr n) ((s.setPtr p).memRead addr n) := by
  refine (s.busWrite_setPtr p s.params.devAddr [addr]).andThen_of_done fun _ s1 u1 hs hu _ => ?_
  rw [State.busWrite_eq] at hs hu
  obtain ⟨ok, _, rfl⟩ := Run.ofStatus_done hs
  obtain ⟨_, _, rfl⟩ := Run.ofStatus_done hu
  rw [State.afterWrite_address_setPtr ok]
  exact .refl State.sameButPtr_refl _

theorem State.SameButPtr.conclude {r q : Run Result} (h : Run.Agree State.SameButPtr r q) (kind : ResultKind) :
    (conclude kind r).SameButPtr (conclude kind q) := by
  cases h with
  | done a h => obtain ⟨p, rfl⟩ := h; exact ⟨p, rfl⟩
  | @busError c s _ h =>
    obtain ⟨p, rfl⟩ := h
    obtain ⟨d, hd⟩ := s.drawResult_snd kind
    refine ⟨p, ?_⟩
    simp only [Machine.conclude, State.drawResult_congr (s := s) (u := s.setPtr p) rfl kind, hd]
    rfl
  | hung h => obtain ⟨p, rfl⟩ := h; exact ⟨p, rfl⟩

/-- No command looks at where `PTR` stood (R23, R209). -/
theorem unseen_ptr : Unseen State.SameButPtr where
  seq := by rintro s _ ⟨p, rfl⟩; rfl
  start := by rintro s _ ⟨p, rfl⟩; exact ⟨p, rfl⟩
  memRead := by rintro s _ ⟨p, rfl⟩ addr n; exact s.memRead_setPtr p addr n
  memWrite := by rintro s _ ⟨p, rfl⟩ addr data; exact s.busWrite_setPtr p s.params.devAddr (addr :: data)
  probe := by rintro s _ ⟨p, rfl⟩; exact (s.busWrite_setPtr p s.params.devAddr []).thenDone
  codec := by rintro s _ ⟨p, rfl⟩ v; exact ⟨p, rfl⟩
  conclude h kind := State.SameButPtr.conclude h kind

/-- Settles O13: every read of a command loads `PTR` first, and its writes load it too. -/
theorem commandsDoNotRelyOnPtr : Obligations.CommandsDoNotRelyOnPtr := by
  intro i s p hc
  refine (unseen_ptr.exec_command (u := s.setPtr p) ⟨p, rfl⟩ hc).imp_right ?_
  rintro ⟨t, _, ht, hu, q, rfl⟩
  exact ⟨t, _, ht, hu, rfl⟩

end Sys2Proof.Machine
end

section
/-! PROOFS. The family of spec/10_state.md: the state after reset (R51, R230) and the invariant of the machine. -/

namespace Sys2Proof.Machine

/-! ## Reset -/

/-- Settles O7: the reset state written out, its cells read through `RegFile.ofFun`. -/
theorem resetLeavesTheDeviceUnspecified : Obligations.ResetLeavesTheDeviceUnspecified :=
  ⟨rfl, rfl, rfl, rfl, RegFile.read_ofFun _, rfl, fun a _ => RegFile.read_ofFun _ a⟩

/-- Settles O8: buffers and ports are empty after reset. -/
theorem resetMeetsTheInvariant : Obligations.ResetMeetsTheInvariant where
  buffersEmpty _ := ⟨rfl, rfl⟩
  fewFrames := Nat.zero_le 4
  frameLimits _ h := nomatch h
  lastErrMirrors _ h := nomatch h
  onlyLastFails _ h := nomatch h

/-! ## What a run of frames leaves on the bus port and in the buffers -/

/-- The bus port's part of the invariant: at most four frames, within the limits, none after a failure. -/
structure BusOk (bus : List FrameRecord) : Prop where
  few     : bus.length ≤ 4
  limits  : ∀ r ∈ bus, r.frame.withinLimits = true
  oneLast : ∀ r ∈ bus.dropLast, r.status = some 0x00#8

theorem BusOk.nil : BusOk [] := ⟨Nat.zero_le 4, by simp, by simp⟩

theorem BusOk.of_allOk {fs : List FrameRecord} (few : fs.length ≤ 4)
    (limits : ∀ r ∈ fs, r.frame.withinLimits = true) (ok : ∀ r ∈ fs, r.status = some 0x00#8) : BusOk fs :=
  ⟨few, limits, fun r hr => ok r (List.dropLast_subset fs hr)⟩

/-- Frames that ended with 0, then one that ended in any way. -/
theorem BusOk.concat {fs : List FrameRecord} {last : FrameRecord} (few : fs.length + 1 ≤ 4)
    (limits : ∀ r ∈ fs, r.frame.withinLimits = true) (lastLimits : last.frame.withinLimits = true)
    (ok : ∀ r ∈ fs, r.status = some 0x00#8) : BusOk (fs ++ [last]) := by
  refine ⟨by simpa using few, fun r hr => ?_, by simpa using ok⟩
  rcases List.mem_append.mp hr with h | h
  · exact limits r h
  · rw [List.mem_singleton.mp h]; exact lastLimits

theorem Run.EndsAs.busOk {α : Type} {s : State} {n : Nat} {r : Run α} (h : Run.EndsAs s.start n r) (hn : n ≤ 4) :
    BusOk r.state.bus := by
  cases h with
  | done a t fs trail bus few ok limits calm =>
    simp only [Run.state, bus, List.nil_append]
    exact .of_allOk (few.trans hn) limits ok
  | busError c t fs last trail bus few ok limits lastLimits code nonzero calm =>
    simp only [Run.state, bus, List.nil_append]
    exact .concat (few.trans hn) limits lastLimits ok
  | hung t fs last trail bus few ok limits lastLimits never =>
    simp only [Run.state, bus, List.nil_append]
    exact .concat (few.trans hn) limits lastLimits ok

/-- Both buffers are empty: no frame pending, no byte queued (R25). -/
def State.Calm (s : State) : Prop := s.pending = none ∧ s.received = []

/-- A run from empty buffers leaves them empty unless it hangs; a hang is where the sequencer gets stuck (R25,
R220). -/
theorem conclude_calm {s : State} {n : Nat} {r : Run Result} {kind : ResultKind} (h : Run.EndsAs s.start n r)
    (calm : s.Calm) (idle : (conclude kind r).seq = .idle) : (conclude kind r).Calm := by
  cases h with
  | done a t fs trail bus few ok limits keeps => exact keeps calm
  | busError c t fs last trail bus few ok limits lastLimits code nonzero keeps =>
    obtain ⟨d, e⟩ := conclude_busError kind c t
    rw [e]
    exact keeps calm
  | hung => cases idle

theorem concludeFrame_calm {α : Type} {s : State} {n : Nat} {r : Run α} (h : Run.EndsAs s.start n r)
    (calm : s.Calm) (idle : (concludeFrame r).seq = .idle) : (concludeFrame r).Calm := by
  cases h with
  | done a t fs trail bus few ok limits keeps => exact keeps calm
  | busError c t fs last trail bus few ok limits lastLimits code nonzero keeps => exact keeps calm
  | hung => cases idle

/-- The result port's part of the invariant: a status other than 0 stands in `LASTERR` too (R24). -/
def State.Mirrored (s : State) : Prop := ∀ r, s.response = some r → r.status ≠ 0x00#8 → s.lastErr = r.status

/-- Status 0 on the result port asks nothing of `LASTERR`. -/
theorem State.Mirrored.of_zero {s : State} {v : Result} (h : s.response = some ⟨0x00#8, v⟩) : s.Mirrored := by
  intro r hr nonzero
  rw [h] at hr
  cases hr
  exact absurd rfl nonzero

/-- A run changes neither `LASTERR` nor the result port (`Trail`), and its end writes both or neither. -/
theorem conclude_mirrored {s : State} {n : Nat} {r : Run Result} {kind : ResultKind} (h : Run.EndsAs s.start n r)
    (mirrored : s.Mirrored) : (conclude kind r).Mirrored := by
  cases h with
  | done a t => exact .of_zero (s := conclude kind (.done a t)) rfl
  | busError c t =>
    obtain ⟨d, e⟩ := conclude_busError kind c t
    rw [e]
    intro r hr _
    cases hr
    rfl
  | hung t fs last trail =>
    intro r hr nonzero
    exact trail.lastErr.trans (mirrored r (trail.response.symm.trans hr) nonzero)

@[simp] theorem concludeFrame_lastErr {α : Type} (r : Run α) : (concludeFrame r).lastErr = r.state.lastErr := by
  cases r <;> rfl

@[simp] theorem concludeFrame_response {α : Type} (r : Run α) :
    (concludeFrame r).response = r.state.response := by
  cases r <;> rfl

theorem concludeFrame_mirrored {α : Type} {s : State} {n : Nat} {r : Run α} (h : Run.EndsAs s.start n r)
    (mirrored : s.Mirrored) : (concludeFrame r).Mirrored := by
  intro x hx nonzero
  rw [concludeFrame_response, h.trail.response] at hx
  rw [concludeFrame_lastErr, h.trail.lastErr]
  exact mirrored x hx nonzero

/-! ## The invariant, step by step -/

theorem State.Inv.of_parts {s : State} (buffers : s.seq = .idle → s.Calm) (bus : BusOk s.bus)
    (mirrored : s.Mirrored) : s.Inv := ⟨buffers, bus.few, bus.limits, mirrored, bus.oneLast⟩

/-- The invariant reads the sequencer, its buffers, the two ports and `LASTERR` alone. -/
theorem State.Inv.congr {s t : State} (inv : s.Inv) (seq : t.seq = s.seq) (pending : t.pending = s.pending)
    (received : t.received = s.received) (bus : t.bus = s.bus) (response : t.response = s.response)
    (lastErr : t.lastErr = s.lastErr) : t.Inv := by
  obtain ⟨h1, h2, h3, h4, h5⟩ := inv
  constructor <;> simpa only [seq, pending, received, bus, response, lastErr]

theorem Effect.keepsInv {s t : State} (effect : Effect s t) (idle : s.seq = .idle) (inv : s.Inv) : t.Inv := by
  have calm : s.Calm := inv.buffersEmpty idle
  cases effect with
  | codec v => exact .of_parts (fun _ => calm) .nil (.of_zero (v := .byte v) rfl)
  | frame r ends =>
    exact .of_parts (concludeFrame_calm ends calm) (by rw [concludeFrame_bus]; exact ends.busOk (by omega))
      (concludeFrame_mirrored ends inv.lastErrMirrors)
  | operation kind r ends =>
    exact .of_parts (conclude_calm ends calm) (by rw [conclude_bus]; exact ends.busOk (Nat.le_refl 4))
      (conclude_mirrored ends inv.lastErrMirrors)

theorem State.Inv.engineStep {s : State} (inv : s.Inv) (ws : List EngineWrite) : (s.engineStep ws).Inv :=
  inv.congr (by simp) (by simp) (by simp) (by simp) (by simp) (by simp)

theorem State.hostReset_inv (s : State) : s.hostReset.Inv :=
  .of_parts (fun _ => ⟨rfl, rfl⟩) .nil fun _ h => nomatch h

/-- Settles O9, by the cases of a step: the engine touches nothing the invariant reads, a restart empties it all,
and an instruction's frames and its end keep it. -/
theorem everyStepKeepsTheInvariant : Obligations.EveryStepKeepsTheInvariant := by
  intro s t inv h
  rcases step_next h with ⟨_, rfl⟩ | ⟨ws, rest, _, rfl⟩ | ⟨rest, _, rfl⟩ | ⟨p, bytes, rest, i, _, _, hx⟩
  · exact inv
  · exact (State.Inv.congr (t := { s with inbox := rest }) inv rfl rfl rfl rfl rfl rfl).engineStep ws
  · exact State.hostReset_inv _
  · obtain ⟨idle, _, effect⟩ := exec_next hx
    exact effect.keepsInv idle (inv.congr rfl rfl rfl rfl rfl rfl)

end Sys2Proof.Machine
end

section
/-! PROOFS. The family of spec/10_state.md: what the engine changes (R50), the cells an instruction leaves alone
(R70, R208), and how a command ends (R200, R202, R206). -/

namespace Sys2Proof.Machine

/-! ## The engine -/

/-- What `step` makes of an input of the engine. -/
theorem step_engine {s : State} {ws : List EngineWrite} {rest : List Input} (h : s.inbox = .engine ws :: rest) :
    step s = .next ({ s with inbox := rest }.engineStep ws) := by
  simp only [step, fetch, h]

/-- The engine touches no field but the cells (R50). -/
theorem State.engineStep_eq (s : State) (ws : List EngineWrite) :
    s.engineStep ws = { s with reg := (s.engineStep ws).reg } := by
  unfold State.engineStep
  cases s.params.engine <;> rfl

/-- A byte with the bits under the mask taken from `new`, whose other bits it has, is `new`. -/
theorem mergeBits_of_keeps {m old new : Byte} (h : new &&& ~~~m = old &&& ~~~m) : mergeBits m old new = new := by
  rw [mergeBits, ← h]
  ext k hk
  simp only [BitVec.getElem_or, BitVec.getElem_and, BitVec.getElem_not]
  cases new[k] <;> cases m[k] <;> rfl

/-- `q` is a register file the engine may make of `r`: they agree in every bit that is not its own (R50). -/
def RegFile.EngineMayReach (r q : RegFile) : Prop :=
  ∀ a : Byte, q.read a &&& ~~~(engineMask a) = r.read a &&& ~~~(engineMask a)

/-- The engine's changes that give the cells `as` the bytes they have in `q`. -/
def RegFile.changesTo (q : RegFile) (as : List Byte) : List EngineWrite := as.map fun a => ⟨a, q.read a⟩

theorem RegFile.EngineMayReach.write {r q : RegFile} (h : r.EngineMayReach q) (a : Byte) :
    (r.write a (q.read a)).EngineMayReach q := by
  intro b
  rw [RegFile.read_write]
  split
  · next e => rw [e]
  · exact h b

theorem RegFile.EngineMayReach.engineWrite {r q : RegFile} (h : r.EngineMayReach q) (a : Byte) :
    r.engineWrite ⟨a, q.read a⟩ = r.write a (q.read a) := by
  rw [RegFile.engineWrite, mergeBits_of_keeps (h a)]

/-- Cell by cell the engine's changes reach `q` where they are made, and leave the other cells. -/
theorem RegFile.EngineMayReach.read_foldl {r q : RegFile} (h : r.EngineMayReach q) (as : List Byte) (b : Byte) :
    ((q.changesTo as).foldl RegFile.engineWrite r).read b = if b ∈ as then q.read b else r.read b := by
  induction as generalizing r with
  | nil => simp [RegFile.changesTo]
  | cons a as ih =>
    have first : (q.changesTo (a :: as)).foldl RegFile.engineWrite r =
        (q.changesTo as).foldl RegFile.engineWrite (r.write a (q.read a)) := by
      rw [RegFile.changesTo, List.map_cons, List.foldl_cons, h.engineWrite]
      rfl
    rw [first, ih (h.write a), RegFile.read_write]
    by_cases hb : a = b
    · subst hb; simp
    · simp [hb, Ne.symm hb]

/-- Every register file the engine may reach, it reaches by some changes. -/
theorem RegFile.EngineMayReach.exists_changes {r q : RegFile} (h : r.EngineMayReach q) :
    ∃ ws : List EngineWrite, ws.foldl RegFile.engineWrite r = q := by
  refine ⟨q.changesTo ((List.range Config.nreg).map (BitVec.ofNat 8)), RegFile.ext_read fun b => ?_⟩
  rw [h.read_foldl, if_pos]
  exact List.mem_map.mpr ⟨b.toNat, List.mem_range.mpr b.isLt, by simp⟩

/-- Settles O15: the mask's table is checked byte by byte; the engine's changes are bounded by the mask, and the
changes that copy a target cell by cell reach it. -/
theorem engineChangesExactlyItsOwnBits : Obligations.EngineChangesExactlyItsOwnBits := by
  refine ⟨by decide, fun s ws rest h => ?_, fun s target rest free h => ?_⟩
  · exact ⟨_, step_engine h, State.engineStep_eq { s with inbox := rest } ws,
      fun a => State.engineStep_keeps { s with inbox := rest } ws a,
      fun static => by rw [State.engineStep_static { s with inbox := rest } ws static]⟩
  · obtain ⟨ws, hws⟩ := RegFile.EngineMayReach.exists_changes (r := s.reg) h
    refine ⟨ws, ?_⟩
    rw [step_engine rfl]
    simp only [State.engineStep, free, hws]

/-! ## The cells an instruction leaves alone -/

theorem State.runPollAndClearAlarm_outside (s : State) (channel : Byte) :
    State.KeepsOutside [0x0F#8] s (s.runPollAndClearAlarm channel).state :=
  Run.andThen_outside (s.memReadByte_outside Config.status _) fun st s1 => by
    obtain ⟨_, _, _, outside⟩ := s1.conditionalWrite (flagSet channel st) _ _ _ _
    exact outside

theorem State.runOscillatorStopped_outside (s : State) (clear : Bool) :
    State.KeepsOutside [0x0F#8] s (s.runOscillatorStopped clear).state :=
  Run.andThen_outside (s.memReadByte_outside Config.status _) fun st s1 => by
    obtain ⟨_, _, _, outside⟩ := s1.conditionalWrite (osfSet st && clear) _ _ _ _
    exact outside

theorem State.runReadTemperature_outside (s : State) (l : List Byte) :
    State.KeepsOutside l s s.runReadTemperature.state :=
  Run.andThen_outside (s.memReadByte_outside _ l) fun _ s1 =>
    Run.andThen_outside (s1.memReadByte_outside _ l) fun _ s2 => .refl l s2

theorem State.runReadBytes_outside (s : State) (addr : Byte) (n : Nat) (l : List Byte) :
    State.KeepsOutside l s (s.runReadBytes addr n).state :=
  Run.andThen_outside (s.memRead_outside addr n l) fun _ s1 => .refl l s1

theorem State.runReadByte_outside (s : State) (addr : Byte) (l : List Byte) :
    State.KeepsOutside l s (s.runReadByte addr).state :=
  Run.andThen_outside (s.memReadByte_outside addr l) fun _ s1 => .refl l s1

theorem State.runGetTime_outside (s : State) (l : List Byte) : State.KeepsOutside l s s.runGetTime.state :=
  Run.andThen_outside (s.memRead_outside _ _ l) fun _ s1 => .refl l s1

theorem State.runWriteBytes_outside (s : State) (addr : Byte) (data : List Byte)
    (h : data.length ≤ Config.wrLimit) :
    State.KeepsOutside (cellsFrom addr data.length) s (s.runWriteBytes addr data).state :=
  s.memWrite_thenOutside addr data Result.none h fun _ ha => ha

theorem State.runProbe_outside (s : State) : State.KeepsOutside [] s s.runProbe.state :=
  Run.andThen_outside (s.busWrite_outside _ [] (by decide)) fun _ s1 => .refl [] s1

theorem State.runAlarmCode_outside (s : State) (type seconds minutes hours dayOrDate : Byte) :
    State.KeepsOutside (Instr.setAlarm3 type minutes hours dayOrDate).targets s
      (s.runAlarmCode type seconds minutes hours dayOrDate).state := by
  unfold State.runAlarmCode
  cases e : AlarmType.ofCode? type with
  | none => exact .refl _ s
  | some t =>
    obtain rfl := AlarmType.code_of_ofCode e
    exact s.runSetAlarm_outside t _ _ _ _

/-- Every admitted command's run keeps the cells outside its targets (R62, R208). -/
theorem Instr.run_outside (s : State) {i : Instr} (hw : i.wf = true) :
    State.KeepsOutside i.targets s (i.run s).state := by
  cases i with
  | wframe | rframe | toBCD | fromBCD => exact .refl _ s
  | readBytes addr count | readMemory addr count => exact s.runReadBytes_outside addr _ _
  | writeBytes addr data | writeMemory addr data =>
    exact s.runWriteBytes_outside addr data (by simpa [Instr.wf, payloadOk] using hw)
  | readByte addr => exact s.runReadByte_outside addr _
  | writeByte addr value => exact (s.runWriteBytes_outside addr [value] (by simp)).mono (by simp [Instr.targets])
  | getTime => exact s.runGetTime_outside _
  | setTime => exact s.runSetTime_outside _
  | setAlarm type _ _ _ _ | setAlarm3 type _ _ _ => exact s.runAlarmCode_outside type _ _ _ _
  | setAlarmInterrupt channel enabled => exact s.runSetAlarmInterrupt_outside channel _
  | pollAndClearAlarm channel => exact s.runPollAndClearAlarm_outside channel
  | setSquareWave freq => exact s.runSetSquareWave_outside freq
  | oscillatorStopped clear => exact s.runOscillatorStopped_outside _
  | readTemperature => exact s.runReadTemperature_outside _
  | probe => exact s.runProbe_outside

/-- The record of frames, emptied when an instruction is taken up, plays no part. -/
theorem State.KeepsOutside.of_start {l : List Byte} {s t : State} (h : State.KeepsOutside l s.start t) :
    State.KeepsOutside l s t := ⟨h.params, h.unowned, h.static⟩

theorem Instr.targets_wframe (dev : DevAddr) (bytes : List Byte) :
    (Instr.wframe dev bytes).targets = frameCells bytes := by cases bytes <;> rfl

/-- Outside the cells an instruction stores to only engine-owned bits change, in every environment (R50, R208). -/
theorem exec_keepsOutside {i : Instr} {s t : State} (h : exec i s = .next t) :
    State.KeepsOutside i.targets s t := by
  obtain ⟨idle, hw, _⟩ := exec_next h
  have command : i.isCommand = true → i.isCodec = false → State.KeepsOutside i.targets s t := fun hc hb => by
    rw [exec_command hc hb hw idle] at h
    cases h
    exact ((Instr.run_outside s.start hw).of_reg (conclude_reg _ _) (conclude_params _ _)).of_start
  have codec : i.isCodec = true → State.KeepsOutside i.targets s t := fun hb => by
    obtain ⟨v, hv⟩ := exec_codec hb hw
    rw [hv s idle] at h
    cases h
    exact ⟨rfl, fun _ _ => rfl, fun _ _ _ => rfl⟩
  cases i with
  | wframe dev bytes =>
    rw [exec_wframe idle hw] at h
    cases h
    rw [Instr.targets_wframe]
    exact ((s.start.busWrite_outside dev bytes (by simpa [Instr.wf] using hw)).of_reg
      (concludeFrame_reg _) (concludeFrame_params _)).of_start
  | rframe dev count =>
    rw [exec_rframe idle hw] at h
    cases h
    exact ((s.start.busRead_outside dev count.toNat _).of_reg (concludeFrame_reg _)
      (concludeFrame_params _)).of_start
  | toBCD | fromBCD => exact codec rfl
  | _ => exact command rfl rfl

theorem Instr.targets_of_storesNothing {i : Instr} (h : i.storesNothing = true) : i.targets = [] := by
  cases i with
  | rframe | toBCD | fromBCD | readBytes | readByte | getTime | readTemperature | readMemory | probe => rfl
  | _ => cases h

/-- Settles O11: each frame keeps what is outside the cells it addresses, so a run of frames does; an instruction
that stores nothing has no target. -/
theorem onlyStoresChangeUnownedBits : Obligations.OnlyStoresChangeUnownedBits := by
  intro i s t h
  have keeps := exec_keepsOutside h
  refine ⟨fun nothing => ?_, fun a ha => ⟨keeps.unowned a ha, fun static => keeps.static static a ha⟩⟩
  have out : ∀ a : Byte, a ∉ i.targets := by simp [Instr.targets_of_storesNothing nothing]
  exact ⟨fun a => keeps.unowned a (out a), fun static => RegFile.ext_read fun a => keeps.static static a (out a)⟩

/-! ## How a command ends -/

theorem State.runAlarmCode_ends (s : State) (type seconds minutes hours dayOrDate : Byte) :
    Run.EndsAs s 1 (s.runAlarmCode type seconds minutes hours dayOrDate) := by
  unfold State.runAlarmCode
  cases AlarmType.ofCode? type with
  | none => exact (Run.EndsAs.pure s _).mono (by omega)
  | some t => exact s.runSetAlarm_ends t _ _ _ _

theorem State.runAlarmCode_atLeast (s : State) {type minutes hours dayOrDate : Byte} (seconds : Byte)
    (h : alarmFieldsOk type minutes hours dayOrDate = true) :
    Run.AtLeast s 1 (s.runAlarmCode type seconds minutes hours dayOrDate) := by
  obtain ⟨t, rfl⟩ := alarmFieldsOk_type h
  rw [State.runAlarmCode_code]
  exact s.runSetAlarm_atLeast t _ _ _ _

/-- Every admitted command is a run of at most four frames (R202). -/
theorem Instr.run_ends (s : State) {i : Instr} (hw : i.wf = true) : Run.EndsAs s 4 (i.run s) := by
  cases i with
  | wframe | rframe | toBCD | fromBCD => exact (Run.EndsAs.pure s _).mono (by omega)
  | readBytes addr count | readMemory addr count =>
    obtain ⟨h1, h2⟩ := (inRange_iff _ _ _).mp hw
    exact (s.runReadBytes_ends addr _ h1 h2).mono (by omega)
  | writeBytes addr data | writeMemory addr data =>
    exact (s.runWriteBytes_ends addr data (by simpa [Instr.wf, payloadOk] using hw)).mono (by omega)
  | readByte addr => exact (s.runReadByte_ends addr).mono (by omega)
  | writeByte addr value => exact (s.runWriteBytes_ends addr [value] (by simp)).mono (by omega)
  | getTime => exact s.runGetTime_ends.mono (by omega)
  | setTime => exact s.runSetTime_ends _
  | setAlarm type _ _ _ _ | setAlarm3 type _ _ _ => exact (s.runAlarmCode_ends type _ _ _ _).mono (by omega)
  | setAlarmInterrupt channel enabled => exact (s.runSetAlarmInterrupt_ends channel _).mono (by omega)
  | pollAndClearAlarm channel => exact (s.runPollAndClearAlarm_ends channel).mono (by omega)
  | setSquareWave freq => exact (s.runSetSquareWave_ends freq).mono (by omega)
  | oscillatorStopped clear => exact (s.runOscillatorStopped_ends _).mono (by omega)
  | readTemperature => exact s.runReadTemperature_ends
  | probe => exact s.runProbe_ends.mono (by omega)

/-- A command that succeeds has issued the frames of R202. -/
theorem Instr.run_atLeast (s : State) {i : Instr} (hc : i.isCommand = true) (hw : i.wf = true) :
    Run.AtLeast s i.frames (i.run s) := by
  cases i with
  | wframe | rframe => cases hc
  | toBCD | fromBCD => exact (Run.Issues.pure s _).atLeast
  | readBytes addr count | readMemory addr count => exact s.runReadBytes_atLeast addr _
  | writeBytes addr data | writeMemory addr data => exact s.runWriteBytes_atLeast addr data
  | readByte addr => exact s.runReadByte_atLeast addr
  | writeByte addr value => exact s.runWriteBytes_atLeast addr [value]
  | getTime => exact s.runGetTime_atLeast
  | setTime => exact (s.runSetTime_issues _).atLeast
  | setAlarm => exact s.runAlarmCode_atLeast _ ((Bool.and_eq_true _ _).mp hw).2
  | setAlarm3 => exact s.runAlarmCode_atLeast _ hw
  | setAlarmInterrupt channel enabled => exact (s.runSetAlarmInterrupt_issues channel _).atLeast
  | pollAndClearAlarm channel => exact s.runPollAndClearAlarm_atLeast channel
  | setSquareWave freq => exact (s.runSetSquareWave_issues freq).atLeast
  | oscillatorStopped clear => exact s.runOscillatorStopped_atLeast _
  | readTemperature => exact s.runReadTemperature_issues.atLeast
  | probe => exact s.runProbe_atLeast

theorem Instr.frames_pos {i : Instr} (hb : i.isCodec = false) : 1 ≤ i.frames := by
  cases i with
  | toBCD | fromBCD => cases hb
  | _ => simp [Instr.frames]

/-- How a command whose last frame ended with `status` stands in `t`: hung, nothing answered; or idle, the status
on the result port and in `LASTERR` (R24, R200, R220). -/
def State.EndedWith (s : State) (status : Option Byte) (t : State) : Prop :=
  (status = none ∧ t.seq = .hung ∧ t.lastErr = s.lastErr ∧ t.response = s.response) ∨
  (∃ c v, status = some c ∧ t.seq = .idle ∧ t.lastErr = c ∧ t.response = some ⟨c, v⟩)

/-- Frames, then a last one, whose answer is how the command ended. -/
structure State.EndedAfter (s : State) (most least : Nat) (fs : List FrameRecord) (last : FrameRecord)
    (t : State) : Prop where
  bus    : t.bus = fs ++ [last]
  few    : fs.length + 1 ≤ most
  enough : last.status = some 0x00#8 → least ≤ fs.length + 1
  ok     : ∀ r ∈ fs, r.status = some 0x00#8
  log    : ∀ (k : Nat) (r : FrameRecord), (fs ++ [last])[k]? = some r → r.status = (s.answerAt k).status
  ended  : s.EndedWith last.status t

/-- A run of at least one frame has a last one, and its end is that frame's status. -/
theorem Run.EndsAs.endedAfter {s : State} {most least : Nat} {r : Run Result} (kind : ResultKind)
    (ends : Run.EndsAs s.start most r) (atLeast : Run.AtLeast s.start least r) (one : 1 ≤ least)
    (idle : s.seq = .idle) : ∃ fs last, s.EndedAfter most least fs last (conclude kind r) := by
  cases ends with
  | done a t fs trail bus few ok limits calm =>
    have enough : least ≤ fs.length := by simpa [bus] using atLeast a t rfl
    obtain ⟨gs, last, rfl⟩ : ∃ gs last, fs = gs ++ [last] :=
      ⟨_, _, (List.dropLast_append_getLast (List.ne_nil_of_length_pos (by omega))).symm⟩
    have hlast : last.status = some 0x00#8 := ok last (by simp)
    exact ⟨gs, last, bus, by simpa using few, fun _ => by simpa using enough, fun r hr => ok r (by simp [hr]),
      fun k r hk => trail.log.status_eq bus hk, .inr ⟨0x00#8, a, hlast, trail.seq.trans idle, rfl, rfl⟩⟩
  | busError c t fs last trail bus few ok limits lastLimits code nonzero calm =>
    obtain ⟨d, e⟩ := conclude_busError kind c t
    rw [e]
    rw [List.append_assoc] at bus
    exact ⟨fs, last, bus, few, fun h => absurd (Option.some.inj (code.symm.trans h)) nonzero, ok,
      fun k r hk => trail.log.status_eq bus hk, .inr ⟨c, _, code, trail.seq.trans idle, rfl, rfl⟩⟩
  | hung t fs last trail bus few ok limits lastLimits never =>
    rw [List.append_assoc] at bus
    exact ⟨fs, last, bus, few, fun h => (by rw [never] at h; cases h), ok,
      fun k r hk => trail.log.status_eq bus hk, .inl ⟨never, rfl, trail.lastErr, trail.response⟩⟩

/-- While the first `n` frames succeed, `n` below the count of R202, one more is issued. -/
theorem State.EndedAfter.frames_lt {s t : State} {most least n : Nat} {fs : List FrameRecord} {last : FrameRecord}
    (h : s.EndedAfter most least fs last t) (hn : n < least) (answers : s.Answers n) : n < fs.length + 1 := by
  by_contra short
  have status : last.status = some 0x00#8 := (h.log fs.length last (by simp)).trans (answers _ (by omega))
  have := h.enough status
  omega

/-- Settles O45: a command is a run of frames of which only the last can fail, and its end is that frame's. -/
theorem firstFailureEndsTheOperation : Obligations.FirstFailureEndsTheOperation := by
  intro i s hc hb hw idle
  obtain ⟨fs, last, h⟩ := (Instr.run_ends s.start hw).endedAfter i.resultKind (Instr.run_atLeast s.start hc hw)
    (Instr.frames_pos hb) idle
  refine ⟨_, exec_command hc hb hw idle, ?_⟩
  generalize conclude i.resultKind (i.run s.start) = t at h
  have length : t.bus.length = fs.length + 1 := by simp [h.bus]
  have statusAt : ∀ (k : Nat) (hk : k < t.bus.length), t.bus[k].status = (s.answerAt k).status := fun k hk =>
    h.log k _ (by rw [← h.bus, List.getElem?_eq_getElem hk])
  refine ⟨by omega, by have := h.few; omega, fun n hn answers => length ▸ h.frames_lt hn answers, statusAt,
    fun k hk => ?_, ?_⟩
  · have hf : k < fs.length := by omega
    rw [← h.log k fs[k] (by rw [List.getElem?_append_left hf, List.getElem?_eq_getElem hf])]
    exact h.ok _ (List.getElem_mem hf)
  · rw [length, Nat.add_sub_cancel, ← h.log fs.length last (by simp)]
    exact h.ended

end Sys2Proof.Machine
end

section
/-! PROOFS. The family of spec/10_state.md: the two bare frames (R130, R131, R138, R139), register access while its
frames succeed (R132 to R135) and the general-purpose storage (R47). -/

namespace Sys2Proof.Machine

/-! ## The record of frames plays no part -/

theorem State.AfterFrames.of_start {s t : State} {n : Nat} (h : s.start.AfterFrames t n) : s.AfterFrames t n :=
  ⟨h.params, h.inbox, h.seq, h.pending, h.received, h.transport, h.frameCount⟩

/-- An operation that succeeds writes `LASTERR` and the result port alone, at its end. -/
theorem State.AfterFrames.conclude_done {s t : State} {n : Nat} (h : s.start.AfterFrames t n) (kind : ResultKind)
    (v : Result) : s.AfterFrames (conclude kind (.done v t)) n :=
  ⟨h.params, h.inbox, h.seq, h.pending, h.received, h.transport, h.frameCount⟩

/-! ## Bare frames whose call returns -/

theorem concludeFrame_answered {α : Type} (c : Byte) (a : α) (t : State) :
    concludeFrame (Run.ofStatus (some c) a t) = t := by
  simp only [Run.ofStatus]
  cases c == 0x00#8 <;> rfl

/-- A bare write frame that ends with a status, whichever. -/
theorem exec_wframe_answered {s : State} {dev : DevAddr} {bytes : List Byte} {c : Byte} (idle : s.seq = .idle)
    (hw : (Instr.wframe dev bytes).wf = true) (hc : s.answer.status = some c) :
    exec (.wframe dev bytes) s = .next (s.start.afterWrite dev bytes) := by
  have hc' : s.start.answer.status = some c := hc
  rw [exec_wframe idle hw, State.busWrite_eq, hc', concludeFrame_answered]

/-- A bare read frame that ends with a status, whichever. -/
theorem exec_rframe_answered {s : State} {dev : DevAddr} {count c : Byte} (idle : s.seq = .idle)
    (hw : (Instr.rframe dev count).wf = true) (hc : s.answer.status = some c) :
    exec (.rframe dev count) s = .next (s.start.afterRead dev count.toNat) := by
  have hc' : s.start.answer.status = some c := hc
  rw [exec_rframe idle hw, State.busRead_eq, hc', concludeFrame_answered]

theorem State.afterWrite_afterFrames {s : State} {c : Byte} (hc : s.answer.status = some c) (dev : DevAddr)
    (bytes : List Byte) : s.AfterFrames (s.afterWrite dev bytes) 1 :=
  ⟨rfl, rfl, rfl, fun _ => by simp only [State.afterWrite, hc], id, rfl, rfl⟩

theorem State.afterRead_afterFrames {s : State} {c : Byte} (hc : s.answer.status = some c) (dev : DevAddr)
    (count : Nat) : s.AfterFrames (s.afterRead dev count) 1 :=
  ⟨rfl, rfl, rfl, id, fun _ => by simp only [State.afterRead, hc], rfl, rfl⟩

/-! ## Write frames -/

@[simp] theorem State.taken_nil (s : State) (dev : DevAddr) : s.taken dev [] = [] := by
  unfold State.taken
  split <;> simp

/-- A frame none of whose bytes this device takes leaves its cells to the engine, and `PTR`. -/
theorem State.afterWrite_of_taken_nil {s : State} {dev : DevAddr} {bytes : List Byte} (h : s.taken dev bytes = [])
    (quiet : s.EngineQuiet 1) :
    (s.afterWrite dev bytes).reg = s.reg ∧ (s.afterWrite dev bytes).ptr = s.ptr := by
  simp only [State.afterWrite, h, State.regAfter, State.ptrAfter, s.openFrame_reg_quiet quiet.first, and_self]

/-- The empty frame changes no cell and no `PTR`, and the operation's ports stay (R130, R138). -/
theorem exec_wframe_empty {s : State} {c : Byte} (idle : s.seq = .idle) (quiet : s.EngineQuiet 1)
    (hc : s.answer.status = some c) :
    ∃ t, exec (.wframe s.params.devAddr []) s = .next t ∧ t.reg = s.reg ∧ t.ptr = s.ptr ∧
      t.lastErr = s.lastErr ∧ t.response = s.response ∧ t.draws = s.draws ∧
      t.bus = [⟨.write s.params.devAddr [], some c, []⟩] ∧ s.AfterFrames t 1 := by
  obtain ⟨reg, ptr⟩ := State.afterWrite_of_taken_nil (s := s.start) (s.start.taken_nil s.params.devAddr) quiet
  refine ⟨_, exec_wframe_answered idle (by simp [Instr.wf]) hc, reg, ptr, rfl, rfl, rfl, ?_,
    (State.afterWrite_afterFrames (s := s.start) hc _ _).of_start⟩
  rw [← hc]
  rfl

/-- Settles O16: the frame's state is `State.wrote`, whose cells `State.wrote_read` and `State.wrote_keeps` give. -/
theorem writeFrameLoadsPtrAndStores : Obligations.WriteFrameLoadsPtrAndStores := by
  rintro s ⟨idle, answers, quiet⟩
  have ok : s.answer.status = some 0x00#8 := answers 0 (by omega)
  refine ⟨exec_wframe_empty idle quiet ok, fun addr data short => ?_⟩
  have size : data.length ≤ Config.nreg := short.trans (by decide)
  refine ⟨s.start.wrote addr data, ?_, s.start.wrote_read addr data size, s.start.wrote_reserved addr data,
    s.start.wrote_keeps addr data size, rfl, rfl, rfl, rfl, rfl, (s.start.wrote_trail addr data).of_start⟩
  rw [exec_wframe idle (by simpa [Instr.wf] using short)]
  exact congrArg (Host.Outcome.next ∘ concludeFrame) (State.busWrite_ok (s := s.start) addr data ok quiet.first)

/-- Settles O18: what reached the slave is a first part of the frame, and `State.memWrite_failed` says what it
leaves. -/
theorem failedWriteFrameAppliesSomePart : Obligations.FailedWriteFrameAppliesSomePart := by
  intro s c idle quiet nonzero hc
  refine ⟨?_, fun addr data short => ?_⟩
  · obtain ⟨t, run, reg, ptr, lastErr, response, _, bus, after⟩ := exec_wframe_empty idle quiet hc
    exact ⟨t, run, reg, ptr, lastErr, response, bus, after⟩
  obtain ⟨t, run, reg, ptr0, ptr, bus, after⟩ := State.memWrite_failed (s := s.start) addr data quiet nonzero hc
  have trail := (s.start.memWrite_ends addr data short).trail
  rw [run] at trail
  have hk : min (s.answerAt 0).applied (data.length + 1) ≤ data.length + 1 := Nat.min_le_right _ _
  have part : (s.start.answerAt 0).applied = (s.answerAt 0).applied := rfl
  rw [part] at reg ptr0 ptr
  refine ⟨t, min (s.answerAt 0).applied (data.length + 1), ?_, hk, rfl, ?_⟩
  · rw [exec_wframe idle (by simpa [Instr.wf] using short)]
    exact congrArg (Host.Outcome.next ∘ concludeFrame) run
  generalize min (s.answerAt 0).applied (data.length + 1) = k at reg ptr0 ptr hk
  have length : (data.take (k - 1)).length = k - 1 := by rw [List.length_take]; omega
  have size : (data.take (k - 1)).length ≤ Config.nreg := by
    rw [length]
    exact Nat.le_trans (by omega) (show 31 ≤ Config.nreg by decide)
  refine ⟨fun j hj stored free => ?_, ?_, fun a ha => ?_, ptr0, ptr, trail.lastErr, trail.response, bus,
    after.of_start⟩
  · rw [reg, s.start.wrote_read addr _ size j (by omega) free, List.getElem_take]
  · rw [reg]
    exact s.start.wrote_reserved addr _
  · rw [reg]
    exact s.start.wrote_keeps addr _ size a (length.symm ▸ ha)

/-! ## Read frames -/

theorem readFrame_wf {dev : DevAddr} {count : Byte} (h1 : 1 ≤ count.toNat) (h2 : count.toNat ≤ 32) :
    (Instr.rframe dev count).wf = true := (inRange_iff _ _ _).mpr ⟨h1, h2⟩

/-- Settles O17 by the closed form of a read frame that succeeds, `State.busRead_ok`. -/
theorem readFrameReturnsCellsFromPtr : Obligations.ReadFrameReturnsCellsFromPtr := by
  rintro s count h1 h2 ⟨idle, answers, quiet⟩
  have ok : s.start.answer.status = some 0x00#8 := answers 0 (by omega)
  obtain ⟨data, d, length, cells, draws, run⟩ := State.busRead_ok (s := s.start) count.toNat ok quiet.first
  refine ⟨_, data, (exec_rframe idle (readFrame_wf h1 h2)).trans
    (congrArg (Host.Outcome.next ∘ concludeFrame) run), rfl, length, cells, ?_, rfl, rfl, rfl, draws,
    ⟨rfl, rfl, rfl, id, fun _ => rfl, rfl, rfl⟩⟩
  show s.ptr + BitVec.ofNat 8 count.toNat = s.ptr + count
  rw [BitVec.ofNat_toNat, BitVec.setWidth_eq]

/-- Where a read frame to this device that does not succeed leaves `PTR` (R138). -/
theorem State.afterRead_failed_ptr {s : State} (failed : answerOk s.answer = false) (count : Nat) :
    (s.afterRead s.params.devAddr count).ptr = s.ptr + BitVec.ofNat 8 (min s.answer.applied count) := by
  simp only [State.afterRead, State.delivered, State.deliverRead, State.openFrame_params, if_true, failed,
    cond_false, State.drawBytes_snd, State.openFrame_ptr, deliveredBytes]

/-- Settles O19: the bytes are draws, and `PTR` alone moves. -/
theorem failedReadFrameMovesPtrInPart : Obligations.FailedReadFrameMovesPtrInPart := by
  intro s count c h1 h2 idle quiet nonzero hc
  have failed : answerOk s.start.answer = false := by
    have hc' : s.start.answer.status = some c := hc
    simp [answerOk, hc', nonzero]
  refine ⟨_, s.start.readData s.params.devAddr count.toNat, exec_rframe_answered idle (readFrame_wf h1 h2) hc,
    s.start.openFrame_reg_quiet quiet.first, State.afterRead_failed_ptr (s := s.start) failed count.toNat,
    State.readData_length _ _ _, ?_, rfl, rfl, (State.afterRead_afterFrames (s := s.start) hc _ _).of_start⟩
  have hc' : s.start.answer.status = some c := hc
  simp only [State.afterRead, hc', List.nil_append]

/-! ## Frames for another device -/

@[simp] theorem concludeFrame_ptr {α : Type} (r : Run α) : (concludeFrame r).ptr = r.state.ptr := by cases r <;> rfl

/-- A read frame for another device leaves `PTR` alone (R139). -/
theorem State.afterRead_other_ptr {s : State} {dev : DevAddr} (other : dev ≠ s.params.devAddr) (count : Nat) :
    (s.afterRead dev count).ptr = s.ptr := by
  simp only [State.afterRead, State.delivered, State.deliverRead, State.openFrame_params, if_neg other,
    State.drawBytes_snd, State.openFrame_ptr]

/-- Settles O20: a write frame for another device is taken in no part, and a read frame for one draws its bytes. -/
theorem framesForOtherDevicesAreIgnored : Obligations.FramesForOtherDevicesAreIgnored := by
  rintro s dev _ idle quiet other hw (⟨bytes, rfl⟩ | ⟨count, rfl⟩)
  · have none : s.start.taken dev bytes = [] := if_neg other
    obtain ⟨reg, ptr⟩ := State.afterWrite_of_taken_nil none quiet
    have state : (s.start.busWrite dev bytes).state = s.start.afterWrite dev bytes := by
      rw [State.busWrite_eq, Run.state_ofStatus]
    refine ⟨_, exec_wframe idle hw, ?_⟩
    rw [concludeFrame_reg, concludeFrame_ptr, concludeFrame_lastErr, concludeFrame_response, state]
    exact ⟨reg, ptr, rfl, rfl⟩
  · have state : (s.start.busRead dev count.toNat).state = s.start.afterRead dev count.toNat := by
      rw [State.busRead_eq, Run.state_ofStatus]
    refine ⟨_, exec_rframe idle hw, ?_⟩
    rw [concludeFrame_reg, concludeFrame_ptr, concludeFrame_lastErr, concludeFrame_response, state]
    exact ⟨s.start.openFrame_reg_quiet quiet.first, State.afterRead_other_ptr (s := s.start) other _, rfl, rfl⟩

/-! ## Reads of registers and memory -/

theorem exec_readBytes_or_readMemory {s : State} {addr count : Byte} {i : Instr}
    (hi : i = .readBytes addr count ∨ i = .readMemory addr count) (h1 : 1 ≤ count.toNat) (h2 : count.toNat ≤ 32)
    (idle : s.seq = .idle) :
    exec i s = .next (conclude (.bytes count.toNat) (s.start.runReadBytes addr count.toNat)) := by
  have hw : readCountOk count = true := (inRange_iff _ _ _).mpr ⟨h1, h2⟩
  rcases hi with rfl | rfl
  · exact exec_readBytes idle hw
  · exact exec_readMemory idle hw

/-- Settles O24 by the closed form of a read that succeeds, `State.memRead_ok`. -/
theorem readBytesReturnsCells : Obligations.ReadBytesReturnsCells := by
  rintro s addr count i hi h1 h2 ⟨idle, answers, quiet⟩
  obtain ⟨data, d, length, cells, draws, run⟩ := State.memRead_ok (s := s.start) addr count.toNat answers quiet
  have done : s.start.runReadBytes addr count.toNat = .done (.bytes data) (s.start.didRead addr data d) := by
    rw [State.runReadBytes, run, Run.andThen_done]
  refine ⟨_, data, exec_readBytes_or_readMemory hi h1 h2 idle, ?_⟩
  rw [done]
  refine ⟨rfl, length, cells, rfl, ?_, rfl, rfl, draws, (s.start.didRead_trail addr data d).conclude_done _ _⟩
  show addr + BitVec.ofNat 8 data.length = addr + count
  rw [length, BitVec.ofNat_toNat, BitVec.setWidth_eq]

/-- Settles O25: a read of one byte returns one byte, the cell's but at the reserved cell. -/
theorem readByteReturnsTheCell : Obligations.ReadByteReturnsTheCell := by
  rintro s addr ⟨idle, answers, quiet⟩
  obtain ⟨data, d, length, cells, draws, run⟩ := State.memRead_ok (s := s.start) addr 1 answers quiet
  obtain ⟨v, rfl⟩ := List.length_eq_one_iff.mp length
  have done : s.start.runReadByte addr = .done (.byte v) (s.start.didRead addr [v] d) := by
    rw [State.runReadByte, State.memReadByte, run]
    rfl
  refine ⟨_, v, exec_readByte idle, ?_⟩
  rw [done]
  refine ⟨rfl, fun free => ?_, rfl, rfl, rfl, rfl, (s.start.didRead_trail addr [v] d).conclude_done _ _⟩
  have only : ∀ k, k < 1 → addr + BitVec.ofNat 8 k ≠ 0x13#8 := by
    intro k hk
    obtain rfl : k = 0 := by omega
    simpa using free
  have first := cells 0 (by omega) (only 0 (by omega))
  exact ⟨by simpa using first, draws only⟩

/-! ## Writes of registers and memory -/

theorem exec_write {s : State} {addr : Byte} {data : List Byte} {i : Instr}
    (hi : i = .writeBytes addr data ∨ i = .writeMemory addr data ∨ ∃ v, data = [v] ∧ i = .writeByte addr v)
    (short : data.length ≤ 31) (idle : s.seq = .idle) :
    exec i s = .next (conclude .none (s.start.runWriteBytes addr data)) := by
  have hw : payloadOk data = true := by simpa [payloadOk] using short
  rcases hi with rfl | rfl | ⟨v, rfl, rfl⟩
  · exact exec_writeBytes idle hw
  · exact exec_writeMemory idle hw
  · exact exec_writeByte idle

/-- Settles O26: the operation's one frame is that of `State.wrote`. -/
theorem writeBytesStoresThePayload : Obligations.WriteBytesStoresThePayload := by
  rintro s addr data i hi short ⟨idle, answers, quiet⟩
  have size : data.length ≤ Config.nreg := short.trans (by decide)
  have done : s.start.runWriteBytes addr data = .done .none (s.start.wrote addr data) := by
    rw [State.runWriteBytes, State.memWrite_ok (s := s.start) addr data answers quiet, Run.andThen_done]
  refine ⟨_, exec_write hi short idle, ?_⟩
  rw [done]
  exact ⟨rfl, s.start.wrote_read addr data size, s.start.wrote_reserved addr data,
    s.start.wrote_keeps addr data size, rfl, rfl, rfl, rfl, (s.start.wrote_trail addr data).conclude_done _ _⟩

/-- Settles O27: the byte stored under the default `WMASK` is the byte written (O26), and the read returns the
cell (O25). -/
theorem writtenBytesReadBack : Obligations.WrittenBytesReadBack := by
  intro s addr v ready plain free
  obtain ⟨t, write, _, stored, _, _, _, _, _, _, after⟩ := writeBytesStoresThePayload s addr [v] _
    (.inr (.inr ⟨v, rfl, rfl⟩)) (by simp) (ready.mono (by omega))
  obtain ⟨u, b, read, response, cell, _⟩ := readByteReturnsTheCell t addr (ready.shift (n := 1) after)
  have byte : t.reg.read addr = s.stored addr v := by simpa using stored 0 (by simp) (by simpa using free)
  obtain ⟨rfl, _⟩ := cell free
  rw [byte, State.stored_plain plain v free] at response
  exact ⟨t, u, write, read, response⟩

/-! ## The general-purpose storage -/

/-- A cell without engine-owned bits, not stored to, keeps its byte. -/
theorem State.KeepsOutside.read_eq {l : List Byte} {s t : State} (h : State.KeepsOutside l s t) {a : Byte}
    (ha : a ∉ l) (unowned : engineMask a = 0x00#8) : t.reg.read a = s.reg.read a := by
  have all : ∀ x : Byte, x &&& ~~~(0x00#8) = x := fun x => by simpa using BitVec.and_allOnes (x := x)
  simpa only [unowned, all] using h.unowned a ha

theorem engineMask_storage : ∀ a : Byte, 0x14 ≤ a.toNat → engineMask a = 0x00#8 := by decide

/-- A cell without engine-owned bits keeps its byte over every step that runs no instruction which stores to it. -/
theorem step_keeps_unowned {s t : State} (h : step s = .next t) {a : Byte} (unowned : engineMask a = 0x00#8)
    (free : ∀ p bytes rest i, s.inbox = .word p bytes :: rest → decode p bytes = .ok i → a ∉ i.targets) :
    t.reg.read a = s.reg.read a := by
  rcases step_next h with ⟨_, rfl⟩ | ⟨ws, rest, _, rfl⟩ | ⟨rest, _, rfl⟩ | ⟨p, bytes, rest, i, hin, hd, hx⟩
  · rfl
  · exact State.engineStep_unowned { s with inbox := rest } ws a unowned
  · rfl
  · exact (exec_keepsOutside hx).read_eq (free p bytes rest i hin hd) unowned

/-- Byte `k` of a payload written over a plain cell is the byte the cell then holds (R21, R47). -/
theorem exec_write_plain {s : State} {addr : Byte} {data : List Byte} {i : Instr}
    (hi : i = .writeBytes addr data ∨ i = .writeMemory addr data ∨ i = .wframe s.params.devAddr (addr :: data))
    (short : data.length ≤ 31) (ready : s.Ready 1) (plain : s.PlainStorage) {k : Nat} (hk : k < data.length)
    (free : addr + BitVec.ofNat 8 k ≠ 0x13#8) :
    ∃ t, exec i s = .next t ∧ t.reg.read (addr + BitVec.ofNat 8 k) = data[k] := by
  suffices h : ∃ t, exec i s = .next t ∧
      t.reg.read (addr + BitVec.ofNat 8 k) = s.stored (addr + BitVec.ofNat 8 k) data[k] by
    rwa [State.stored_plain plain data[k] free] at h
  rcases hi with hi | hi | rfl
  · obtain ⟨t, run, _, stored, _⟩ := writeBytesStoresThePayload s addr data i (.inl hi) short ready
    exact ⟨t, run, stored k hk free⟩
  · obtain ⟨t, run, _, stored, _⟩ := writeBytesStoresThePayload s addr data i (.inr (.inl hi)) short ready
    exact ⟨t, run, stored k hk free⟩
  · obtain ⟨t, run, stored, _⟩ := (writeFrameLoadsPtrAndStores s ready).2 addr data short
    exact ⟨t, run, stored k hk free⟩

/-- Settles O56: no bit of a storage cell is the engine's, so O11's frame fact keeps it whole; what is written to it
and read from it is O16, O24 and O26. -/
theorem storageHoldsTheLastByteWritten : Obligations.StorageHoldsTheLastByteWritten := by
  intro a ha
  have free : a ≠ 0x13#8 := by
    rintro rfl
    exact absurd ha (by decide)
  refine ⟨engineMask_storage a ha, RegFile.read_ofFun _ a,
    fun s t h out => step_keeps_unowned h (engineMask_storage a ha) out, ?_, ?_⟩
  · rintro s addr data i k hk hi short rfl ready plain
    exact exec_write_plain hi short ready plain hk free
  · rintro s addr count i k hi hk short rfl ready
    obtain ⟨t, data, run, response, _, cells, _⟩ := readBytesReturnsCells s addr count i hi (by omega) short ready
    exact ⟨t, data, run, response, cells k hk free⟩

end Sys2Proof.Machine
end

section
/-! PROOFS. The family of spec/20_memory.md: the word a step runs (R73, R76), the digits of a BCD byte (R64), the
frames of the composite operations (R69) and the read-modify-write race (R72). -/

namespace Sys2Proof.Machine

/-! ## The step -/

/-- Settles O5: `fetch` takes the word off the inbox, and `step` runs what it decodes to. -/
theorem stepRunsDecodedInstruction : Obligations.StepRunsDecodedInstruction := by
  intro s p bytes rest i hin hd
  simp only [step, fetch, hin, hd]

/-! ## The nibbles of a BCD byte -/

theorem Byte.toNat_highNibble (b : Byte) : (b.extractLsb' 4 4).toNat = b.toNat / 16 := by
  rw [BitVec.extractLsb'_toNat, Nat.shiftRight_eq_div_pow]
  omega

theorem Byte.toNat_lowNibble (b : Byte) : (b.extractLsb' 0 4).toNat = b.toNat % 16 := by
  rw [BitVec.extractLsb'_toNat, Nat.shiftRight_zero]

/-- A number of two digits, packed, is not cut to a byte. -/
theorem toNat_packed {n : Byte} (h : n.toNat ≤ 99) : (packed n).toNat = 16 * (n.toNat / 10) + n.toNat % 10 := by
  rw [BitVec.toNat_ofNat]
  omega

/-- Ten times a nibble and a nibble is not cut to a byte. -/
theorem toNat_unpacked (b : Byte) : (unpacked b).toNat = 10 * (b.toNat / 16) + b.toNat % 16 := by
  rw [BitVec.toNat_ofNat]
  omega

/-- Settles O59: the codec's formulas are `packed` and `unpacked`, whose digits the nibbles are. -/
theorem bcdByteHoldsTensHighOnesLow : Obligations.BcdByteHoldsTensHighOnesLow := by
  refine ⟨fun s n idle two => ?_, fun s b idle high low => ?_⟩
  · have hw : (Instr.toBCD n).wf = true := (inRange_iff _ _ _).mpr ⟨Nat.zero_le _, two⟩
    refine ⟨_, toBcd n, exec_toBCD idle hw, rfl, ?_⟩
    rw [Byte.toNat_highNibble, Byte.toNat_lowNibble, toBcd_packed n two, toNat_packed two]
    omega
  · refine ⟨_, fromBcd b, exec_fromBCD idle, rfl, ?_⟩
    rw [Byte.toNat_highNibble] at high ⊢
    rw [Byte.toNat_lowNibble] at low ⊢
    rw [fromBcd_unpacked, toNat_unpacked]
    omega

/-! ## The frames of the composite operations -/

theorem Instr.isCommand_of_widths {i : Instr} {widths : List FrameShape} (h : i.widths? = some widths) :
    i.isCommand = true ∧ i.isCodec = false := by
  cases i with
  | wframe | rframe | toBCD | fromBCD => cases h
  | _ => exact ⟨rfl, rfl⟩

theorem State.runGetTime_issues (s : State) : Run.Issues s [.write 0x00#8 0, .read 7] s.runGetTime :=
  (s.memRead_issues Config.clockBase Config.clockLen).thenDone

theorem State.runAlarmCode_issues (s : State) {type minutes hours dayOrDate : Byte} (seconds : Byte)
    (h : alarmFieldsOk type minutes hours dayOrDate = true) :
    Run.Issues s (if type.getLsbD 7 then [.write 0x0B#8 3] else [.write 0x07#8 4])
      (s.runAlarmCode type seconds minutes hours dayOrDate) := by
  obtain ⟨t, rfl⟩ := alarmFieldsOk_type h
  rw [State.runAlarmCode_code]
  exact s.runSetAlarm_issues t _ _ _ _

theorem State.runPollAndClearAlarm_issuesSome (s : State) (channel : Byte) :
    Run.IssuesSome s [.write 0x0F#8 0, .read 1, .write 0x0F#8 1] (s.runPollAndClearAlarm channel) :=
  (s.memReadByte_issues Config.status).thenSome (m := [.write 0x0F#8 1]) fun st t =>
    (t.conditionalWrite (flagSet channel st) _ _ _ _).1

theorem State.runOscillatorStopped_issuesSome (s : State) (clear : Bool) :
    Run.IssuesSome s [.write 0x0F#8 0, .read 1, .write 0x0F#8 1] (s.runOscillatorStopped clear) :=
  (s.memReadByte_issues Config.status).thenSome (m := [.write 0x0F#8 1]) fun st t =>
    (t.conditionalWrite (osfSet st && clear) _ _ _ _).1

/-- An admitted composite operation issues the first frames of its list (R69). -/
theorem Instr.run_issuesSome (s : State) {i : Instr} {widths : List FrameShape} (h : i.widths? = some widths)
    (hw : i.wf = true) : Run.IssuesSome s widths (i.run s) := by
  cases i with
  | getTime => cases h; exact s.runGetTime_issues.toSome
  | setTime => cases h; exact (s.runSetTime_issues _).toSome
  | setAlarm => cases h; exact (s.runAlarmCode_issues _ ((Bool.and_eq_true _ _).mp hw).2).toSome
  | setAlarm3 => cases h; exact (s.runAlarmCode_issues _ hw).toSome
  | setAlarmInterrupt channel enabled => cases h; exact (s.runSetAlarmInterrupt_issues channel _).toSome
  | pollAndClearAlarm channel => cases h; exact s.runPollAndClearAlarm_issuesSome channel
  | setSquareWave freq => cases h; exact (s.runSetSquareWave_issues freq).toSome
  | oscillatorStopped clear => cases h; exact s.runOscillatorStopped_issuesSome _
  | readTemperature => cases h; exact s.runReadTemperature_issues.toSome
  | _ => cases h

/-- Settles O57: the shapes are those of the operation's run, the count is O45's, and the limits are those every run
keeps. -/
theorem compositeOperationsKeepTheirWidths : Obligations.CompositeOperationsKeepTheirWidths := by
  intro i s widths h hw idle
  obtain ⟨hc, hb⟩ := Instr.isCommand_of_widths h
  obtain ⟨t, run, _, _, frames, _⟩ := firstFailureEndsTheOperation i s hc hb hw idle
  have ended : t = conclude i.resultKind (i.run s.start) :=
    Host.Outcome.next.inj (run.symm.trans (exec_command hc hb hw idle))
  have bus : t.bus = (i.run s.start).state.bus := by rw [ended, conclude_bus]
  obtain ⟨fs, issued, shapes⟩ := Instr.run_issuesSome s.start h hw
  refine ⟨t, run, ?_, frames, ?_⟩
  · rw [bus, issued]
    exact shapes
  · rw [bus]
    exact ((Instr.run_ends s.start hw).busOk (Nat.le_refl 4)).limits

/-! ## The read-modify-write race -/

/-- A byte written with success over a plain cell is the byte it then holds, whatever the engine changed before the
frame (R21, R71). -/
theorem State.memWrite_one_plain {s : State} (ok : s.answer.status = some 0x00#8) (plain : s.PlainStorage)
    {a : Byte} (free : a ≠ Config.reservedCell) (v : Byte) :
    ∃ t, s.memWrite a [v] = .done () t ∧ t.reg.read a = v := by
  refine ⟨s.afterWrite s.params.devAddr [a, v], ?_, ?_⟩
  · rw [State.memWrite, State.busWrite_eq, ok]
    rfl
  · simp only [State.afterWrite, State.taken_ok ok, State.regAfter, RegFile.storeAll, RegFile.read_write_same,
      Params.writeMask_other _ free, plain a free, mergeBits_all]

/-- The two channels' bits, in the control and in the status byte (R106). -/
theorem channelBit_eq {channel : Byte} (h : channel = 1#8 ∨ channel = 2#8) :
    channelBit channel = if channel = 1#8 then 0x01#8 else 0x02#8 := by
  rcases h with rfl | rfl <;> rfl

theorem flagSet_iff (channel st : Byte) : flagSet channel st = true ↔ st &&& channelBit channel ≠ 0x00#8 := by
  simp [flagSet]

/-- A poll whose read is undisturbed and finds its flag set leaves the byte it read, that flag cleared: no premise
speaks of the engine before the write frame (R166, R242). -/
theorem State.runPollAndClearAlarm_overwrites {s : State} {channel : Byte} (answers : s.Answers 3)
    (quiet : s.EngineQuiet 2) (plain : s.PlainStorage) (set : flagSet channel (s.reg.read Config.status) = true) :
    ∃ t, s.runPollAndClearAlarm channel = .done (.bool 0x01#8) t ∧
      t.reg.read Config.status = clearFlag channel (s.reg.read Config.status) := by
  have read := State.memReadByte_ok Config.status (answers.mono (by omega)) quiet (by decide)
  have last : (s.didRead Config.status [s.reg.read Config.status] s.draws).Answers 1 :=
    State.Answers.shift (s := s) (n := 2) answers rfl rfl
  obtain ⟨t, write, byte⟩ := State.memWrite_one_plain (last 0 (by omega)) plain (a := Config.status) (by decide)
    (clearFlag channel (s.reg.read Config.status))
  refine ⟨t, ?_, byte⟩
  rw [State.runPollAndClearAlarm, read, Run.andThen_done, set, cond_true, write, Run.andThen_done]
  rfl

/-- Settles O39: the poll writes back the byte its read frame returned, and the write frame comes after whatever the
engine does in the window. -/
theorem engineChangeInTheWindowIsLost : Obligations.EngineChangeInTheWindowIsLost := by
  intro s channel hch idle _ plain answers quiet0 quiet1 set
  rw [← channelBit_eq hch] at set ⊢
  have quiet : s.EngineQuiet 2 := .inr fun k hk => by
    obtain rfl | rfl : k = 0 ∨ k = 1 := by omega
    · exact quiet0
    · exact quiet1
  have hw : (Instr.pollAndClearAlarm channel).wf = true := by rcases hch with rfl | rfl <;> rfl
  obtain ⟨t, done, byte⟩ := State.runPollAndClearAlarm_overwrites (s := s.start) answers quiet plain
    ((flagSet_iff _ _).mpr set)
  refine ⟨_, exec_pollAndClearAlarm idle hw, ?_⟩
  rw [done]
  exact ⟨rfl, byte⟩

end Sys2Proof.Machine
end

section
/-! PROOFS. The family of spec/30_encoding.md: the decoder and the encoder as inverses of each other (R91, R92, R96,
R97, R99), and the words it refuses (R104 (a), (b)). -/

namespace Sys2Proof

/-! ## The word of an instruction read back -/

theorem decodeFrame_frameHead_write (dev : DevAddr) (bytes : List Byte) :
    decodeFrame (frameHead dev 0#1 :: bytes) = .ok (.wframe dev bytes) := by
  have write : (frameHead dev 0#1).getLsbD 0 = false := frameHead_rw dev 0#1
  simp only [decodeFrame, write, frameHead_dev]

theorem decodeFrame_frameHead_read (dev : DevAddr) (count : Byte) :
    decodeFrame [frameHead dev 1#1, count] = .ok (.rframe dev count) := by
  have read : (frameHead dev 1#1).getLsbD 0 = true := frameHead_rw dev 1#1
  simp only [decodeFrame, read, frameHead_dev, args1]

/-- An admitted payload's length fits the count byte (R68, R99). -/
theorem payloadOk_fits {data : List Byte} (h : payloadOk data = true) : data.length < 256 := by
  have : data.length ≤ 31 := by simpa [payloadOk] using h
  omega

/-- Settles O2: a frame's head byte gives back its two fields and an admitted payload fits its count byte; every other
word is its opcode and its operands as they are. -/
theorem decodeOfEncodeIsIdentity : Obligations.DecodeOfEncodeIsIdentity := by
  intro i hw
  cases i with
  | wframe dev bytes => exact decodeFrame_frameHead_write dev bytes
  | rframe dev count => exact decodeFrame_frameHead_read dev count
  | writeBytes addr data => exact argsPayload_encodePayload .writeBytes addr data (payloadOk_fits hw)
  | writeMemory addr data => exact argsPayload_encodePayload .writeMemory addr data (payloadOk_fits hw)
  | _ => rfl

/-! ## The instruction of a word written back -/

/-- A frame that is accepted is the frame of its head byte's two fields (R93). -/
theorem encode_of_decodeFrame {word : List Byte} {i : Instr} (h : decodeFrame word = .ok i) :
    encode i = (.bus, word) := by
  cases word with
  | nil => cases h
  | cons head rest =>
    have self := frameHead_self head
    cases bit : head.getLsbD 0 with
    | false =>
      rw [bit] at self
      simp only [decodeFrame, bit, Except.ok.injEq] at h
      subst h
      exact congrArg (fun b => (Port.bus, b :: rest)) self
    | true =>
      rw [bit] at self
      simp only [decodeFrame, bit] at h
      obtain ⟨count, rfl, rfl⟩ := args1_ok h
      exact congrArg (fun b => (Port.bus, [b, count])) self

/-- An opcode with an operand list it accepts is the word of the instruction: by the shapes of R97. -/
theorem encode_of_decodeOpcode {opcode : Byte} {args : List Byte} {i : Instr}
    (h : decodeOpcode opcode args = .ok i) : encode i = (.command, opcode :: args) := by
  have self : BitVec.ofNat 8 opcode.toNat = opcode := by rw [BitVec.ofNat_toNat, BitVec.setWidth_eq]
  unfold decodeOpcode at h
  rw [← self]
  generalize opcode.toNat = v at h ⊢
  split at h
  -- `getTime`, `readTemperature`, `probe`
  case h_7 | h_15 | h_18 => obtain ⟨rfl, rfl⟩ := args0_ok h; rfl
  -- `toBCD`, `fromBCD`, `readByte`, `pollAndClearAlarm`, `setSquareWave`, `oscillatorStopped`
  case h_1 | h_2 | h_5 | h_12 | h_13 | h_14 => obtain ⟨_, rfl, rfl⟩ := args1_ok h; rfl
  -- `readBytes`, `writeByte`, `setAlarmInterrupt`, `readMemory`
  case h_3 | h_6 | h_11 | h_16 => obtain ⟨_, _, rfl, rfl⟩ := args2_ok h; rfl
  -- `setAlarm3`
  case h_10 => obtain ⟨_, _, _, _, rfl, rfl⟩ := args4_ok h; rfl
  -- `setAlarm`
  case h_9 => obtain ⟨_, _, _, _, _, rfl, rfl⟩ := args5_ok h; rfl
  -- `setTime`
  case h_8 => obtain ⟨_, _, _, _, _, _, _, rfl, rfl⟩ := args7_ok h; rfl
  -- `writeBytes`, `writeMemory`
  case h_4 | h_17 => obtain ⟨_, _, rfl, rfl⟩ := argsPayload_ok h; rfl
  -- reserved
  case h_19 => cases h

/-- Settles O3: an accepted operand list is the one its instruction is written with. -/
theorem encodeOfDecodeIsIdentity : Obligations.EncodeOfDecodeIsIdentity := by
  intro p word i h
  cases p with
  | bus => exact encode_of_decodeFrame h
  | command =>
    cases word with
    | nil => cases h
    | cons opcode args => exact encode_of_decodeOpcode h

/-! ## Words that are refused -/

/-- A command word whose length is not its opcode's (R97, R99). -/
theorem decodeOpcode_wrongLength {opcode : Byte} {args : List Byte} {n : Nat}
    (hn : commandLength opcode.toNat (args.getD 1 0x00#8).toNat = some n) (hl : args.length + 1 ≠ n) :
    decodeOpcode opcode args = .error .wrongLength := by
  unfold decodeOpcode
  generalize opcode.toNat = v at hn ⊢
  split
  -- `getTime`, `readTemperature`, `probe`
  case h_7 | h_15 | h_18 => cases hn; exact args0_wrongLength (by omega)
  -- `toBCD`, `fromBCD`, `readByte`, `pollAndClearAlarm`, `setSquareWave`, `oscillatorStopped`
  case h_1 | h_2 | h_5 | h_12 | h_13 | h_14 => cases hn; exact args1_wrongLength (by omega)
  -- `readBytes`, `writeByte`, `setAlarmInterrupt`, `readMemory`
  case h_3 | h_6 | h_11 | h_16 => cases hn; exact args2_wrongLength (by omega)
  -- `setAlarm3`
  case h_10 => cases hn; exact args4_wrongLength (by omega)
  -- `setAlarm`
  case h_9 => cases hn; exact args5_wrongLength (by omega)
  -- `setTime`
  case h_8 => cases hn; exact args7_wrongLength (by omega)
  -- `writeBytes`, `writeMemory`
  case h_4 | h_17 => cases hn; exact argsPayload_wrongLength (by omega)
  -- a reserved opcode has no length
  case h_19 => simp_all [commandLength]

/-- A word the decoder rejects is refused by the step that takes it (R104). -/
theorem Machine.step_of_reject {s : Machine.State} {p : Port} {word : List Byte} {rest : List Machine.Input}
    {r : Reject} (hin : s.inbox = .word p word :: rest) (h : decode p word = .error r) :
    Machine.step s = .refused (.ofReject r) := by
  simp only [Machine.step, Machine.fetch, hin, h]

/-- Settles O4: the decoder rejects such a word, and the step refuses what the decoder rejects. -/
theorem reservedOpcodeOrLengthRefused : Obligations.ReservedOpcodeOrLengthRefused := by
  intro s opcode args rest hin
  refine ⟨fun reserved => ?_, fun n hn hl => ?_⟩
  · exact Machine.step_of_reject hin (decodeOpcode_reserved args reserved)
  · exact Machine.step_of_reject hin (decodeOpcode_wrongLength hn hl)

/-- Settles O1: the decoder evaluates on each of the ten words. -/
theorem familyWordsDecode : Obligations.FamilyWordsDecode :=
  ⟨rfl, rfl, rfl, rfl, rfl, rfl, rfl, rfl, rfl, rfl⟩

end Sys2Proof
end

section
/-! PROOFS. The family of spec/30_encoding.md: which instructions are taken up (R104 (c), (d)), what the
pseudo-operations are (R108), and boolean results (R103). -/

namespace Sys2Proof.Machine

/-- Settles O14: what an instruction does when it is issued, by the sequencer's state and the operands' domain. -/
theorem admittedInstructionsAreTakenUp : Obligations.AdmittedInstructionsAreTakenUp := by
  intro i s
  refine ⟨fun idle hw => ?_, exec_outOfDomain i s, exec_hung i s⟩
  obtain ⟨t, run, _⟩ := exec_effect i s idle hw
  exact ⟨t, run⟩

/-! ## A byte read is a list of one byte read -/

/-- A run that goes on past its first part: that part went on, and so did the rest. -/
theorem Run.andThen_eq_done {α β : Type} {r : Run α} {k : α → State → Run β} {b : β} {t : State}
    (h : r.andThen k = .done b t) : ∃ a s, r = .done a s ∧ k a s = .done b t := by
  cases r with
  | done a s => exact ⟨a, s, rfl, h⟩
  | busError c s => cases h
  | hung s => cases h

/-- A read that goes on returns as many bytes as it asked for (R131). -/
theorem State.memRead_length {s t : State} {addr : Byte} {n : Nat} {data : List Byte}
    (h : s.memRead addr n = .done data t) : data.length = n := by
  obtain ⟨_, q, _, read⟩ := Run.andThen_eq_done h
  rw [State.busRead_eq] at read
  obtain ⟨_, rfl, _⟩ := Run.ofStatus_done read
  exact q.readData_length _ n

/-- `t` answers a byte where `u` answers the list of that byte, or neither answers; nothing else differs. -/
structure State.AnswersByteOf (t u : State) : Prop where
  same : { u with response := t.response } = t
  idle : t.seq = .idle → ∃ c d, u.response = some ⟨c, .bytes [d]⟩ ∧ t.response = some ⟨c, .byte d⟩
  hung : t.seq = .hung → u.response = t.response

/-- The two runs share their read; its byte, or the drawn one (R204), is answered in either form. -/
theorem State.readByte_answersByteOf_readBytes {s : State} (idle : s.seq = .idle) (addr : Byte) :
    State.AnswersByteOf (conclude .byte (s.runReadByte addr)) (conclude (.bytes 1) (s.runReadBytes addr 1)) := by
  have still : (s.memRead addr 1).state.seq = .idle :=
    (s.memRead_ends addr 1 (by decide) (by decide)).trail.seq.trans idle
  unfold State.runReadByte State.memReadByte State.runReadBytes
  generalize read : s.memRead addr 1 = r at still ⊢
  cases r with
  | done data t =>
    obtain ⟨d, rfl⟩ := List.length_eq_one_iff.mp (State.memRead_length read)
    exact ⟨rfl, fun _ => ⟨_, d, rfl, rfl⟩, fun stuck => by cases still.symm.trans stuck⟩
  | busError c t => exact ⟨rfl, fun _ => ⟨c, _, rfl, rfl⟩, fun stuck => by cases still.symm.trans stuck⟩
  | hung t => exact ⟨rfl, fun ready => (by cases ready), fun _ => rfl⟩

/-! ## The other pseudo-operations -/

theorem alarmSecondsOk_zero {type : Byte} {t : AlarmType} (h : AlarmType.ofCode? type = some t) :
    alarmSecondsOk type 0x00#8 = true := by
  simp [alarmSecondsOk, h, inRange]

/-- `setAlarm3` is `setAlarm` with the seconds 0, its refusals among it (R164). -/
theorem exec_setAlarm3_eq_setAlarm (type minutes hours dayOrDate : Byte) (s : State) :
    exec (.setAlarm3 type minutes hours dayOrDate) s = exec (.setAlarm type 0x00#8 minutes hours dayOrDate) s := by
  simp only [exec, execSetAlarm3, execSetAlarm]
  cases e : AlarmType.ofCode? type with
  | none => rfl
  | some t => simp only [Instr.wf, alarmSecondsOk_zero e, Bool.true_and]

/-- Settles O29: the two byte reads share their frames; the other pairs have one meaning. -/
theorem pseudoOperationsExpand : Obligations.PseudoOperationsExpand := by
  intro s addr count v type minutes hours dayOrDate data
  refine ⟨?_, rfl, rfl, rfl, rfl, fun short => ?_, rfl, rfl, rfl,
    exec_setAlarm3_eq_setAlarm type minutes hours dayOrDate s⟩
  · cases seq : s.seq with
    | hung => exact .inl ⟨rfl, exec_hung _ s seq, exec_hung _ s seq⟩
    | idle =>
      obtain ⟨same, answered, never⟩ := State.readByte_answersByteOf_readBytes (s := s.start) seq addr
      exact .inr ⟨_, _, exec_readByte seq, exec_readBytes seq rfl, same, answered, never⟩
  · exact argsPayload_encodePayload .writeMemory addr data (by omega)

/-! ## Boolean results -/

/-- A run that, where it goes on, answers a boolean (R103). -/
def Run.AnswersBool (r : Run Result) : Prop := ∀ v t, r = .done v t → ∃ b, v = .bool (boolByte b)

theorem Run.AnswersBool.done (b : Bool) (s : State) : Run.AnswersBool (.done (.bool (boolByte b)) s) :=
  fun v t h => by cases h; exact ⟨b, rfl⟩

/-- The last micro-step answers. -/
theorem Run.AnswersBool.andThen {α : Type} {k : α → State → Run Result} (h : ∀ a s, (k a s).AnswersBool)
    (r : Run α) : (r.andThen k).AnswersBool := fun v t e => by
  obtain ⟨a, s, _, last⟩ := Run.andThen_eq_done e
  exact h a s v t last

theorem State.runPollAndClearAlarm_answersBool (s : State) (channel : Byte) :
    (s.runPollAndClearAlarm channel).AnswersBool := by
  refine Run.AnswersBool.andThen (fun st t => ?_) _
  cases flagSet channel st with
  | true => exact Run.AnswersBool.andThen (fun _ t' => .done true t') _
  | false => exact .done false t

theorem State.runOscillatorStopped_answersBool (s : State) (clear : Bool) :
    (s.runOscillatorStopped clear).AnswersBool := by
  refine Run.AnswersBool.andThen (fun st t => ?_) _
  cases osfSet st && clear with
  | true => exact Run.AnswersBool.andThen (fun _ t' => .done (osfSet st) t') _
  | false => exact .done (osfSet st) t

theorem boolByte_eq_zero_or_one (b : Bool) : boolByte b = 0x00#8 ∨ boolByte b = 0x01#8 := by
  cases b
  · exact .inl rfl
  · exact .inr rfl

/-- A boolean operation's answer is a boolean, computed or drawn (R103, R204); a hang gives none (R220). -/
theorem Run.AnswersBool.conclude {r : Run Result} (h : r.AnswersBool) :
    (Machine.conclude .bool r).seq = .hung ∨
      ∃ c v, (Machine.conclude .bool r).response = some ⟨c, .bool v⟩ ∧ (v = 0x00#8 ∨ v = 0x01#8) := by
  cases r with
  | done v t =>
    obtain ⟨b, rfl⟩ := h v t rfl
    exact .inr ⟨_, _, rfl, boolByte_eq_zero_or_one b⟩
  | busError c t => exact .inr ⟨c, _, rfl, boolByte_eq_zero_or_one _⟩
  | hung t => exact .inl rfl

/-- Settles O54: both operations answer a boolean at each of their ends, and a drawn boolean is one byte as well. -/
theorem booleanResultsAreOneByte : Obligations.BooleanResultsAreOneByte := by
  rintro i s (⟨channel, rfl⟩ | ⟨clear, rfl⟩) hw idle
  · exact ⟨_, exec_pollAndClearAlarm idle hw, (s.start.runPollAndClearAlarm_answersBool channel).conclude⟩
  · exact ⟨_, exec_oscillatorStopped idle hw, (s.start.runOscillatorStopped_answersBool _).conclude⟩

end Sys2Proof.Machine
end

section
/-! PROOFS. The family of spec/40_bcd_codec.md: what the codec commands answer (R120, R121), and where each undoes the
other (R122). -/

namespace Sys2Proof.Machine

/-! ## The codec commands -/

theorem toBCD_wf_iff (n : Byte) : (Instr.toBCD n).wf = true ↔ n.toNat ≤ 99 := by
  simp [Instr.wf, inRange_iff]

/-- A codec command puts its byte on the result port with status 0, and leaves no frame on record. -/
theorem concludeCodec_start (v : Byte) (s : State) :
    concludeCodec v s.start = { s with bus := [], response := some ⟨0x00#8, .byte v⟩ } := rfl

/-- The sum of R120 is the number whose nibbles are the two digits, not cut to a byte. -/
theorem toNat_packed_eq_add {n : Byte} (two : n.toNat ≤ 99) : (packed n).toNat = n.toNat + 6 * (n.toNat / 10) := by
  rw [toNat_packed two]
  omega

/-- Settles O21: `toBCD` answers `packed n` where its operand is in its domain, and is refused elsewhere. -/
theorem toBcdPacksTwoDigits : Obligations.ToBcdPacksTwoDigits := by
  refine fun s n idle => ⟨rfl, fun two => ⟨toNat_packed_eq_add two, ?_⟩, fun large => ?_⟩
  · rw [exec_toBCD idle ((toBCD_wf_iff n).mpr two), concludeCodec_start, toBcd_packed n two]
  · have outside : (Instr.toBCD n).wf = false :=
      Bool.eq_false_iff.mpr fun hw => absurd ((toBCD_wf_iff n).mp hw) (Nat.not_le.mpr large)
    exact exec_outOfDomain _ s idle outside

/-- Settles O22: `fromBCD` has no operand outside its domain, and its formula is `unpacked`. -/
theorem fromBcdUnpacksEveryByte : Obligations.FromBcdUnpacksEveryByte := by
  intro s b idle
  rw [exec_fromBCD idle, concludeCodec_start, fromBcd_unpacked]

/-! ## The round trip -/

theorem unpacked_packed {n : Byte} (two : n.toNat ≤ 99) : unpacked (packed n) = n := by
  apply BitVec.eq_of_toNat_eq
  rw [toNat_unpacked, toNat_packed two]
  omega

/-- Packing the two digits of what a byte unpacks to gives the byte back when its nibbles are digits: a low nibble
above 9 would carry into the tens, and a high one above 9 makes a number above 99. -/
theorem packed_unpacked_iff (b : Byte) :
    ((unpacked b).toNat ≤ 99 ∧ packed (unpacked b) = b) ↔ (b.toNat / 16 ≤ 9 ∧ b.toNat % 16 ≤ 9) := by
  have value : (unpacked b).toNat = 10 * (b.toNat / 16) + b.toNat % 16 := toNat_unpacked b
  constructor
  · rintro ⟨two, back⟩
    have digits := toNat_packed two
    rw [back, value] at digits
    omega
  · rintro ⟨high, low⟩
    have two : (unpacked b).toNat ≤ 99 := by omega
    refine ⟨two, BitVec.eq_of_toNat_eq ?_⟩
    rw [toNat_packed two, value]
    omega

/-- Settles O23: inside the domain of `toBCD` both formulas are the digits' own, `packed` and `unpacked`. -/
theorem bcdRoundTrip : Obligations.BcdRoundTrip := by
  refine ⟨fun n two => ?_, fun b => ?_⟩
  · rw [toBcd_packed n two, fromBcd_unpacked, unpacked_packed two]
  · rw [← packed_unpacked_iff, fromBcd_unpacked]
    exact and_congr_right fun two => by rw [toBcd_packed _ two]

end Sys2Proof.Machine
end

section
/-! PROOFS. The family of spec/41_register_access.md: `probe` (R136), and reads and writes whose frame ends with a
nonzero status (R132, R133, R138). -/

namespace Sys2Proof.Machine

/-! ## How an operation answers a status -/

/-- The end of an operation writes `LASTERR` and the result port, and may draw a result. -/
theorem State.AfterFrames.answered {s t : State} {n : Nat} (h : s.AfterFrames t n) (draws : Nat) (c : Byte)
    (v : Result) : s.AfterFrames { t with draws := draws, lastErr := c, response := some ⟨c, v⟩ } n :=
  ⟨h.params, h.inbox, h.seq, h.pending, h.received, h.transport, h.frameCount⟩

/-- Operations one after another use their answers one after another. -/
theorem State.AfterFrames.trans {s t u : State} {n m : Nat} (h : s.AfterFrames t n) (g : t.AfterFrames u m) :
    s.AfterFrames u (n + m) where
  params := g.params.trans h.params
  inbox := g.inbox.trans h.inbox
  seq := g.seq.trans h.seq
  pending empty := g.pending (h.pending empty)
  received empty := g.received (h.received empty)
  transport := by rw [g.transport, h.transport, List.drop_drop]
  frameCount := by rw [g.frameCount, h.frameCount, Nat.add_assoc]

theorem Run.ofStatus_nonzero {α : Type} {c : Byte} (nonzero : c ≠ 0x00#8) (a : α) (t : State) :
    Run.ofStatus (some c) a t = .busError c t := by
  rw [Run.ofStatus, beq_false_of_ne nonzero, cond_false]

/-- An operation of one frame and no result answers the frame's status, whichever it is (R24, R200). -/
theorem conclude_ofStatus_answered (c : Byte) (t : State) :
    conclude .none ((Run.ofStatus (some c) () t).andThen fun _ u => .done .none u) =
      { t with lastErr := c, response := some ⟨c, .none⟩ } := by
  by_cases zero : c = 0x00#8
  · rw [zero]
    rfl
  · rw [Run.ofStatus_nonzero zero]
    rfl

/-! ## Operations of one write frame -/

/-- The answers do not depend on the record of frames. -/
theorem State.start_answer (s : State) : s.start.answer = s.answer := rfl

/-- A probe whose call returns (R136). -/
theorem exec_probe_answered {s : State} {c : Byte} (idle : s.seq = .idle) (hc : s.answer.status = some c) :
    exec .probe s =
      .next { s.start.afterWrite s.params.devAddr [] with lastErr := c, response := some ⟨c, .none⟩ } := by
  rw [exec_probe idle, State.runProbe, State.busWrite_eq, State.start_answer, hc,
    conclude_ofStatus_answered]

/-- A probe whose call never returns (R220). -/
theorem exec_probe_never {s : State} (idle : s.seq = .idle) (never : s.answer.status = none) :
    exec .probe s = .next { s.start.afterWrite s.params.devAddr [] with seq := .hung } := by
  rw [exec_probe idle, State.runProbe, State.busWrite_eq, State.start_answer, never]
  rfl

/-- A write command whose call returns leaves what its bare frame leaves, and answers the status (R133). -/
theorem exec_write_of_wframe {s t : State} {addr c : Byte} {data : List Byte} {i : Instr}
    (hi : i = .writeBytes addr data ∨ i = .writeMemory addr data ∨ ∃ v, data = [v] ∧ i = .writeByte addr v)
    (short : data.length ≤ 31) (idle : s.seq = .idle) (hc : s.answer.status = some c)
    (frame : exec (.wframe s.params.devAddr (addr :: data)) s = .next t) :
    exec i s = .next { t with lastErr := c, response := some ⟨c, .none⟩ } := by
  rw [exec_wframe_answered idle (by simpa [Instr.wf] using short) hc] at frame
  cases frame
  rw [exec_write hi short idle, State.runWriteBytes, State.memWrite, State.busWrite_eq,
    State.start_answer, hc, conclude_ofStatus_answered]

/-- Settles O28: the empty frame has no byte for the slave to take, whatever its status. -/
theorem probeChangesNoRegister : Obligations.ProbeChangesNoRegister := by
  intro s idle quiet
  obtain ⟨reg, ptr⟩ := State.afterWrite_of_taken_nil (s := s.start) (s.start.taken_nil s.params.devAddr) quiet
  refine ⟨rfl, ?_⟩
  cases status : s.answer.status with
  | none =>
    refine ⟨_, exec_probe_never idle status, reg, ptr, rfl, rfl, fun c returned => ?_, fun _ => ⟨rfl, rfl, rfl⟩⟩
    cases status.symm.trans returned
  | some c =>
    have after := (State.afterWrite_afterFrames (s := s.start) status s.params.devAddr []).of_start
    refine ⟨_, exec_probe_answered idle status, reg, ptr, rfl, rfl, fun d returned => ?_, fun never => ?_⟩
    · cases status.symm.trans returned
      exact ⟨rfl, rfl, after.answered _ _ _⟩
    · cases status.symm.trans never

/-- Settles O52: the command leaves what the bare frame of the same bytes does (O18), and answers its status. -/
theorem failedWriteStoresSomePart : Obligations.FailedWriteStoresSomePart := by
  intro s addr c data i hi short idle quiet nonzero hc k
  obtain ⟨t, _, frame, _, rfl, stored, reserved, kept, ptrUnmoved, ptr, _, _, bus, after⟩ :=
    (failedWriteFrameAppliesSomePart s c idle quiet nonzero hc).2 addr data short
  exact ⟨_, exec_write_of_wframe hi short idle hc frame, rfl, rfl, bus, stored, reserved, kept, ptrUnmoved, ptr,
    after.answered _ _ _⟩

/-! ## Reads that fail -/

/-- A read is a write frame of the address alone, then a read frame (R132). -/
theorem State.memRead_eq (s : State) (addr : Byte) (n : Nat) :
    s.memRead addr n = (s.memWrite addr []).andThen fun _ t => t.busRead t.params.devAddr n := rfl

/-- A read whose address frame fails ends there: no read frame, no cell changed (R132, R140). -/
theorem State.memRead_addressFailed {s : State} {c : Byte} (addr : Byte) (n : Nat) (quiet : s.EngineQuiet 1)
    (nonzero : c ≠ 0x00#8) (hc : (s.answerAt 0).status = some c) :
    ∃ t, s.memRead addr n = .busError c t ∧ t.bus = s.bus ++ [⟨.write s.params.devAddr [addr], some c, []⟩] ∧
      t.reg = s.reg ∧ (t.ptr = s.ptr ∨ t.ptr = addr) ∧ s.AfterFrames t 1 := by
  obtain ⟨t, run, reg, ptrUnmoved, ptr, bus, after⟩ := State.memWrite_failed addr [] quiet nonzero hc
  refine ⟨t, by rw [State.memRead_eq, run, Run.andThen_busError], bus, ?_, ?_, after⟩
  · rw [reg, List.take_nil]
    rfl
  · have few : min (s.answerAt 0).applied (([] : List Byte).length + 1) ≤ 1 := Nat.min_le_right _ _
    generalize min (s.answerAt 0).applied (([] : List Byte).length + 1) = k at ptrUnmoved ptr few
    rcases Nat.le_one_iff_eq_zero_or_eq_one.mp few with rfl | rfl
    · exact .inl (ptrUnmoved rfl)
    · exact .inr (by simpa using ptr)

/-- A read whose read frame fails ends there, no cell changed (R132, R208). -/
theorem State.memRead_readFailed {s : State} {c : Byte} (addr : Byte) (n : Nat) (quiet : s.EngineQuiet 2)
    (addressed : (s.answerAt 0).status = some 0x00#8) (nonzero : c ≠ 0x00#8)
    (hc : (s.answerAt 1).status = some c) :
    ∃ t, s.memRead addr n = .busError c t ∧ t.bus.length = s.bus.length + 2 ∧ t.reg = s.reg ∧
      s.AfterFrames t 2 := by
  have address : s.memWrite addr [] = .done () (s.wrote addr []) :=
    State.busWrite_ok addr [] addressed quiet.first
  have wrote := s.wrote_trail addr []
  have second : (s.wrote addr []).answer.status = some c :=
    (congrArg FrameAnswer.status (State.answerAt_shift wrote.transport wrote.frameCount 0)).trans hc
  have still : (s.wrote addr []).EngineQuiet 1 :=
    State.EngineQuiet.shift (n := 1) quiet wrote.params wrote.transport wrote.frameCount
  refine ⟨(s.wrote addr []).afterRead s.params.devAddr n, ?_, ?_,
    (s.wrote addr []).openFrame_reg_quiet still.first, wrote.trans (State.afterRead_afterFrames second _ _)⟩
  · rw [State.memRead_eq, address, Run.andThen_done, State.busRead_eq, second, Run.ofStatus_nonzero nonzero]
    rfl
  · simp [State.afterRead, State.wrote]

/-- An instruction that begins with a `MemRead` is that read and what comes after it (R202). -/
theorem Instr.run_of_firstRead {i : Instr} {addr : Byte} (h : i.firstRead? = some addr) (s : State) :
    ∃ (n : Nat) (k : List Byte → State → Run Result), i.run s = (s.memRead addr n).andThen k := by
  cases i with
  | readBytes | readMemory | getTime => cases h; exact ⟨_, _, rfl⟩
  | readByte | setAlarmInterrupt | pollAndClearAlarm | setSquareWave | oscillatorStopped | readTemperature =>
    cases h
    exact ⟨1, _, Run.andThen_assoc _ _ _⟩
  | _ => cases h

theorem Instr.isCommand_of_firstRead {i : Instr} {addr : Byte} (h : i.firstRead? = some addr) :
    i.isCommand = true ∧ i.isCodec = false := by
  cases i with
  | wframe | rframe | toBCD | fromBCD => cases h
  | _ => exact ⟨rfl, rfl⟩

/-- An instruction whose first read fails is over: the read's state, the code as its answer (R200, R202). -/
theorem exec_firstRead_failed {i : Instr} {s : State} {addr : Byte} (h : i.firstRead? = some addr)
    (hw : i.wf = true) (idle : s.seq = .idle) :
    ∃ n, ∀ c t, s.start.memRead addr n = .busError c t →
      ∃ draws v, exec i s = .next { t with draws := draws, lastErr := c, response := some ⟨c, v⟩ } := by
  obtain ⟨command, touchesBus⟩ := Instr.isCommand_of_firstRead h
  obtain ⟨n, k, run⟩ := Instr.run_of_firstRead h s.start
  refine ⟨n, fun c t failed => ?_⟩
  obtain ⟨draws, ended⟩ := conclude_busError i.resultKind c t
  refine ⟨draws, (t.drawResult i.resultKind).1, ?_⟩
  rw [exec_command command touchesBus hw idle, run, failed, Run.andThen_busError, ended]

/-- Settles O46: the read of `State.memRead_addressFailed` is the whole operation. -/
theorem addressPhaseFailureIssuesNoRead : Obligations.AddressPhaseFailureIssuesNoRead := by
  intro i s addr c first hw idle quiet nonzero hc
  obtain ⟨n, ended⟩ := exec_firstRead_failed first hw idle
  obtain ⟨t, failed, bus, reg, ptr, after⟩ := State.memRead_addressFailed (s := s.start) addr n quiet nonzero hc
  obtain ⟨draws, v, run⟩ := ended c t failed
  exact ⟨_, v, run, bus, rfl, rfl, reg, ptr, after.of_start.answered _ _ _⟩

/-- Settles O47: the read of `State.memRead_readFailed` is the whole operation. -/
theorem readFrameFailureIsSurfaced : Obligations.ReadFrameFailureIsSurfaced := by
  intro i s addr c first hw idle quiet addressed nonzero hc
  obtain ⟨n, ended⟩ := exec_firstRead_failed first hw idle
  obtain ⟨t, failed, length, reg, after⟩ :=
    State.memRead_readFailed (s := s.start) addr n quiet addressed nonzero hc
  obtain ⟨draws, v, run⟩ := ended c t failed
  exact ⟨_, v, run, length, rfl, rfl, reg, after.of_start.answered _ _ _⟩

end Sys2Proof.Machine
end

section
/-! PROOFS. The family of spec/42_time_access.md: `getTime` (R151), `setTime` while its frames succeed (R152) and when
one of them fails (R208), and the round trip of a time (R153). -/

namespace Sys2Proof.Machine

/-! ## The fields of a time -/

/-- The upper bounds of R98 on the fields of a time that travel in BCD; the weekday does not (R152). -/
structure CivilTime.Admitted (t : CivilTime) : Prop where
  seconds : t.seconds.toNat ≤ 59
  minutes : t.minutes.toNat ≤ 59
  hours   : t.hours.toNat ≤ 23
  date    : t.date.toNat ≤ 31
  month   : t.month.toNat ≤ 12
  year    : t.year.toNat ≤ 99

theorem CivilTime.admitted_of_wf {seconds minutes hours weekday date month year : Byte}
    (hw : (Instr.setTime seconds minutes hours weekday date month year).wf = true) :
    CivilTime.Admitted ⟨seconds, minutes, hours, weekday, date, month, year⟩ := by
  simp only [Instr.wf, Bool.and_eq_true, inRange_iff] at hw
  obtain ⟨⟨⟨⟨⟨⟨⟨_, hs⟩, _, hm⟩, _, hh⟩, _⟩, _, hd⟩, _, hmo⟩, _, hy⟩ := hw
  exact ⟨hs, hm, hh, hd, hmo, hy⟩

/-- The bytes `setTime` sends are the packed digits of the fields (R152). -/
theorem CivilTime.Admitted.encode_eq {t : CivilTime} (ht : t.Admitted) :
    t.encode = clockBytes t.seconds t.minutes t.hours t.weekday t.date t.month t.year := by
  obtain ⟨hs, hm, hh, hd, hmo, hy⟩ := ht
  simp only [CivilTime.encode, clockBytes, toBcd_packed t.seconds (by omega), toBcd_packed t.minutes (by omega),
    toBcd_packed t.hours (by omega), toBcd_packed t.date (by omega), toBcd_packed t.month (by omega),
    toBcd_packed t.year hy]

/-! ## The cells of the clock -/

/-- The cells after a payload is stored from 0x00 upward, clear of the reserved cell (R21, R130). -/
theorem State.wrote_zero_read (s : State) (data : List Byte) (short : data.length ≤ 0x13) (a : Byte) :
    (s.wrote 0x00#8 data).reg.read a =
      if h : a.toNat < data.length then s.stored a data[a.toNat] else s.reg.read a := by
  have size : data.length ≤ Config.nreg := short.trans (by decide)
  simp only [State.wrote, RegFile.read_storeAll _ _ _ _ _ size, BitVec.sub_zero]
  split
  · next inside =>
    have free : a ≠ Config.reservedCell := by
      rintro rfl
      exact absurd (inside.trans_le short) (by decide)
    rw [Params.writeMask_other _ free]
    rfl
  · rfl

/-- The cells after the frame of an admitted time: its bytes in the seven cells of the clock (R152). -/
theorem CivilTime.Admitted.clock_read {t : CivilTime} (ht : t.Admitted) (s : State) (a : Byte) :
    (s.wrote Config.clockBase t.encode).reg.read a =
      if h : a.toNat < 7 then
        s.stored a ((clockBytes t.seconds t.minutes t.hours t.weekday t.date t.month t.year)[a.toNat]'(by exact h))
      else s.reg.read a := by
  rw [ht.encode_eq]
  exact s.wrote_zero_read _ (by simp [clockBytes]) a

/-- A read that succeeds clear of the reserved cell returns the cells and draws nothing (R132). -/
theorem State.memRead_cells {s : State} (a : Byte) (n : Nat) (answers : s.Answers 2) (quiet : s.EngineQuiet 2)
    (free : Config.reservedCell ∉ cellsFrom a n) :
    s.memRead a n =
      .done ((cellsFrom a n).map s.reg.read) (s.didRead a ((cellsFrom a n).map s.reg.read) s.draws) := by
  obtain ⟨data, d, length, cells, draws, run⟩ := State.memRead_ok a n answers quiet
  have clear : ∀ k, k < n → a + BitVec.ofNat 8 k ≠ Config.reservedCell := fun k hk e =>
    free (List.mem_map.mpr ⟨k, List.mem_range.mpr hk, e⟩)
  have bytes : data = (cellsFrom a n).map s.reg.read := by
    refine List.ext_getElem (by simp [length]) fun k hk _ => ?_
    rw [length] at hk
    have byte := cells k hk (clear k hk)
    rw [List.getElem?_eq_getElem (by omega)] at byte
    simpa using byte
  rw [run, draws clear, bytes]

/-- Settles O30: the seven cells of a read at 0x00, each decoded by the digits' own formula. -/
theorem getTimeDecodesTheClock : Obligations.GetTimeDecodesTheClock := by
  rintro s ⟨idle, answers, quiet⟩
  have read := State.memRead_cells (s := s.start) 0x00#8 7 answers quiet (by decide)
  refine ⟨_, exec_getTime idle, ?_⟩
  rw [State.runGetTime, read, Run.andThen_done]
  simp only [← fromBcd_unpacked]
  exact ⟨rfl, rfl, rfl, rfl, rfl, rfl, (s.start.didRead_trail _ _ _).conclude_done _ _⟩

/-! ## `setTime` while its frames succeed -/

/-- The state after the four frames of `setTime` succeed (R152). -/
def State.setTimeDone (s : State) (t : CivilTime) : State :=
  ((s.wrote Config.clockBase t.encode).didRead Config.status [s.reg.read Config.status] s.draws).wrote
    Config.status [clearOsf (s.reg.read Config.status)]

/-- Storing the clock leaves the status byte alone. -/
theorem State.wrote_clock_status (s : State) (t : CivilTime) :
    (s.wrote Config.clockBase t.encode).reg.read Config.status = s.reg.read Config.status :=
  s.wrote_zero_read t.encode (by decide : 7 ≤ 0x13) Config.status

theorem State.runSetTime_ok {s : State} (t : CivilTime) (answers : s.Answers 4) (quiet : s.EngineQuiet 4) :
    s.runSetTime t = .done .none (s.setTimeDone t) := by
  have clock := State.memWrite_ok Config.clockBase t.encode (answers.mono (by omega)) (quiet.mono (by omega))
  obtain ⟨read, write⟩ := State.readThenWrite_ok (s := s.wrote Config.clockBase t.encode) Config.status
    (State.Answers.shift (s := s) (n := 1) answers rfl rfl)
    (State.EngineQuiet.shift (s := s) (n := 1) quiet rfl rfl rfl) (by decide) (clearOsf (s.reg.read Config.status))
  rw [s.wrote_clock_status t] at read write
  rw [State.runSetTime, clock, Run.andThen_done, read, Run.andThen_done, write, Run.andThen_done]
  rfl

theorem State.setTimeDone_afterFrames (s : State) (t : CivilTime) : s.AfterFrames (s.setTimeDone t) 4 :=
  ((s.wrote_trail _ _).trans (State.didRead_trail _ _ _ _)).trans (State.wrote_trail _ _ _)

/-- Every cell but the status byte is as the clock's own frame left it. -/
theorem State.setTimeDone_read (s : State) (t : CivilTime) {a : Byte} (ha : a ≠ Config.status) :
    (s.setTimeDone t).reg.read a = (s.wrote Config.clockBase t.encode).reg.read a :=
  State.wrote_one_keeps _ _ _ a (by simpa using ha)

theorem State.setTimeDone_status (s : State) (t : CivilTime) :
    (s.setTimeDone t).reg.read Config.status = s.stored Config.status (clearOsf (s.reg.read Config.status)) := by
  rw [State.setTimeDone, State.wrote_one _ _ _ (by decide)]
  show State.stored (s.wrote Config.clockBase t.encode) _ _ = _
  rw [State.stored, s.wrote_clock_status t]
  rfl

/-- Settles O31 by the closed form of the four frames, `State.setTimeDone`. -/
theorem setTimeWritesClockAndClearsOsf : Obligations.SetTimeWritesClockAndClearsOsf := by
  rintro s seconds minutes hours weekday date month year hw ⟨idle, answers, quiet⟩
  have admitted := CivilTime.admitted_of_wf hw
  have cells := fun a (ha : a ≠ Config.status) =>
    (s.start.setTimeDone_read _ ha).trans (admitted.clock_read s.start a)
  refine ⟨_, exec_setTime idle hw, ?_⟩
  rw [State.runSetTime_ok (s := s.start) _ answers quiet]
  refine ⟨cells 0x00#8 (by decide), cells 0x01#8 (by decide), cells 0x02#8 (by decide), cells 0x03#8 (by decide),
    cells 0x04#8 (by decide), cells 0x05#8 (by decide), cells 0x06#8 (by decide), s.start.setTimeDone_status _,
    fun a ha => ?_, rfl, rfl, rfl, rfl, ?_, (s.start.setTimeDone_afterFrames _).conclude_done _ _⟩
  · have listed : ∀ b : Byte, b.toNat < 7 →
        b ∈ [0x00#8, 0x01#8, 0x02#8, 0x03#8, 0x04#8, 0x05#8, 0x06#8, 0x0F#8] := by decide
    exact (cells a fun status => ha (by simp [status])).trans (dif_neg fun clock => ha (listed a clock))
  · rw [← admitted.encode_eq]
    rfl

/-! ## The round trip -/

/-- The clock cells show a time, whatever the 12/24-hour bit. -/
structure State.Shows (s : State) (t : CivilTime) : Prop where
  seconds : s.reg.read 0x00#8 = packed t.seconds
  minutes : s.reg.read 0x01#8 = packed t.minutes
  hours   : s.reg.read 0x02#8 &&& hoursMask = packed t.hours
  weekday : s.reg.read 0x03#8 = t.weekday
  date    : s.reg.read 0x04#8 = packed t.date
  month   : s.reg.read 0x05#8 = packed t.month
  year    : s.reg.read 0x06#8 = packed t.year

/-- A byte below 0x80 has nothing in the clock-halt bit or the century bit. -/
theorem and_0x7F_of_lt : ∀ b : Byte, b.toNat < 0x80 → b &&& 0x7F#8 = b := by decide

/-- A byte below 0x40 has nothing in the 12/24-hour bit, and masking that bit undoes setting it. -/
theorem and_hoursMask_of_lt :
    ∀ b : Byte, b.toNat < 0x40 → b &&& hoursMask = b ∧ (b ||| 0x40#8) &&& hoursMask = b := by decide

theorem CivilTime.Admitted.packed_hours_lt {t : CivilTime} (ht : t.Admitted) : (packed t.hours).toNat < 0x40 := by
  have hours := ht.hours
  rw [toNat_packed (by omega)]
  omega

/-- `getTime` answers the admitted time that the clock shows (R151, R153). -/
theorem State.Shows.exec_getTime {s : State} {t : CivilTime} (shows : s.Shows t) (ht : t.Admitted) (ready : s.Ready 2) :
    ∃ u, exec .getTime s = .next u ∧ u.response = some ⟨0x00#8, .time t⟩ := by
  obtain ⟨u, run, response, _⟩ := getTimeDecodesTheClock s ready
  obtain ⟨hs, hm, hh, hd, hmo, hy⟩ := ht
  have seconds : (packed t.seconds).toNat < 0x80 := by rw [toNat_packed (by omega)]; omega
  have month : (packed t.month).toNat < 0x80 := by rw [toNat_packed (by omega)]; omega
  refine ⟨u, run, ?_⟩
  rw [response, shows.seconds, shows.minutes, shows.hours, shows.weekday, shows.date, shows.month, shows.year,
    and_0x7F_of_lt _ seconds, and_0x7F_of_lt _ month, unpacked_packed (by omega), unpacked_packed (by omega),
    unpacked_packed (by omega), unpacked_packed (by omega), unpacked_packed (by omega), unpacked_packed (by omega)]

/-- Setting the 12/24-hour bit alone leaves the clock showing its time. -/
theorem State.Shows.of_hourBit {s u : State} {t : CivilTime} (shows : s.Shows t)
    (hours : u.reg.read 0x02#8 &&& hoursMask = packed t.hours) (kept : s.KeepsCellsBut u [0x02#8]) : u.Shows t where
  seconds := (kept _ (by decide)).trans shows.seconds
  minutes := (kept _ (by decide)).trans shows.minutes
  hours   := hours
  weekday := (kept _ (by decide)).trans shows.weekday
  date    := (kept _ (by decide)).trans shows.date
  month   := (kept _ (by decide)).trans shows.month
  year    := (kept _ (by decide)).trans shows.year

/-- Settles O32: `setTime` (O31) makes the clock show the time, and a raw write (O26) of the mode bit keeps it so. -/
theorem timeRoundTrip : Obligations.TimeRoundTrip := by
  intro s seconds minutes hours weekday date month year hw ready plain
  have admitted := CivilTime.admitted_of_wf hw
  obtain ⟨masked, unmasked⟩ := and_hoursMask_of_lt _ admitted.packed_hours_lt
  obtain ⟨t, set, c0, c1, c2, c3, c4, c5, c6, status, _, _, _, _, _, _, after⟩ :=
    setTimeWritesClockAndClearsOsf s seconds minutes hours weekday date month year hw (ready.mono (by omega))
  rw [State.stored_plain plain _ (by decide)] at c0 c1 c2 c3 c4 c5 c6 status
  have shows : t.Shows ⟨seconds, minutes, hours, weekday, date, month, year⟩ :=
    ⟨c0, c1, (congrArg (· &&& hoursMask) c2).trans masked, c3, c4, c5, c6⟩
  have ready3 : t.Ready 3 := ready.shift (n := 4) after
  obtain ⟨u, get, time⟩ := shows.exec_getTime admitted (ready3.mono (by omega))
  obtain ⟨v, write, _, stored, _, kept, _, _, _, _, after'⟩ := writeBytesStoresThePayload t 0x02#8
    [t.reg.read 0x02#8 ||| 0x40#8] _ (.inr (.inr ⟨_, rfl, rfl⟩)) (by simp) (ready3.mono (by omega))
  have plain' : t.PlainStorage := by
    rw [State.PlainStorage, after.params]
    exact plain
  have hour : v.reg.read 0x02#8 = packed hours ||| 0x40#8 := by
    rw [← c2, ← State.stored_plain plain' (t.reg.read 0x02#8 ||| 0x40#8) (a := 0x02#8) (by decide)]
    exact stored 0 (by simp) (by decide)
  have shows' := shows.of_hourBit ((congrArg (· &&& hoursMask) hour).trans unmasked) kept
  obtain ⟨w, get', time'⟩ := shows'.exec_getTime admitted (ready3.shift (n := 1) after')
  exact ⟨t, u, set, status, get, time, v, w, write, get', time'⟩

/-! ## `setTime` when a frame fails -/

/-- A read of a byte that fails, at either of its frames, changes no cell (R132, R208). -/
theorem State.memReadByte_failed {s : State} {c : Byte} (addr : Byte) {n : Nat} (hn : n < 2)
    (quiet : s.EngineQuiet 2) (before : s.Answers n) (nonzero : c ≠ 0x00#8) (hc : (s.answerAt n).status = some c) :
    ∃ t, s.memReadByte addr = .busError c t ∧ t.reg = s.reg ∧ t.bus.length = s.bus.length + (n + 1) := by
  obtain rfl | rfl : n = 0 ∨ n = 1 := by omega
  · obtain ⟨t, run, bus, reg, _⟩ := State.memRead_addressFailed addr 1 (quiet.mono (by omega)) nonzero hc
    exact ⟨t, by rw [State.memReadByte, run, Run.andThen_busError], reg, by simp [bus]⟩
  · obtain ⟨t, run, length, reg, _⟩ := State.memRead_readFailed addr 1 quiet (before 0 (by omega)) nonzero hc
    exact ⟨t, by rw [State.memReadByte, run, Run.andThen_busError], reg, length⟩

/-- A write of one byte that fails leaves the cells as they were or the byte stored (R138). -/
theorem State.memWrite_one_failed {s : State} {c : Byte} (addr v : Byte) (quiet : s.EngineQuiet 1)
    (nonzero : c ≠ 0x00#8) (hc : (s.answerAt 0).status = some c) :
    ∃ t, s.memWrite addr [v] = .busError c t ∧ (t.reg = s.reg ∨ t.reg = (s.wrote addr [v]).reg) ∧
      t.bus.length = s.bus.length + 1 := by
  obtain ⟨t, run, reg, _, _, bus, _⟩ := State.memWrite_failed addr [v] quiet nonzero hc
  refine ⟨t, run, ?_, by simp [bus]⟩
  rw [reg]
  cases min (s.answerAt 0).applied ([v].length + 1) - 1 with
  | zero => exact .inl rfl
  | succ k => exact .inr (by rw [List.take_succ_cons, List.take_nil])

/-- A read-modify-write of a cell that fails, at any of its three frames: only at the last may the cell have changed,
to the byte made of the one read (R106, R208). -/
theorem State.readThenWrite_failed {s : State} {c : Byte} {α : Type} (a : Byte) (f : Byte → Byte)
    (k : Unit → State → Run α) (free : a ≠ Config.reservedCell) {n : Nat} (hn : n < 3) (quiet : s.EngineQuiet 3)
    (before : s.Answers n) (nonzero : c ≠ 0x00#8) (hc : (s.answerAt n).status = some c) :
    ∃ t, ((s.memReadByte a).andThen fun b u => (u.memWrite a [f b]).andThen k) = .busError c t ∧
      (t.reg = s.reg ∨ n = 2 ∧ t.reg = (s.wrote a [f (s.reg.read a)]).reg) ∧
      t.bus.length = s.bus.length + (n + 1) := by
  rcases Nat.lt_or_ge n 2 with early | last
  · obtain ⟨t, run, reg, length⟩ := State.memReadByte_failed a early (quiet.mono (by omega)) before nonzero hc
    exact ⟨t, by rw [run, Run.andThen_busError], .inl reg, length⟩
  · obtain rfl : n = 2 := by omega
    have read := State.memReadByte_ok a before (quiet.mono (by omega)) free
    obtain ⟨t, run, reg, length⟩ := State.memWrite_one_failed (s := s.didRead a [s.reg.read a] s.draws) a
      (f (s.reg.read a)) (State.EngineQuiet.shift (s := s) (n := 2) quiet rfl rfl rfl) nonzero
      ((congrArg FrameAnswer.status (State.answerAt_shift rfl rfl 0)).trans hc)
    refine ⟨t, by rw [read, Run.andThen_done, run, Run.andThen_busError],
      reg.imp id fun stored => ⟨rfl, stored⟩, ?_⟩
    rw [length]
    simp [State.didRead]

/-- `setTime` whose first frame fails leaves some first bytes of the clock stored (R138, R208). -/
theorem State.runSetTime_clockFailed {s : State} {c : Byte} (t : CivilTime) (quiet : s.EngineQuiet 1)
    (nonzero : c ≠ 0x00#8) (hc : (s.answerAt 0).status = some c) :
    ∃ k u, k ≤ 7 ∧ s.runSetTime t = .busError c u ∧ u.reg = (s.wrote Config.clockBase (t.encode.take k)).reg ∧
      u.bus.length = s.bus.length + 1 := by
  obtain ⟨u, run, reg, _, _, bus, _⟩ := State.memWrite_failed Config.clockBase t.encode quiet nonzero hc
  have few : min (s.answerAt 0).applied (t.encode.length + 1) ≤ 7 + 1 := Nat.min_le_right _ _
  exact ⟨_, u, Nat.sub_le_of_le_add few, by rw [State.runSetTime, run, Run.andThen_busError], reg, by simp [bus]⟩

/-- `setTime` whose later frame fails has stored the clock, and failed in the read-modify-write of the status byte. -/
theorem State.runSetTime_statusFailed {s : State} {c : Byte} (t : CivilTime) {n : Nat} (hn : n < 3)
    (quiet : s.EngineQuiet 4) (before : s.Answers (n + 1)) (nonzero : c ≠ 0x00#8)
    (hc : (s.answerAt (n + 1)).status = some c) :
    ∃ u, s.runSetTime t = .busError c u ∧
      (u.reg = (s.wrote Config.clockBase t.encode).reg ∨ n = 2 ∧ u.reg = (s.setTimeDone t).reg) ∧
      u.bus.length = s.bus.length + (n + 2) := by
  have clock := State.memWrite_ok Config.clockBase t.encode (before.mono (by omega)) (quiet.mono (by omega))
  obtain ⟨u, run, reg, length⟩ := State.readThenWrite_failed (s := s.wrote Config.clockBase t.encode) Config.status
    clearOsf (fun _ s3 => .done Result.none s3) (by decide) hn
    (State.EngineQuiet.shift (s := s) (n := 1) quiet rfl rfl rfl)
    (State.Answers.shift (s := s) (n := 1) (m := n) (by rwa [Nat.add_comm]) rfl rfl) nonzero
    ((congrArg FrameAnswer.status (State.answerAt_shift rfl rfl n)).trans (by rwa [Nat.add_comm]))
  rw [s.wrote_clock_status t] at reg
  refine ⟨u, by rw [State.runSetTime, clock, Run.andThen_done, run], reg, ?_⟩
  have first : (s.wrote Config.clockBase t.encode).bus.length = s.bus.length + 1 := by simp [State.wrote]
  omega

/-- The cells after some first bytes of an admitted time are stored (R138). -/
theorem CivilTime.Admitted.clock_part_read {t : CivilTime} (ht : t.Admitted) (s : State) {k : Nat} (hk : k ≤ 7)
    (a : Byte) :
    (s.wrote Config.clockBase (t.encode.take k)).reg.read a =
      if h : a.toNat < 7 ∧ a.toNat < k then
        s.stored a ((clockBytes t.seconds t.minutes t.hours t.weekday t.date t.month t.year)[a.toNat]'(by exact h.1))
      else s.reg.read a := by
  have length : (t.encode.take k).length = k := List.length_take_of_le hk
  rw [ht.encode_eq] at length ⊢
  rw [s.wrote_zero_read _ (by omega)]
  by_cases inside : a.toNat < k
  · rw [dif_pos (length.symm ▸ inside), dif_pos ⟨by omega, inside⟩]
    exact congrArg (s.stored a) List.getElem_take
  · rw [dif_neg (length.symm ▸ inside), dif_neg fun both => inside both.2]

/-- `setTime` that fails answers the code and leaves the cells and frames of its run (R200, R208). -/
theorem exec_setTime_failed {s u : State} {seconds minutes hours weekday date month year c : Byte}
    (idle : s.seq = .idle)
    (hw : (Instr.setTime seconds minutes hours weekday date month year).wf = true)
    (failed : s.start.runSetTime ⟨seconds, minutes, hours, weekday, date, month, year⟩ = .busError c u) :
    ∃ t, exec (.setTime seconds minutes hours weekday date month year) s = .next t ∧
      t.response = some ⟨c, .none⟩ ∧ t.lastErr = c ∧ t.bus = u.bus ∧ t.reg = u.reg := by
  rw [exec_setTime idle hw, failed]
  exact ⟨_, rfl, rfl, rfl, rfl, rfl⟩

/-- Settles O48: the failing frame is the clock's own, or one of the three of the status byte's read-modify-write. -/
theorem failedSetTimeIsNotUndone : Obligations.FailedSetTimeIsNotUndone := by
  intro s seconds minutes hours weekday date month year c n hw idle hn quiet before nonzero hc p
  have admitted := CivilTime.admitted_of_wf hw
  cases n with
  | zero =>
    obtain ⟨k, u, few, failed, reg, length⟩ := State.runSetTime_clockFailed (s := s.start)
      ⟨seconds, minutes, hours, weekday, date, month, year⟩ (quiet.mono (by omega)) nonzero hc
    obtain ⟨t, run, response, lastErr, bus, same⟩ := exec_setTime_failed idle hw failed
    have cells : ∀ a, t.reg.read a = _ := fun a => by rw [same, reg, admitted.clock_part_read s.start few a]
    refine ⟨t, run, response, lastErr, bus ▸ length, fun _ => ⟨k, few, cells⟩, fun later => ?_, fun _ => ?_,
      fun last => ?_⟩
    · exact absurd later (by omega)
    · exact cells 0x0F#8
    · exact absurd last (by omega)
  | succ m =>
    obtain ⟨u, failed, reg, length⟩ := State.runSetTime_statusFailed (s := s.start)
      ⟨seconds, minutes, hours, weekday, date, month, year⟩ (n := m) (by omega) quiet before nonzero hc
    obtain ⟨t, run, response, lastErr, bus, same⟩ := exec_setTime_failed idle hw failed
    refine ⟨t, run, response, lastErr, ?_, fun first => ?_, fun _ a ha => ?_, fun early => ?_, fun last => ?_⟩
    · rw [bus, length]
      exact Nat.zero_add _
    · cases first
    · rw [same, ← admitted.clock_read s.start a]
      rcases reg with reg | ⟨_, reg⟩
      · rw [reg]
      · rw [reg, s.start.setTimeDone_read _ ha]
    · rcases reg with reg | ⟨last, _⟩
      · rw [same, reg]
        exact s.start.wrote_clock_status _
      · omega
    · rcases reg with reg | ⟨_, reg⟩
      · left
        rw [same, reg]
        exact s.start.wrote_clock_status _
      · right
        rw [same, reg]
        exact s.start.setTimeDone_status _

end Sys2Proof.Machine
end

section
/-! PROOFS. The family of spec/43_alarm_access.md: the alarm blocks (R161, R163, R164), the enable bits (R165), the
alarm flags (R166, R167), the control bits the alarms share with the square wave (R180, R182), and these operations
when a frame fails (R208). -/

namespace Sys2Proof.Machine

/-! ## The bits of an alarm's code -/

/-- The row of a variant is spelt by its code: `M1` to `M4` in bits 0 to 3, `DYDT` in bit 4 (R101, R161). -/
theorem alarmMask_eq_code (t : AlarmType) :
    alarmMask t = ⟨t.code.getLsbD 0, t.code.getLsbD 1, t.code.getLsbD 2, t.code.getLsbD 3, t.code.getLsbD 4⟩ := by
  cases t <;> rfl

/-- Bit 7 of the code is the channel (R101). -/
theorem AlarmType.code_getLsbD_seven (t : AlarmType) : t.code.getLsbD 7 = !t.isAlarm1 := by
  cases t <;> rfl

theorem bitAt_code (t : AlarmType) (k position : Nat) : bitAt (t.code.getLsbD k) position = codeBit t k position := by
  rw [bitAt, codeBit, cond_eq_ite]

/-! ## The fields of an alarm -/

/-- The upper bounds of R98 on the fields of an alarm; an Alarm2 type has no seconds (R163). -/
structure AlarmAdmitted (t : AlarmType) (seconds minutes hours dayOrDate : Byte) : Prop where
  seconds   : t.isAlarm1 = true → seconds.toNat ≤ 59
  minutes   : minutes.toNat ≤ 59
  hours     : hours.toNat ≤ 23
  dayOrDate : dayOrDate.toNat ≤ 31

theorem alarmAdmitted_of_wf {t : AlarmType} {seconds minutes hours dayOrDate : Byte}
    (hw : (Instr.setAlarm t.code seconds minutes hours dayOrDate).wf = true) :
    AlarmAdmitted t seconds minutes hours dayOrDate := by
  simp only [Instr.wf, alarmSecondsOk, alarmFieldsOk, AlarmType.ofCode_code, Bool.and_eq_true, Bool.or_eq_true,
    Bool.not_eq_true', inRange_iff] at hw
  obtain ⟨hs, ⟨⟨_, hm⟩, _, hh⟩, _, hd⟩ := hw
  refine ⟨fun alarm1 => ?_, hm, hh, hd.trans (by cases t.isDay <;> decide)⟩
  rcases hs with alarm2 | ⟨_, hs⟩
  · rw [alarm1] at alarm2
    cases alarm2
  · exact hs

/-- The block of an admitted Alarm1 type, in the rules' own words (R163). -/
theorem AlarmAdmitted.alarmBytes_alarm1 {t : AlarmType} {seconds minutes hours dayOrDate : Byte}
    (h : AlarmAdmitted t seconds minutes hours dayOrDate) (alarm1 : t.isAlarm1 = true) :
    alarmBytes t seconds minutes hours dayOrDate =
      [packed seconds ||| codeBit t 0 7, packed minutes ||| codeBit t 1 7, packed hours ||| codeBit t 2 7,
        packed dayOrDate ||| codeBit t 4 6 ||| codeBit t 3 7] := by
  obtain ⟨hs, hm, hh, hd⟩ := h
  have seconds_two := hs alarm1
  simp only [alarmBytes, alarmByte, alarmDayByte, alarmMask_eq_code, bitAt_code, alarm1, cond_true,
    toBcd_packed seconds (by omega), toBcd_packed minutes (by omega), toBcd_packed hours (by omega),
    toBcd_packed dayOrDate (by omega)]

/-- The block of an admitted Alarm2 type, whatever the seconds (R163, D29). -/
theorem AlarmAdmitted.alarmBytes_alarm2 {t : AlarmType} {seconds minutes hours dayOrDate : Byte}
    (h : AlarmAdmitted t seconds minutes hours dayOrDate) (alarm2 : t.isAlarm1 = false) :
    alarmBytes t seconds minutes hours dayOrDate =
      [packed minutes ||| codeBit t 1 7, packed hours ||| codeBit t 2 7,
        packed dayOrDate ||| codeBit t 4 6 ||| codeBit t 3 7] := by
  obtain ⟨_, hm, hh, hd⟩ := h
  simp only [alarmBytes, alarmByte, alarmDayByte, alarmMask_eq_code, bitAt_code, alarm2, cond_false,
    toBcd_packed minutes (by omega), toBcd_packed hours (by omega), toBcd_packed dayOrDate (by omega)]

/-! ## An alarm is set by one write of its block -/

theorem alarmBytes_length_le (t : AlarmType) (seconds minutes hours dayOrDate : Byte) :
    (alarmBytes t seconds minutes hours dayOrDate).length ≤ 4 := by
  rw [alarmBytes_length]
  cases t.isAlarm1 <;> decide

/-- Both forms are `setAlarm`, admitted with it (R164). -/
theorem setAlarm_of_form {t : AlarmType} {seconds minutes hours dayOrDate : Byte} {i : Instr}
    (hi : i = .setAlarm t.code seconds minutes hours dayOrDate ∨
      (seconds = 0#8 ∧ i = .setAlarm3 t.code minutes hours dayOrDate)) (hw : i.wf = true) :
    (Instr.setAlarm t.code seconds minutes hours dayOrDate).wf = true ∧
      ∀ s, exec i s = exec (.setAlarm t.code seconds minutes hours dayOrDate) s := by
  rcases hi with rfl | ⟨rfl, rfl⟩
  · exact ⟨hw, fun _ => rfl⟩
  · exact ⟨(Bool.and_eq_true _ _).mpr ⟨alarmSecondsOk_zero (AlarmType.ofCode_code t), hw⟩,
      exec_setAlarm3_eq_setAlarm _ _ _ _⟩

/-- An alarm's fields are admitted and its setting is `writeBytes` of its block, in either form (R133, R163). -/
theorem exec_alarm_eq_writeBytes {s : State} {t : AlarmType} {seconds minutes hours dayOrDate : Byte} {i : Instr}
    (hi : i = .setAlarm t.code seconds minutes hours dayOrDate ∨
      (seconds = 0#8 ∧ i = .setAlarm3 t.code minutes hours dayOrDate)) (hw : i.wf = true) (idle : s.seq = .idle) :
    AlarmAdmitted t seconds minutes hours dayOrDate ∧
      exec i s = exec (.writeBytes (alarmBase t) (alarmBytes t seconds minutes hours dayOrDate)) s := by
  obtain ⟨admitted, form⟩ := setAlarm_of_form hi hw
  have short := alarmBytes_length_le t seconds minutes hours dayOrDate
  refine ⟨alarmAdmitted_of_wf admitted, ?_⟩
  rw [form, exec_setAlarm idle admitted, exec_writeBytes idle (decide_eq_true (short.trans (by decide)))]
  rfl

/-- Settles O33: the block is written as a payload of four bytes (O26). -/
theorem setAlarm1WritesItsBlock : Obligations.SetAlarm1WritesItsBlock := by
  intro s type seconds minutes hours dayOrDate i hi channel hw ready b0 b1 b2 b3
  have alarm1 : type.isAlarm1 = true := by rwa [AlarmType.code_getLsbD_seven, Bool.not_eq_false'] at channel
  obtain ⟨admitted, write⟩ := exec_alarm_eq_writeBytes hi hw ready.1
  rw [admitted.alarmBytes_alarm1 alarm1, alarmBase, alarm1] at write
  obtain ⟨t, run, response, cells, _, kept, ptr, lastErr, draws, bus, after⟩ :=
    writeBytesStoresThePayload s 0x07#8 [b0, b1, b2, b3] _ (.inl rfl) (by simp) ready
  exact ⟨t, write.trans run, cells 0 (by simp) (by decide), cells 1 (by simp) (by decide),
    cells 2 (by simp) (by decide), cells 3 (by simp) (by decide), kept, ptr, lastErr, response, draws, bus, after⟩

/-- Settles O34: the block is written as a payload of three bytes (O26), the same for all seconds. -/
theorem setAlarm2WritesItsBlock : Obligations.SetAlarm2WritesItsBlock := by
  intro s type seconds minutes hours dayOrDate i hi channel hw ready b1 b2 b3
  have alarm2 : type.isAlarm1 = false := by rwa [AlarmType.code_getLsbD_seven, Bool.not_eq_true'] at channel
  obtain ⟨ignored, hi⟩ : ∃ x, i = .setAlarm type.code x minutes hours dayOrDate ∨
      (x = 0#8 ∧ i = .setAlarm3 type.code minutes hours dayOrDate) :=
    hi.elim (fun hi => ⟨seconds, .inl hi⟩) fun hi => ⟨0#8, .inr ⟨rfl, hi⟩⟩
  obtain ⟨admitted, write⟩ := exec_alarm_eq_writeBytes hi hw ready.1
  rw [admitted.alarmBytes_alarm2 alarm2, alarmBase, alarm2] at write
  obtain ⟨t, run, response, cells, _, kept, ptr, lastErr, draws, bus, after⟩ :=
    writeBytesStoresThePayload s 0x0B#8 [b1, b2, b3] _ (.inl rfl) (by simp) ready
  exact ⟨t, write.trans run, cells 0 (by simp) (by decide), cells 1 (by simp) (by decide),
    cells 2 (by simp) (by decide), kept, ptr, lastErr, response, draws, bus, after⟩

/-! ## The mask bits of a block -/

/-- The rows of R161 are spelt by the codes of R101. -/
theorem alarmRow_eq_code {t : AlarmType} {bits : Bool × Bool × Bool × Bool × Bool} (h : (t, bits) ∈ alarmRows) :
    bits = (t.code.getLsbD 0, t.code.getLsbD 1, t.code.getLsbD 2, t.code.getLsbD 3, t.code.getLsbD 4) := by
  have rows : ∀ row ∈ alarmRows, row.2 = (row.1.code.getLsbD 0, row.1.code.getLsbD 1, row.1.code.getLsbD 2,
      row.1.code.getLsbD 3, row.1.code.getLsbD 4) := by decide
  exact rows _ h

theorem codeBit_getLsbD_seven (t : AlarmType) (k : Nat) : (codeBit t k 7).getLsbD 7 = t.code.getLsbD k := by
  unfold codeBit
  cases t.code.getLsbD k <;> rfl

theorem packed_getLsbD_seven : ∀ n : Byte, n.toNat ≤ 79 → (packed n).getLsbD 7 = false := by decide

/-- Bit 7 of an alarm byte is its mask bit (R34). -/
theorem alarmByte_mask {n : Byte} (h : n.toNat ≤ 79) (t : AlarmType) (k : Nat) :
    (packed n ||| codeBit t k 7).getLsbD 7 = t.code.getLsbD k := by
  rw [BitVec.getLsbD_or, packed_getLsbD_seven n h, codeBit_getLsbD_seven, Bool.false_or]

theorem packed_getLsbD_six : ∀ n : Byte, n.toNat ≤ 39 → (packed n).getLsbD 6 = false := by decide

/-- Bits 7 and 6 of the day/date byte are `M4` and `DYDT` (R34). -/
theorem alarmDayByte_mask {n : Byte} (h : n.toNat ≤ 39) (t : AlarmType) :
    (packed n ||| codeBit t 4 6 ||| codeBit t 3 7).getLsbD 7 = t.code.getLsbD 3 ∧
      (packed n ||| codeBit t 4 6 ||| codeBit t 3 7).getLsbD 6 = t.code.getLsbD 4 := by
  have day7 : (codeBit t 4 6).getLsbD 7 = false := by cases t <;> rfl
  have day6 : (codeBit t 4 6).getLsbD 6 = t.code.getLsbD 4 := by cases t <;> rfl
  have mask6 : (codeBit t 3 7).getLsbD 6 = false := by cases t <;> rfl
  simp only [BitVec.getLsbD_or, packed_getLsbD_seven n (by omega), packed_getLsbD_six n h, day7, day6, mask6,
    codeBit_getLsbD_seven, Bool.false_or, Bool.or_false, and_self]

/-- Settles O35: the cells hold the bytes of O33 and O34, whose mask bits are the code's. -/
theorem alarmMaskBitsFollowTheTable : Obligations.AlarmMaskBitsFollowTheTable := by
  rintro s ⟨type, bits⟩ seconds minutes hours dayOrDate listed hw ready plain
  obtain rfl := alarmRow_eq_code listed
  obtain ⟨hs, hm, hh, hd⟩ := alarmAdmitted_of_wf hw
  obtain ⟨m4, dydt⟩ := alarmDayByte_mask (n := dayOrDate) (by omega) type
  have channel := AlarmType.code_getLsbD_seven type
  cases alarm : type.isAlarm1 with
  | true =>
    rw [alarm] at channel
    have seconds_two := hs alarm
    obtain ⟨t, run, c0, c1, c2, c3, _⟩ :=
      setAlarm1WritesItsBlock s type seconds minutes hours dayOrDate _ (.inl rfl) channel hw ready
    rw [State.stored_plain plain _ (by decide)] at c0 c1 c2 c3
    refine ⟨t, run, fun _ => ?_, nofun⟩
    rw [c0, c1, c2, c3]
    exact ⟨alarmByte_mask (by omega) type 0, alarmByte_mask (by omega) type 1, alarmByte_mask (by omega) type 2,
      m4, dydt⟩
  | false =>
    rw [alarm] at channel
    obtain ⟨t, run, c1, c2, c3, _⟩ :=
      setAlarm2WritesItsBlock s type seconds minutes hours dayOrDate _ (.inl rfl) channel hw ready
    rw [State.stored_plain plain _ (by decide)] at c1 c2 c3
    refine ⟨t, run, nofun, fun _ => ?_⟩
    rw [c1, c2, c3]
    exact ⟨alarmByte_mask (by omega) type 1, alarmByte_mask (by omega) type 2, m4, dydt⟩

/-! ## A block whose write fails -/

/-- The block of either alarm lies below the reserved cell. -/
theorem alarmBase_add_ne_reserved (t : AlarmType) {j : Nat} (hj : j < 4) :
    alarmBase t + BitVec.ofNat 8 j ≠ Config.reservedCell := by
  have below : ∀ j < 4, 0x07#8 + BitVec.ofNat 8 j ≠ 0x13#8 ∧ 0x0B#8 + BitVec.ofNat 8 j ≠ 0x13#8 := by decide
  unfold alarmBase
  cases t.isAlarm1
  · exact (below j hj).2
  · exact (below j hj).1

/-- Settles O49: the failed write of the block stores a first part of it (O52). -/
theorem failedSetAlarmWritesSomePart : Obligations.FailedSetAlarmWritesSomePart := by
  intro s type seconds minutes hours dayOrDate c i hi hw idle quiet nonzero hc base data k
  obtain ⟨_, write⟩ := exec_alarm_eq_writeBytes hi hw idle
  have short : data.length ≤ 4 := alarmBytes_length_le type seconds minutes hours dayOrDate
  obtain ⟨t, run, response, lastErr, bus, cells, _, kept, ptrUnmoved, ptr, after⟩ :=
    failedWriteStoresSomePart s base c data _ (.inl rfl) (by omega) idle quiet nonzero hc
  exact ⟨t, write.trans run, response, lastErr, bus,
    fun j hj part => cells j hj part (alarmBase_add_ne_reserved type (by omega)), kept, ptrUnmoved, ptr, after⟩

/-! ## A read-modify-write once its read has succeeded -/

/-- The state after a read of the cell `a` alone. -/
abbrev State.didReadCell (s : State) (a : Byte) : State := s.didRead a [s.reg.read a] s.draws

/-- What is left of a read-modify-write once its cell is read: `new` is written back, then `v` is the answer. -/
def State.writeBack (s : State) (a new : Byte) (v : Result) : Run Result :=
  ((s.didReadCell a).memWrite a [new]).andThen fun _ t => .done v t

section
variable {s : State} (answers : s.Answers 2) (quiet : s.EngineQuiet 2)
include answers quiet

theorem State.runSetAlarmInterrupt_read (channel : Byte) (enabled : Bool) :
    s.runSetAlarmInterrupt channel enabled =
      s.writeBack Config.control (withEnable channel enabled (s.reg.read Config.control)) .none := by
  rw [State.runSetAlarmInterrupt, State.memReadByte_ok Config.control answers quiet (by decide), Run.andThen_done]
  rfl

theorem State.runSetSquareWave_read (freq : Byte) :
    s.runSetSquareWave freq =
      s.writeBack Config.control (squareWaveByte freq (s.reg.read Config.control)) .none := by
  rw [State.runSetSquareWave, State.memReadByte_ok Config.control answers quiet (by decide), Run.andThen_done]
  rfl

theorem State.runPollAndClearAlarm_set {channel : Byte} (set : flagSet channel (s.reg.read Config.status) = true) :
    s.runPollAndClearAlarm channel =
      s.writeBack Config.status (clearFlag channel (s.reg.read Config.status)) (.bool 0x01#8) := by
  rw [State.runPollAndClearAlarm, State.memReadByte_ok Config.status answers quiet (by decide), Run.andThen_done,
    set, cond_true]
  rfl

/-- A poll that finds its flag clear is a read (R166). -/
theorem State.runPollAndClearAlarm_clear {channel : Byte}
    (clear : flagSet channel (s.reg.read Config.status) = false) :
    s.runPollAndClearAlarm channel = .done (.bool 0x00#8) (s.didReadCell Config.status) := by
  rw [State.runPollAndClearAlarm, State.memReadByte_ok Config.status answers quiet (by decide), Run.andThen_done,
    clear, cond_false]
  rfl

theorem State.runOscillatorStopped_set (set : osfSet (s.reg.read Config.status) = true) :
    s.runOscillatorStopped true =
      s.writeBack Config.status (clearOsf (s.reg.read Config.status)) (.bool 0x01#8) := by
  rw [State.runOscillatorStopped, State.memReadByte_ok Config.status answers quiet (by decide), Run.andThen_done,
    set, Bool.and_true, cond_true]
  rfl

end

/-- A read-modify-write that succeeds: the cell holds what is stored, no other cell changes, and its three frames are
on the bus port. -/
theorem State.writeBack_answered {s : State} {a : Byte} (free : a ≠ Config.reservedCell) (answers : s.Answers 3)
    (quiet : s.EngineQuiet 3) (new : Byte) (v : Result) (kind : ResultKind) :
    let t := conclude kind (s.start.writeBack a new v)
    t.reg.read a = s.stored a new ∧ s.KeepsCellsBut t [a] ∧
      t.ptr = a + 1#8 ∧ t.lastErr = 0x00#8 ∧ t.response = some ⟨0x00#8, v⟩ ∧ t.draws = s.draws ∧
      t.bus = [wroteFrame s.params.devAddr [a], readFrame s.params.devAddr [s.reg.read a],
        wroteFrame s.params.devAddr [a, new]] ∧ s.AfterFrames t 3 := by
  obtain ⟨_, write⟩ := State.readThenWrite_ok (s := s.start) a answers quiet free new
  have done : s.start.writeBack a new v = .done v ((s.start.didReadCell a).wrote a [new]) := by
    rw [State.writeBack, write, Run.andThen_done]
  rw [done]
  exact ⟨State.wrote_one (s.start.didReadCell a) a new free, State.wrote_one_keeps (s.start.didReadCell a) a new,
    rfl, rfl, rfl, rfl, rfl,
    ((State.didRead_trail s.start _ _ _).trans (State.wrote_trail _ _ _)).conclude_done _ _⟩

/-- A read-modify-write whose write fails leaves its cell as it was, or the new byte stored where the frame's second
byte reached the slave (R138, R208). -/
theorem State.writeBack_failed {s : State} {a c : Byte} (free : a ≠ Config.reservedCell) (quiet : s.EngineQuiet 3)
    (nonzero : c ≠ 0x00#8) (hc : (s.answerAt 2).status = some c) (new : Byte) (v : Result) :
    ∃ t, s.writeBack a new v = .busError c t ∧
      t.bus = s.bus ++ [wroteFrame s.params.devAddr [a], readFrame s.params.devAddr [s.reg.read a],
        ⟨.write s.params.devAddr [a, new], some c, []⟩] ∧
      ((t.reg.read a = s.reg.read a ∧ (s.answerAt 2).applied < 2) ∨
        (t.reg.read a = s.stored a new ∧ 2 ≤ (s.answerAt 2).applied)) ∧
      s.KeepsCellsBut t [a] ∧ s.AfterFrames t 3 := by
  have third : (s.didReadCell a).answerAt 0 = s.answerAt 2 := State.answerAt_shift rfl rfl 0
  obtain ⟨t, run, reg, _, _, bus, after⟩ := State.memWrite_failed (s := s.didReadCell a) a [new]
    (State.EngineQuiet.shift (s := s) (n := 2) quiet rfl rfl rfl) nonzero (third ▸ hc)
  rw [third] at reg
  refine ⟨t, by rw [State.writeBack, run, Run.andThen_busError], by rw [bus]; simp [State.didRead], ?_⟩
  have trail : s.AfterFrames t 3 := (s.didRead_trail _ _ _).trans after
  rcases Nat.lt_or_ge (s.answerAt 2).applied 2 with part | whole
  · have old : t.reg = s.reg := by
      rw [reg, show min (s.answerAt 2).applied ([new].length + 1) - 1 = 0 by simp; omega]
      rfl
    exact ⟨.inl ⟨by rw [old], part⟩, fun b _ => by rw [old], trail⟩
  · have stored : t.reg = ((s.didReadCell a).wrote a [new]).reg := by
      rw [reg, show min (s.answerAt 2).applied ([new].length + 1) - 1 = 1 by simp; omega]
      rfl
    refine ⟨.inr ⟨?_, whole⟩, fun b hb => ?_, trail⟩
    · rw [stored]
      exact State.wrote_one (s.didReadCell a) a new free
    · rw [stored]
      exact State.wrote_one_keeps (s.didReadCell a) a new b hb

/-! ## The enable bits and the flags -/

theorem channelOk_of_one_or_two {channel : Byte} (h : channel = 1#8 ∨ channel = 2#8) : channelOk channel = true := by
  rcases h with rfl | rfl <;> rfl

theorem boolOk_of_zero_or_one {b : Byte} (h : b = 0#8 ∨ b = 1#8) : boolOk b = true := by
  rcases h with rfl | rfl <;> rfl

theorem withEnable_eq (channel enabled c : Byte) : withEnable channel (enabled == 1#8) c =
    if enabled = 1#8 then c ||| channelBit channel else c &&& ~~~(channelBit channel) := by
  simp only [withEnable, cond_eq_ite, beq_iff_eq]

/-- Settles O36: a read-modify-write of the control byte, `State.writeBack_answered`. -/
theorem setAlarmInterruptWritesEnableBit : Obligations.SetAlarmInterruptWritesEnableBit := by
  rintro s channel enabled hch hen ⟨idle, answers, quiet⟩ c bit c2
  have new : c2 = withEnable channel (enabled == 1#8) c := by rw [withEnable_eq, channelBit_eq hch]
  have hw : (Instr.setAlarmInterrupt channel enabled).wf = true :=
    (Bool.and_eq_true _ _).mpr ⟨channelOk_of_one_or_two hch, boolOk_of_zero_or_one hen⟩
  refine ⟨_, exec_setAlarmInterrupt idle hw, ?_⟩
  rw [new, State.runSetAlarmInterrupt_read (s := s.start) (answers.mono (by omega)) (quiet.mono (by omega))]
  exact State.writeBack_answered (by decide) answers quiet _ _ _

/-- Settles O37: with the flag set, a read-modify-write of the status byte; with it clear, a read. -/
theorem pollAndClearAlarmClearsOneFlag : Obligations.PollAndClearAlarmClearsOneFlag := by
  intro s channel hch st bit
  have hbit : bit = channelBit channel := (channelBit_eq hch).symm
  have hw : (Instr.pollAndClearAlarm channel).wf = true := channelOk_of_one_or_two hch
  rw [hbit]
  refine ⟨?_, ?_⟩
  · rintro set ⟨idle, answers, quiet⟩
    refine ⟨_, exec_pollAndClearAlarm idle hw, ?_⟩
    rw [State.runPollAndClearAlarm_set (s := s.start) (answers.mono (by omega)) (quiet.mono (by omega))
      ((flagSet_iff _ _).mpr set)]
    exact State.writeBack_answered (by decide) answers quiet _ _ _
  · rintro clear ⟨idle, answers, quiet⟩
    refine ⟨_, exec_pollAndClearAlarm idle hw, ?_⟩
    rw [State.runPollAndClearAlarm_clear (s := s.start) answers quiet
      (Bool.eq_false_iff.mpr fun set => (flagSet_iff _ _).mp set clear)]
    exact ⟨rfl, rfl, rfl, rfl, rfl, rfl, (State.didRead_trail s.start _ _ _).conclude_done _ _⟩

/-- Settles O38: the first poll clears the flag that the second one looks for (O37). -/
theorem pollIsIdempotent : Obligations.PollIsIdempotent := by
  intro s channel hch ready plain set
  obtain ⟨t, first, stored, _, _, _, response, _, _, after⟩ :=
    (pollAndClearAlarmClearsOneFlag s channel hch).1 set (ready.mono (by omega))
  rw [State.stored_plain plain _ (by decide)] at stored
  have clear : t.reg.read 0x0F#8 &&& (if channel = 1#8 then 0x01#8 else 0x02#8) = 0#8 := by
    rw [stored, BitVec.and_assoc, BitVec.not_and_self]
    exact BitVec.and_zero
  obtain ⟨u, second, reg, _, _, response', _, bus, _⟩ :=
    (pollAndClearAlarmClearsOneFlag t channel hch).2 clear (ready.shift (n := 3) after)
  exact ⟨t, u, first, response, stored, second, response', reg, by rw [bus]; rfl⟩

/-! ## The control bits, one by one -/

theorem getLsbD_or_twoPow (c : Byte) {j : Nat} (hj : j < 8) (k : Nat) :
    (c ||| BitVec.twoPow 8 j).getLsbD k = if k = j then true else c.getLsbD k := by
  rw [BitVec.getLsbD_or, BitVec.getLsbD_twoPow]
  by_cases h : k = j
  · simp [h, hj]
  · simp [h, Ne.symm h]

theorem getLsbD_and_not_twoPow (c : Byte) (j k : Nat) :
    (c &&& ~~~(BitVec.twoPow 8 j)).getLsbD k = if k = j then false else c.getLsbD k := by
  rw [BitVec.getLsbD_and, BitVec.getLsbD_not, BitVec.getLsbD_twoPow]
  by_cases h : k = j
  · subst h
    by_cases hk : k < 8 <;> simp [hk]
  · rcases Nat.lt_or_ge k 8 with hk | hk
    · simp [h, Ne.symm h, hk]
    · simp [h, BitVec.getLsbD_of_ge c k hk]

theorem withEnable_getLsbD {channel : Byte} (hch : channel = 1#8 ∨ channel = 2#8) (enabled : Bool) (c : Byte)
    (k : Nat) :
    (withEnable channel enabled c).getLsbD k = if k = channel.toNat - 1 then enabled else c.getLsbD k := by
  have hj : channel.toNat - 1 < 8 := by rcases hch with rfl | rfl <;> decide
  cases enabled with
  | true => exact getLsbD_or_twoPow c hj k
  | false => exact getLsbD_and_not_twoPow c _ k

/-- A rate code, shifted to its place, lies in `{RS2, RS1}` (R102). -/
theorem rateCode_getLsbD : ∀ freq : Byte, freq.toNat ≤ 3 → ∀ k < 8, k ≠ 4 → k ≠ 3 →
    (freq <<< 3).getLsbD k = false := by decide

/-- A rate code clears INTCN, and the bits outside `{RS2, RS1}` and INTCN stay (R180). -/
theorem squareWaveByte_code_getLsbD {freq : Byte} (hf : freq.toNat ≤ 3) (c : Byte) :
    (squareWaveByte freq c).getLsbD 2 = false ∧
      ∀ k, k ≠ 4 → k ≠ 3 → k ≠ 2 → (squareWaveByte freq c).getLsbD k = c.getLsbD k := by
  have code : (freq == freqDisabled) = false := beq_false_of_ne (by rintro rfl; exact absurd hf (by decide))
  have mask : ∀ k < 8, k ≠ 4 → k ≠ 3 → k ≠ 2 → (0xE3#8).getLsbD k = true := by decide
  rw [squareWaveByte, code, cond_false]
  refine ⟨?_, fun k h4 h3 h2 => ?_⟩
  · rw [BitVec.getLsbD_or, BitVec.getLsbD_and, rateCode_getLsbD freq hf 2 (by decide) (by decide) (by decide)]
    exact (Bool.or_false _).trans (Bool.and_false _)
  · rcases Nat.lt_or_ge k 8 with hk | hk
    · rw [BitVec.getLsbD_or, BitVec.getLsbD_and, rateCode_getLsbD freq hf k hk h4 h3, mask k hk h4 h3 h2,
        Bool.and_true, Bool.or_false]
    · rw [BitVec.getLsbD_of_ge _ k hk, BitVec.getLsbD_of_ge _ k hk]

/-- Under the default `WMASK` the control byte is then the one the frequency makes of it (R180). -/
theorem exec_setSquareWave_plain {s : State} {freq : Byte} (hf : freq.toNat ≤ 4) (ready : s.Ready 3)
    (plain : s.PlainStorage) :
    ∃ t, exec (.setSquareWave freq) s = .next t ∧
      t.reg.read 0x0E#8 = squareWaveByte freq (s.reg.read 0x0E#8) := by
  obtain ⟨idle, answers, quiet⟩ := ready
  refine ⟨_, exec_setSquareWave idle ((inRange_iff _ _ _).mpr ⟨Nat.zero_le _, hf⟩), ?_⟩
  rw [State.runSetSquareWave_read (s := s.start) (answers.mono (by omega)) (quiet.mono (by omega)),
    (State.writeBack_answered (by decide) answers quiet _ _ _).1]
  exact State.stored_plain plain _ (by decide)

/-- Settles O41: the byte stored (O36) and the bits that make it. -/
theorem controlBitsArePreserved : Obligations.ControlBitsArePreserved := by
  intro s ready plain
  refine ⟨?_, fun freq hf => ?_, fun channel enabled hch hen => ?_⟩
  · obtain ⟨t, run, byte⟩ := exec_setSquareWave_plain (freq := 4#8) (by decide) ready plain
    have bits := getLsbD_or_twoPow (s.reg.read 0x0E#8) (j := 2) (by decide)
    rw [show squareWaveByte 4#8 (s.reg.read 0x0E#8) = s.reg.read 0x0E#8 ||| BitVec.twoPow 8 2 from rfl] at byte
    refine ⟨t, run, ?_, fun k hk => ?_⟩
    · rw [byte, bits, if_pos rfl]
    · rw [byte, bits, if_neg hk]
  · obtain ⟨t, run, byte⟩ := exec_setSquareWave_plain (hf.trans (by decide)) ready plain
    have bits := squareWaveByte_code_getLsbD hf (s.reg.read 0x0E#8)
    rw [← byte] at bits
    exact ⟨t, run, bits⟩
  · obtain ⟨t, run, stored, _⟩ := setAlarmInterruptWritesEnableBit s channel enabled hch hen ready
    rw [State.stored_plain plain _ (by decide), ← channelBit_eq hch, ← withEnable_eq] at stored
    have bits := withEnable_getLsbD hch (enabled == 1#8) (s.reg.read 0x0E#8)
    refine ⟨t, run, ?_, fun k hk => ?_⟩
    · rw [stored, bits, if_pos rfl]
    · rw [stored, bits, if_neg hk]

/-! ## A read-modify-write that fails at its write -/

/-- Settles O50: each of the four operations has come to its `State.writeBack`, which fails. -/
theorem failedReadModifyWriteIsOldOrNew : Obligations.FailedReadModifyWriteIsOldOrNew := by
  intro i s addr new c hw operation idle quiet answers nonzero hc
  have quiet2 : s.EngineQuiet 2 := quiet.mono (by omega)
  obtain ⟨kind, v, run, free⟩ : ∃ kind v, exec i s = .next (conclude kind (s.start.writeBack addr new v)) ∧
      addr ≠ Config.reservedCell := by
    rcases operation with ⟨rfl, ⟨channel, enabled, rfl, rfl⟩ | ⟨freq, rfl, rfl⟩⟩ |
      ⟨rfl, ⟨channel, rfl, set, rfl⟩ | ⟨rfl, set, rfl⟩⟩
    · refine ⟨.none, .none, ?_, by decide⟩
      rw [exec_setAlarmInterrupt idle hw, State.runSetAlarmInterrupt_read (s := s.start) answers quiet2]
    · refine ⟨.none, .none, ?_, by decide⟩
      rw [exec_setSquareWave idle hw, State.runSetSquareWave_read (s := s.start) answers quiet2]
    · refine ⟨.bool, .bool 0x01#8, ?_, by decide⟩
      rw [exec_pollAndClearAlarm idle hw, State.runPollAndClearAlarm_set (s := s.start) answers quiet2 set]
    · refine ⟨.bool, .bool 0x01#8, ?_, by decide⟩
      rw [exec_oscillatorStopped idle hw]
      exact congrArg (fun r => Host.Outcome.next (conclude .bool r))
        (State.runOscillatorStopped_set (s := s.start) answers quiet2 set)
  obtain ⟨t, failed, bus, cell, kept, after⟩ := State.writeBack_failed (s := s.start) free quiet nonzero hc new v
  obtain ⟨draws, ended⟩ := conclude_busError kind c t
  rw [failed, ended] at run
  exact ⟨_, _, run, rfl, rfl, bus, cell, kept, after.of_start.answered _ _ _⟩

end Sys2Proof.Machine
end

section
/-! PROOFS. `setSquareWave` and `oscillatorStopped` (spec/44_control_status.md R180, R181): O40 and O42. -/

namespace Sys2Proof.Machine

theorem squareWaveByte_eq (freq c : Byte) :
    squareWaveByte freq c = if freq = 4#8 then c ||| 0x04#8 else (c &&& 0xE3#8) ||| (freq <<< 3) := by
  simp only [squareWaveByte, cond_eq_ite, beq_iff_eq]

/-- Settles O40: a read-modify-write of the control byte, `State.writeBack_answered`. -/
theorem setSquareWaveWritesControl : Obligations.SetSquareWaveWritesControl := by
  rintro s freq hf ⟨idle, answers, quiet⟩ c c2
  have new : c2 = squareWaveByte freq c := (squareWaveByte_eq freq c).symm
  refine ⟨_, exec_setSquareWave idle ((inRange_iff _ _ _).mpr ⟨Nat.zero_le _, hf⟩), ?_⟩
  rw [new, State.runSetSquareWave_read (s := s.start) (answers.mono (by omega)) (quiet.mono (by omega))]
  exact State.writeBack_answered (by decide) answers quiet _ _ _

/-- With OSF clear, or no clearing asked for, the operation is a read (R181). -/
theorem State.runOscillatorStopped_read {s : State} (answers : s.Answers 2) (quiet : s.EngineQuiet 2) {clear : Bool}
    (noWrite : (osfSet (s.reg.read Config.status) && clear) = false) :
    s.runOscillatorStopped clear =
      .done (.bool (boolByte (osfSet (s.reg.read Config.status)))) (s.didReadCell Config.status) := by
  rw [State.runOscillatorStopped, State.memReadByte_ok Config.status answers quiet (by decide), Run.andThen_done,
    noWrite, cond_false]

/-- Settles O42: with OSF set and the clearing asked for, a read-modify-write of the status byte; otherwise a read. -/
theorem oscillatorStoppedReportsAndClears : Obligations.OscillatorStoppedReportsAndClears := by
  intro s clear hclear st
  have hw : (Instr.oscillatorStopped clear).wf = true := boolOk_of_zero_or_one hclear
  refine ⟨?_, ?_⟩
  · rintro set rfl ⟨idle, answers, quiet⟩
    refine ⟨_, exec_oscillatorStopped idle hw, ?_⟩
    rw [show (1#8 == 0x01#8) = true from rfl,
      State.runOscillatorStopped_set (s := s.start) (answers.mono (by omega)) (quiet.mono (by omega)) set]
    exact State.writeBack_answered (by decide) answers quiet _ _ _
  · rintro keep ⟨idle, answers, quiet⟩
    have noWrite : (osfSet st && (clear == 0x01#8)) = false := by
      rcases keep with osf | rfl
      · exact Bool.and_eq_false_imp.mpr fun set => absurd (osf.symm.trans set) (by decide)
      · exact Bool.and_false _
    refine ⟨_, exec_oscillatorStopped idle hw, ?_⟩
    rw [State.runOscillatorStopped_read (s := s.start) answers quiet noWrite]
    exact ⟨rfl, rfl, rfl, rfl, by rw [← cond_eq_ite]; rfl, rfl,
      (State.didRead_trail s.start _ _ _).conclude_done _ _⟩

end Sys2Proof.Machine
end

section
/-! PROOFS. `readTemperature` (spec/45_temperature.md R190, R191) while its frames succeed, and where one of them
fails (R202, R208). -/

namespace Sys2Proof.Machine

/-! ## The value of the two registers -/

/-- The arithmetic shift by 6 divides `256 * msb + lsb` by 64: the low six bits of 0x12 are dropped (R190). -/
theorem toInt_temperatureOf (msb lsb : Byte) :
    (temperatureOf msb lsb).toInt = (msb ++ lsb.extractLsb' 6 2 : BitVec 10).toInt := by
  have top : (lsb.extractLsb' 6 2).toNat = lsb.toNat / 64 := by
    rw [BitVec.extractLsb'_toNat, Nat.shiftRight_eq_div_pow]
    omega
  calc (temperatureOf msb lsb).toInt
      = (msb ++ lsb).toInt >>> (6 : Nat) := BitVec.toInt_sshiftRight
    _ = (2 ^ 8 * msb.toInt + lsb.toNat) / 64 := by rw [BitVec.toInt_append, Int.shiftRight_eq_div_pow]; rfl
    _ = 2 ^ 2 * msb.toInt + (lsb.toNat / 64 : Nat) := by omega
    _ = (msb ++ lsb.extractLsb' 6 2).toInt := by rw [BitVec.toInt_append, top]; rfl

/-- Ten bits with a sign count from -512 to 511 (R191). -/
theorem toInt_temperatureOf_bounds (msb lsb : Byte) :
    -512 ≤ (temperatureOf msb lsb).toInt ∧ (temperatureOf msb lsb).toInt ≤ 511 := by
  rw [toInt_temperatureOf]
  exact ⟨BitVec.le_toInt _, Int.le_sub_one_of_lt BitVec.toInt_lt⟩

/-! ## All four frames succeed -/

/-- Two single-byte reads, one after the other, and the value they make (R190). -/
theorem State.runReadTemperature_ok {s : State} (answers : s.Answers 4) (quiet : s.EngineQuiet 4) :
    s.runReadTemperature =
      .done (.temperature (temperatureOf (s.reg.read Config.tempMsb) (s.reg.read Config.tempLsb)))
        ((s.didReadCell Config.tempLsb).didReadCell Config.tempMsb) := by
  have lsb := State.memReadByte_ok Config.tempLsb (answers.mono (by omega)) (quiet.mono (by omega)) (by decide)
  have msb := State.memReadByte_ok (s := s.didReadCell Config.tempLsb) Config.tempMsb
    (State.Answers.shift (s := s) (n := 2) answers rfl rfl)
    (State.EngineQuiet.shift (s := s) (n := 2) quiet rfl rfl rfl) (by decide)
  rw [State.runReadTemperature, lsb, Run.andThen_done, msb, Run.andThen_done]
  rfl

/-- Settles O44: the two reads of `State.runReadTemperature_ok`, and the value of `toInt_temperatureOf`. -/
theorem readTemperatureAnswersQuarterDegrees : Obligations.ReadTemperatureAnswersQuarterDegrees := by
  rintro s ⟨idle, answers, quiet⟩
  obtain ⟨low, high⟩ := toInt_temperatureOf_bounds (s.reg.read 0x11#8) (s.reg.read 0x12#8)
  refine ⟨_, temperatureOf (s.reg.read 0x11#8) (s.reg.read 0x12#8), exec_readTemperature idle, ?_⟩
  rw [State.runReadTemperature_ok (s := s.start) answers quiet]
  exact ⟨rfl, toInt_temperatureOf _ _, low, high, rfl, rfl, rfl, rfl, rfl,
    ((State.didRead_trail s.start _ _ _).trans (State.didRead_trail _ _ _ _)).conclude_done _ _⟩

/-! ## A frame fails -/

/-- A read of a byte that fails has used the answers of its frames up to the one that failed. -/
theorem State.memReadByte_failed_afterFrames {s t : State} {addr c : Byte} {n : Nat} (hn : n < 2)
    (quiet : s.EngineQuiet 2) (before : s.Answers n) (nonzero : c ≠ 0x00#8) (hc : (s.answerAt n).status = some c)
    (failed : s.memReadByte addr = .busError c t) : s.AfterFrames t (n + 1) := by
  obtain rfl | rfl : n = 0 ∨ n = 1 := by omega
  · obtain ⟨u, run, _, _, _, after⟩ := State.memRead_addressFailed addr 1 (quiet.mono (by omega)) nonzero hc
    rw [State.memReadByte, run, Run.andThen_busError] at failed
    cases failed
    exact after
  · obtain ⟨u, run, _, _, after⟩ := State.memRead_readFailed addr 1 quiet (before 0 (by omega)) nonzero hc
    rw [State.memReadByte, run, Run.andThen_busError] at failed
    cases failed
    exact after

/-- The failing frame is one of the first read, or of the second after the first succeeded (R202). -/
theorem State.runReadTemperature_failed {s : State} {c : Byte} {n : Nat} (hn : n < 4) (quiet : s.EngineQuiet 4)
    (before : s.Answers n) (nonzero : c ≠ 0x00#8) (hc : (s.answerAt n).status = some c) :
    ∃ t, s.runReadTemperature = .busError c t ∧ t.reg = s.reg ∧ t.bus.length = s.bus.length + (n + 1) ∧
      s.AfterFrames t (n + 1) := by
  have quiet2 : s.EngineQuiet 2 := quiet.mono (by omega)
  rcases Nat.lt_or_ge n 2 with first | second
  · obtain ⟨t, run, reg, length⟩ := State.memReadByte_failed Config.tempLsb first quiet2 before nonzero hc
    exact ⟨t, by rw [State.runReadTemperature, run, Run.andThen_busError], reg, length,
      State.memReadByte_failed_afterFrames first quiet2 before nonzero hc run⟩
  · obtain ⟨m, rfl⟩ := Nat.exists_eq_add_of_le second
    have lsb := State.memReadByte_ok Config.tempLsb (before.mono second) quiet2 (by decide)
    have quiet' : (s.didReadCell Config.tempLsb).EngineQuiet 2 :=
      State.EngineQuiet.shift (s := s) (n := 2) quiet rfl rfl rfl
    have before' : (s.didReadCell Config.tempLsb).Answers m := State.Answers.shift (s := s) before rfl rfl
    have hc' : ((s.didReadCell Config.tempLsb).answerAt m).status = some c :=
      (congrArg FrameAnswer.status (State.answerAt_shift rfl rfl m)).trans hc
    obtain ⟨t, run, reg, length⟩ :=
      State.memReadByte_failed Config.tempMsb (n := m) (by omega) quiet' before' nonzero hc'
    have after := State.memReadByte_failed_afterFrames (by omega) quiet' before' nonzero hc' run
    have two : (s.didReadCell Config.tempLsb).bus.length = s.bus.length + 2 := by simp [State.didRead]
    exact ⟨t, by rw [State.runReadTemperature, lsb, Run.andThen_done, run, Run.andThen_busError], reg, by omega,
      Nat.add_assoc 2 m 1 ▸ (s.didRead_trail _ _ _).trans after⟩

/-- Settles O53: the run of `State.runReadTemperature_failed`, its code as the answer. -/
theorem failedReadTemperatureIsSurfaced : Obligations.FailedReadTemperatureIsSurfaced := by
  intro s n c hn idle quiet before nonzero hc
  obtain ⟨t, failed, reg, length, after⟩ :=
    State.runReadTemperature_failed (s := s.start) hn quiet before nonzero hc
  obtain ⟨draws, ended⟩ := conclude_busError .temperature c t
  have run := exec_readTemperature idle
  rw [failed, ended] at run
  exact ⟨_, _, run, length.trans (Nat.zero_add _), rfl, rfl, reg, after.of_start.answered _ _ _⟩

end Sys2Proof.Machine
end

section
/-! PROOFS. The family of spec/60_exceptions.md: what raising `BusError` means (R200, R202), and the pin's mode, which
INTCN selects (R212). -/

namespace Sys2Proof.Machine

/-! ## BusError -/

/-- Settles O58: `Run.andThen` drops what comes after an error, and `conclude` writes the code to the result port and
`LASTERR` alone, so that the sequencer takes up what comes next (O14). -/
theorem raiseEndsTheOperation : Obligations.RaiseEndsTheOperation := by
  refine ⟨fun _ _ c s rest => Run.andThen_busError c s rest, fun kind c s idle => ?_, fun _ _ _ => ⟨rfl, rfl⟩⟩
  obtain ⟨draws, ended⟩ := conclude_busError kind c s
  rw [ended]
  exact ⟨_, _, rfl, rfl, rfl, rfl, rfl, rfl, rfl, idle, fun j => (admittedInstructionsAreTakenUp j _).1 idle⟩

/-- Settles O55: every frame but the last ended with 0 (O45), so that a nonzero status is the last frame's, and the
last frame's status is the operation's. -/
theorem busErrorEndsTheOperation : Obligations.BusErrorEndsTheOperation := by
  intro i s hc hb hw idle
  obtain ⟨t, run, one, _, _, _, earlierOk, ended⟩ := firstFailureEndsTheOperation i s hc hb hw idle
  have endsWith : ∀ c, (s.answerAt (t.bus.length - 1)).status = some c →
      t.seq = .idle ∧ t.lastErr = c ∧ ∃ v, t.response = some ⟨c, v⟩ := by
    intro c status
    rcases ended with ⟨never, _⟩ | ⟨d, v, answered, idle', lastErr, response⟩
    · exact absurd (never.symm.trans status) nofun
    · obtain rfl : d = c := Option.some.inj (answered.symm.trans status)
      exact ⟨idle', lastErr, v, response⟩
  refine ⟨t, run, one, fun n c hn status nonzero => ?_, fun answers => ?_⟩
  · have last : n + 1 = t.bus.length := by
      by_contra earlier
      exact nonzero (Option.some.inj (status.symm.trans (earlierOk n (by omega))))
    obtain ⟨idle', lastErr, response⟩ := endsWith c (by rwa [← last])
    exact ⟨last, response, lastErr, idle', fun j => (admittedInstructionsAreTakenUp j t).1 idle'⟩
  · obtain ⟨_, lastErr, response⟩ := endsWith 0x00#8 (answers _ (by omega))
    exact ⟨response, lastErr⟩

/-! ## One bit of one cell -/

/-- Bit `k` of cell `a` stands in `t` as in `s`. -/
def State.KeepsBit (a : Byte) (k : Nat) (s t : State) : Prop :=
  (t.reg.read a).getLsbD k = (s.reg.read a).getLsbD k

theorem State.KeepsBit.refl (a : Byte) (k : Nat) (s : State) : State.KeepsBit a k s s := rfl

theorem State.KeepsBit.trans {a : Byte} {k : Nat} {s t u : State} (h : State.KeepsBit a k s t)
    (g : State.KeepsBit a k t u) : State.KeepsBit a k s u := Eq.trans g h

/-- Across one micro-step and the rest. -/
theorem Run.andThen_keepsBit {α β : Type} {a : Byte} {k : Nat} {s : State} {r : Run α} {f : α → State → Run β}
    (hr : State.KeepsBit a k s r.state) (hf : ∀ x t, r = .done x t → State.KeepsBit a k t (f x t).state) :
    State.KeepsBit a k s (r.andThen f).state :=
  Run.andThen_rel (R := State.KeepsBit a k) State.KeepsBit.trans hr hf

/-- A masked write that carries the bit as it is keeps it, whether the mask lets it through or not (R21). -/
theorem mergeBits_getLsbD_of_eq (m : Byte) {old new : Byte} {k : Nat} (hk : k < 8)
    (same : new.getLsbD k = old.getLsbD k) : (mergeBits m old new).getLsbD k = old.getLsbD k := by
  rw [mergeBits, BitVec.getLsbD_or, BitVec.getLsbD_and, BitVec.getLsbD_and, BitVec.getLsbD_not, same]
  cases m.getLsbD k <;> simp [hk]

/-- Of a frame of two bytes none, the address or both reach this slave (R138, R139). -/
theorem State.taken_two (s : State) (dev : DevAddr) (a v : Byte) :
    s.taken dev [a, v] = [] ∨ s.taken dev [a, v] = [a] ∨ s.taken dev [a, v] = [a, v] := by
  unfold State.taken
  split
  · rcases deliveredBytes s.answer [a, v].length with _ | _ | n
    · exact .inl rfl
    · exact .inr (.inl rfl)
    · exact .inr (.inr (by simp))
  · exact .inl rfl

/-- A write of one byte that carries a bit as it is, a bit the engine does not own, keeps it in every environment:
stored through any mask, or not stored. -/
theorem State.memWrite_one_keepsBit {s : State} {a v : Byte} {k : Nat} (unowned : (engineMask a).getLsbD k = false)
    (hk : k < 8) (same : v.getLsbD k = (s.reg.read a).getLsbD k) :
    State.KeepsBit a k s (s.memWrite a [v]).state := by
  have opened : (s.openFrame.reg.read a).getLsbD k = (s.reg.read a).getLsbD k :=
    s.openFrame_keepsOutside.bit List.not_mem_nil unowned hk
  rw [State.memWrite, State.busWrite_eq, Run.state_ofStatus]
  show ((s.regAfter (s.taken s.params.devAddr [a, v])).read a).getLsbD k = _
  rcases s.taken_two s.params.devAddr a v with e | e | e <;> rw [e]
  · exact opened
  · exact opened
  · rw [State.regAfter, RegFile.storeAll, RegFile.storeAll, RegFile.read_write_same,
      mergeBits_getLsbD_of_eq _ hk (same.trans opened.symm), opened]

/-! ## INTCN -/

/-- The rate code is `{RS2, RS1}` (R42, R212). -/
theorem rateCode_eq : ∀ c : Byte,
    c.extractLsb' bitRS1 2 = BitVec.ofBool (c.getLsbD bitRS2) ++ BitVec.ofBool (c.getLsbD bitRS1) := by decide

theorem one_or_two_of_channelOk {channel : Byte} (h : channelOk channel = true) : channel = 1#8 ∨ channel = 2#8 := by
  obtain ⟨h1, h2⟩ := (inRange_iff _ _ _).mp h
  bv_omega

/-- `setAlarmInterrupt` writes back INTCN as it read it (R165). -/
theorem State.runSetAlarmInterrupt_keepsIntcn (s : State) {channel : Byte} (hch : channel = 1#8 ∨ channel = 2#8)
    (enabled : Bool) : State.KeepsBit Config.control bitINTCN s (s.runSetAlarmInterrupt channel enabled).state := by
  have read : State.KeepsBit Config.control bitINTCN s (s.memReadByte Config.control).state :=
    (s.memReadByte_outside Config.control []).bit List.not_mem_nil rfl (by decide)
  have other : bitINTCN ≠ channel.toNat - 1 := by rcases hch with rfl | rfl <;> decide
  refine Run.andThen_keepsBit read fun c t run => ?_
  have same : (withEnable channel enabled c).getLsbD bitINTCN = (t.reg.read Config.control).getLsbD bitINTCN := by
    rw [withEnable_getLsbD hch, if_neg other, State.memReadByte_value (by decide) run]
  exact Run.andThen_keepsBit (State.memWrite_one_keepsBit rfl (by decide) same) fun _ u _ => .refl _ _ u

/-- The other alarm operations store to cells beside the control byte alone (R163 to R166). -/
theorem Instr.control_not_mem_targets_of_alarm {i : Instr} (alarm : i.isAlarmOperation = true)
    (other : ∀ channel enabled, i ≠ .setAlarmInterrupt channel enabled) : Config.control ∉ i.targets := by
  cases i with
  | setAlarm | setAlarm3 =>
    rw [Instr.targets]
    split <;> decide
  | pollAndClearAlarm =>
    rw [Instr.targets]
    decide
  | setAlarmInterrupt channel enabled => exact absurd rfl (other channel enabled)
  | _ => cases alarm

/-- No alarm operation touches INTCN, in any environment (R212). -/
theorem exec_alarm_keepsIntcn {i : Instr} {s t : State} (alarm : i.isAlarmOperation = true)
    (run : exec i s = .next t) : State.KeepsBit Config.control bitINTCN s t := by
  by_cases h : ∃ channel enabled, i = .setAlarmInterrupt channel enabled
  · obtain ⟨channel, enabled, rfl⟩ := h
    obtain ⟨idle, hw, _⟩ := exec_next run
    obtain ⟨hch, _⟩ := (Bool.and_eq_true _ _).mp hw
    rw [exec_setAlarmInterrupt idle hw] at run
    cases run
    rw [State.KeepsBit, conclude_reg]
    exact s.start.runSetAlarmInterrupt_keepsIntcn (one_or_two_of_channelOk hch) _
  · exact (exec_keepsOutside run).bit
      (Instr.control_not_mem_targets_of_alarm alarm fun channel enabled e => h ⟨channel, enabled, e⟩) rfl (by decide)

/-- Settles O43: what `pinMode` is, the bit `setSquareWave` leaves (O41), and `exec_alarm_keepsIntcn`. -/
theorem squareWaveRoutesThePin : Obligations.SquareWaveRoutesThePin := by
  refine ⟨fun c => ?_, fun s ready plain => ?_, fun i s alarm hw idle => ?_⟩
  · rw [pinMode, rateCode_eq, cond_eq_ite]
  · obtain ⟨⟨t, run, set, _⟩, codes, _⟩ := controlBitsArePreserved s ready plain
    refine ⟨⟨t, run, set⟩, fun freq hf => ?_⟩
    obtain ⟨u, run', clear, _⟩ := codes freq hf
    exact ⟨u, run', clear⟩
  · obtain ⟨t, run⟩ := (admittedInstructionsAreTakenUp i s).1 idle hw
    exact ⟨t, run, exec_alarm_keepsIntcn alarm run⟩

end Sys2Proof.Machine
end

section
/-! PROOFS. The family of spec/70_reset_and_hazards.md: a restart of the host side (R231). -/

namespace Sys2Proof.Machine

/-- What `step` makes of a restart of the host side. -/
theorem step_hostReset {s : State} {rest : List Input} (h : s.inbox = .hostReset :: rest) :
    step s = .next { s with inbox := rest }.hostReset := by
  simp only [step, fetch, h]

/-- Settles O6: the step is `State.hostReset`, which sets the sequencer's side alone. -/
theorem hostResetKeepsTheDevice : Obligations.HostResetKeepsTheDevice :=
  fun _ _ h => ⟨_, step_hostReset h, State.hostReset_reg _, State.hostReset_ptr _, State.hostReset_lastErr _,
    State.hostReset_seq _, State.hostReset_pending _, State.hostReset_received _, State.hostReset_params _,
    State.hostReset_inbox _⟩

end Sys2Proof.Machine
end
